-- ==== Sys2Proof/Word.lean ====
section
/-! DEFINITION. The widths of the block (spec/00_scope.md R5, spec/30_encoding.md R70). -/

namespace Sys2Proof

/-- A host register or a command word (spec/20_memory.md R40). -/
abbrev Word := BitVec 32

/-- A data byte, a peer register address or a buffer byte (spec/00_scope.md R5). -/
abbrev Byte := BitVec 8

/-- A device address on the bus, 7 bits (spec/10_state.md R11). -/
abbrev DevAddr := BitVec 7

/-- A buffer length or byte count, 13 bits (spec/30_encoding.md R71). -/
abbrev Len := BitVec 13

/-- `BUF_DEPTH`, the number of bytes in each of `TXBUF` and `RXBUF` (spec/00_scope.md R5). -/
abbrev bufDepth : Nat := 8192

end Sys2Proof
end

