-- ==== Sys2Proof/Syntax.lean ====
section
/-! DEFINITION. The commands of BTE command set v1, one constructor per row of spec/opcode_table.json, and the raw
command word with its four fields (spec/30_encoding.md R70, R72). -/

namespace Sys2Proof

/-- A command with its operands (spec/30_encoding.md R72). Every operand has exactly the width of its
field (R71), so every term is a command the table admits. -/
inductive Instr where
  /-- `WREG dev, reg, val`: spec/41_write_commands.md R110 -/
  | wreg (dev : DevAddr) (reg : Byte) (val : Byte)
  /-- `WBUF dev, n`, also spelt `WRAWB dev, n`: spec/41_write_commands.md R111, R113 -/
  | wbuf (dev : DevAddr) (n : Len)
  /-- `RREG dev, reg`: spec/42_read_commands.md R120 -/
  | rreg (dev : DevAddr) (reg : Byte)
  /-- `RBUF dev, reg, n`: spec/42_read_commands.md R121 -/
  | rbuf (dev : DevAddr) (reg : Byte) (n : Len)
  /-- `WRAW dev, val`: spec/41_write_commands.md R112 -/
  | wraw (dev : DevAddr) (val : Byte)
  /-- `RRAW dev`: spec/42_read_commands.md R122 -/
  | rraw (dev : DevAddr)
  /-- `RRAWB dev, n`: spec/42_read_commands.md R123 -/
  | rrawb (dev : DevAddr) (n : Len)
  deriving DecidableEq, Repr

/-- The seven opcodes that are not reserved (spec/30_encoding.md R72). -/
inductive Opcode where
  | wreg | wbuf | rreg | rbuf | wraw | rraw | rrawb
  deriving DecidableEq, Repr

/-- The opcode of a command. -/
def Instr.opcode : Instr → Opcode
  | .wreg _ _ _ => .wreg
  | .wbuf _ _   => .wbuf
  | .rreg _ _   => .rreg
  | .rbuf _ _ _ => .rbuf
  | .wraw _ _   => .wraw
  | .rraw _     => .rraw
  | .rrawb _ _  => .rrawb

/-- A 32-bit command word taken apart into its four fields, whatever they hold (spec/30_encoding.md R70). -/
structure CommandWord where
  op  : BitVec 4
  dev : DevAddr
  reg : Byte
  imm : Len
  deriving DecidableEq, Repr

end Sys2Proof
end

