-- ==== Sys2Proof/WellFormed.lean ====
section
/-! DEFINITION. When a command word is well-formed for its opcode: the must-be-zero fields (spec/30_encoding.md R73), and the
same as the match and mask of the table. -/

namespace Sys2Proof

/-- `IMM[12:8] = 0`, the condition on a word whose immediate is the byte `VAL`. -/
def CommandWord.immIsByte (c : CommandWord) : Bool := c.imm.extractLsb' 8 5 == 0#5

/-- A word is well-formed for its opcode when every field the opcode does not use is zero
(spec/30_encoding.md R73). -/
def CommandWord.wellFormed (c : CommandWord) : Opcode → Bool
  | .wreg  => c.immIsByte
  | .wbuf  => c.reg == 0#8
  | .rreg  => c.imm == 0#13
  | .rbuf  => true
  | .wraw  => c.reg == 0#8 && c.immIsByte
  | .rraw  => c.reg == 0#8 && c.imm == 0#13
  | .rrawb => c.reg == 0#8

/-- One row of the match and mask table of spec/30_encoding.md R73. -/
structure OpRow where
  op    : Opcode
  pattern : Word
  mask  : Word
  deriving DecidableEq, Repr

/-- The rows of spec/30_encoding.md R73: a word belongs to a row when `w &&& mask = pattern`. -/
def opcodeRows : List OpRow :=
  [ ⟨.wreg,  0x10000000, 0xF0001F00⟩,
    ⟨.wbuf,  0x20000000, 0xF01FE000⟩,
    ⟨.rreg,  0x30000000, 0xF0001FFF⟩,
    ⟨.rbuf,  0x40000000, 0xF0000000⟩,
    ⟨.wraw,  0x50000000, 0xF01FFF00⟩,
    ⟨.rraw,  0x60000000, 0xF01FFFFF⟩,
    ⟨.rrawb, 0x70000000, 0xF01FE000⟩ ]

/-- `w` has the pattern of the row `r`. -/
def OpRow.accepts (r : OpRow) (w : Word) : Bool := w &&& r.mask == r.pattern

end Sys2Proof
end

