-- ==== Sys2Proof/Decode.lean ====
section
/-! DEFINITION. The decoder, total on all words and rejecting by name, and after it the encoder (spec/30_encoding.md R70 to R80). -/

namespace Sys2Proof

/-- Why a word is invalid (spec/30_encoding.md R74). -/
inductive InvalidWord where
  /-- `OP` is 0x0 or 0x8 to 0xF -/
  | reservedOpcode (op : BitVec 4)
  /-- a must-be-zero field of the opcode is not zero -/
  | notWellFormed (op : Opcode)
  deriving DecidableEq, Repr

/-- The fields of a word (spec/30_encoding.md R70). -/
def CommandWord.ofWord (w : Word) : CommandWord :=
  { op := w.extractLsb' 28 4, dev := w.extractLsb' 21 7, reg := w.extractLsb' 13 8, imm := w.extractLsb' 0 13 }

/-- The word of the four fields: `OP ++ DEV ++ REG ++ IMM` (spec/30_encoding.md R70, R77). -/
def CommandWord.toWord (c : CommandWord) : Word := c.op ++ c.dev ++ c.reg ++ c.imm

/-- `VAL = IMM[7:0]` (spec/30_encoding.md R71). -/
def CommandWord.val (c : CommandWord) : Byte := c.imm.extractLsb' 0 8

/-- The number of an opcode (spec/30_encoding.md R72). -/
def Opcode.bits : Opcode → BitVec 4
  | .wreg  => 0x1#4
  | .wbuf  => 0x2#4
  | .rreg  => 0x3#4
  | .rbuf  => 0x4#4
  | .wraw  => 0x5#4
  | .rraw  => 0x6#4
  | .rrawb => 0x7#4

/-- The opcode of a number, none for the reserved 0x0 and 0x8 to 0xF (spec/30_encoding.md R72, R74). -/
def Opcode.ofBits (b : BitVec 4) : Option Opcode :=
  if b = 0x1#4 then some .wreg
  else if b = 0x2#4 then some .wbuf
  else if b = 0x3#4 then some .rreg
  else if b = 0x4#4 then some .rbuf
  else if b = 0x5#4 then some .wraw
  else if b = 0x6#4 then some .rraw
  else if b = 0x7#4 then some .rrawb
  else none

/-- The command that the fields name under an opcode (spec/30_encoding.md R71, R72). -/
def CommandWord.instr (c : CommandWord) : Opcode → Instr
  | .wreg  => .wreg c.dev c.reg c.val
  | .wbuf  => .wbuf c.dev c.imm
  | .rreg  => .rreg c.dev c.reg
  | .rbuf  => .rbuf c.dev c.reg c.imm
  | .wraw  => .wraw c.dev c.val
  | .rraw  => .rraw c.dev
  | .rrawb => .rrawb c.dev c.imm

/-- `Decode(w)` (spec/30_encoding.md R80): the command, or why the word is invalid (R74). -/
def decode (w : Word) : Except InvalidWord Instr :=
  let c := CommandWord.ofWord w
  match Opcode.ofBits c.op with
  | none    => .error (.reservedOpcode c.op)
  | some op => if c.wellFormed op then .ok (c.instr op) else .error (.notWellFormed op)

/-- The four fields of a command's word (spec/30_encoding.md R72, R73, R77): unused fields are zero. -/
def Instr.fields : Instr → CommandWord
  | .wreg dev reg val => ⟨Opcode.wreg.bits, dev, reg, 0#5 ++ val⟩
  | .wbuf dev n       => ⟨Opcode.wbuf.bits, dev, 0#8, n⟩
  | .rreg dev reg     => ⟨Opcode.rreg.bits, dev, reg, 0#13⟩
  | .rbuf dev reg n   => ⟨Opcode.rbuf.bits, dev, reg, n⟩
  | .wraw dev val     => ⟨Opcode.wraw.bits, dev, 0#8, 0#5 ++ val⟩
  | .rraw dev         => ⟨Opcode.rraw.bits, dev, 0#8, 0#13⟩
  | .rrawb dev n      => ⟨Opcode.rrawb.bits, dev, 0#8, n⟩

/-- The word of a command (spec/30_encoding.md R77). -/
def encode (i : Instr) : Word := i.fields.toWord

/-- The command read from a table word: `nbits` bits of `w`, bit 0 the least significant, every bit
above them zero. A command is one 32-bit word written whole, so no byte order arises
(spec/20_memory.md R48 (c)); log entry 18. -/
def decodeTableWord (nbits w : Nat) : Option Instr :=
  match decode (BitVec.ofNat 32 (w % 2 ^ nbits)) with
  | .ok i    => some i
  | .error _ => none

/-! Every constructor's decoding, on words written out from the layouts of spec/30_encoding.md R77. -/

theorem decode_wreg_word : decode (0x1#4 ++ 0b0111100#7 ++ 0x10#8 ++ 0b00000#5 ++ 0xA5#8) = .ok (.wreg 0x3C 0x10 0xA5) := by decide
theorem decode_wbuf_word : decode (0x2#4 ++ 0b0111100#7 ++ 0x00#8 ++ 129#13) = .ok (.wbuf 0x3C 129) := by decide
theorem decode_rreg_word : decode (0x3#4 ++ 0b1101000#7 ++ 0x75#8 ++ 0#13) = .ok (.rreg 0x68 0x75) := by decide
theorem decode_rbuf_word : decode (0x4#4 ++ 0b1101000#7 ++ 0x3B#8 ++ 14#13) = .ok (.rbuf 0x68 0x3B 14) := by decide
theorem decode_wraw_word : decode (0x5#4 ++ 0b0111100#7 ++ 0x00#8 ++ 0b00000#5 ++ 0xAF#8) = .ok (.wraw 0x3C 0xAF) := by decide
theorem decode_rraw_word : decode (0x6#4 ++ 0b1010000#7 ++ 0x00#8 ++ 0#13) = .ok (.rraw 0x50) := by decide
theorem decode_rrawb_word : decode (0x7#4 ++ 0b1010000#7 ++ 0x00#8 ++ 16#13) = .ok (.rrawb 0x50 16) := by decide

end Sys2Proof
end

