-- ==== Sys2Proof/Config.lean ====
section
/-! DEFINITION. The line-unit interface as data (spec/10_state.md R25, spec/20_memory.md R44), and the free values of the model:
the environment's answers and the contents of buffer bytes that nothing has written. -/

namespace Sys2Proof

/-- The five flags one `LRead(SR1)` returns (spec/10_state.md R17, R25). -/
structure Sr1 where
  sb   : Bool
  addr : Bool
  btc  : Bool
  rxne : Bool
  af   : Bool
  deriving DecidableEq, Repr, Inhabited

/-- What the environment would answer to the next read of each line-unit register. One read takes one
answer and uses the part that belongs to the register read, so any value of every register can be
answered to any read (spec/20_memory.md R46). -/
structure LineAnswer where
  sr1  : Sr1
  busy : Bool
  dr   : Byte
  deriving DecidableEq, Repr, Inhabited

/-- The events of the access history, one per kind of line access (spec/20_memory.md R44). -/
inductive LineEvent where
  /-- `LWrite(CR.START, 1)` -/
  | wStart
  /-- `LWrite(CR.STOP, 1)` -/
  | wStop
  /-- `LWrite(CR.ACK, b)` -/
  | wAck (b : Bool)
  /-- `LWrite(DR, v)` -/
  | wDr (v : Byte)
  /-- `LWrite(SR1.AF, 0)` -/
  | wAfClr
  /-- `LRead(SR1)` with the flags answered -/
  | rSr1 (f : Sr1)
  /-- `LRead(SR2)` with the flag answered -/
  | rSr2 (busy : Bool)
  /-- `LRead(DR)` with the byte answered -/
  | rDr (v : Byte)
  deriving DecidableEq, Repr

/-- FREE VALUE (log entry 1). What the environment answers to a read made after `history` in the
`epoch`-th life since reset, when State lists no pending answer (spec/20_memory.md R46). -/
opaque Config.lineOracle : (epoch : Nat) → (history : List LineEvent) → LineAnswer

/-- FREE VALUE (log entry 2). The contents of `TXBUF[i]` after the `epoch`-th reset while nothing has
written it (spec/93_implementation_defined.md U4). -/
opaque Config.txInit : (epoch : Nat) → (i : Nat) → Byte

/-- FREE VALUE (log entry 2). The contents of `RXBUF[i]` after the `epoch`-th reset while nothing has
written it (spec/93_implementation_defined.md U4). -/
opaque Config.rxInit : (epoch : Nat) → (i : Nat) → Byte

end Sys2Proof
end

