-- ==== Sys2Proof/Machine/State.lean ====
section
/-! DEFINITION. The state of the machine, its value after reset, and the reasons a step can stop. -/

namespace Sys2Proof.Machine

open Sys2Proof

/-- The phase of the engine, in the place of a program counter (spec/10_state.md R14). -/
inductive Phase where
  | idle | startIssued | addressSent | dataPhase | stopIssued
  deriving DecidableEq, Repr

/-- `TransactionResult` (spec/60_exceptions.md R130). -/
inductive Result where
  | ok | timeout | nack | error
  deriving DecidableEq, Repr

/-- The fields of `RESULT`; its other bits read 0 (spec/10_state.md R24). -/
structure ResultReg where
  done  : Bool
  count : Len
  data  : Byte
  code  : Result
  deriving DecidableEq, Repr

/-- The fields of `CTRL`; bits 31:2 read 0 (spec/10_state.md R23). -/
structure Ctrl where
  en   : Bool
  fast : Bool
  deriving DecidableEq, Repr

/-- The written bytes of a buffer by index, indexes strictly rising; a byte that is not listed has
never been written (log entry 2). -/
abbrev Memory := List Host.Cell

/-- What the outside world does to the block (spec/20_memory.md R40, spec/70_reset_and_hazards.md R160).
Addresses have no fixed width (log entry 25). -/
inductive Input where
  /-- `MemRead(addr, n)` -/
  | memRead (addr n : Nat)
  /-- `MemWrite(addr, n, v)`; `v` in the low `8 * n` bits (log entry 14) -/
  | memWrite (addr n : Nat) (v : Word)
  /-- the reset input asserted and released -/
  | reset
  deriving DecidableEq, Repr

/-- The state. The first group is the block's (spec/10_state.md R10); the second is the model's own:
records of what was seen from outside, and the host and the environment as lists of what they do next. -/
structure State where
  /-- `CMD`, and with it the command latch (R11, R21) -/
  cmd     : Word
  /-- `RESULT` (R24) -/
  result  : ResultReg
  /-- `BUDGET` (R22) -/
  budget  : Word
  /-- `CTRL` (R23) -/
  ctrl    : Ctrl
  /-- `TXBUF` (R12) -/
  txbuf   : Memory
  /-- `RXBUF` (R13) -/
  rxbuf   : Memory
  /-- `PHASE` (R14) -/
  phase   : Phase
  /-- `BYTEIDX` (R15) -/
  byteidx : Len
  /-- `POLLCNT` (R15) -/
  pollcnt : Word
  /-- `FAIL` (R15) -/
  fail    : Result
  /-- `ACKEN` (R16) -/
  acken   : Bool
  /-- the access history `H`, oldest event first (spec/20_memory.md R47) -/
  history : List LineEvent
  /-- the values `dbg_phase` has shown since reset, oldest first, each change once (spec/60_exceptions.md R145; log entry 8) -/
  dbgLog  : List (BitVec 3)
  /-- the parameter `BASE` (spec/20_memory.md R41; log entry 3), of no fixed width (log entry 25) -/
  base    : Nat
  /-- what the last `MemRead` returned (log entry 6) -/
  hostRead : Option Word
  /-- what the host and the reset input do next, in order (log entry 5) -/
  inputs  : List Input
  /-- what the environment answers next, in order; after the last, `Config.lineOracle` (log entry 1) -/
  answers : List LineAnswer
  /-- how many resets there have been: the counter of the free values (log entry 11) -/
  epoch   : Nat
  deriving DecidableEq, Repr

/-- After reset (spec/10_state.md R28, spec/70_reset_and_hazards.md R160). No buffer byte is listed:
every one is unspecified. The model's own fields start empty (log entries 1, 3, 5, 6, 8, 11). -/
def State.reset : State :=
  { cmd := 0, result := ⟨false, 0, 0, .ok⟩, budget := 0, ctrl := ⟨false, false⟩,
    txbuf := [], rxbuf := [],
    phase := .idle, byteidx := 0, pollcnt := 0, fail := .ok, acken := false,
    history := [], dbgLog := [0],
    base := 0, hostRead := none, inputs := [], answers := [], epoch := 0 }

/-- The machine has no fault: the block has no trap, and every failure is a `RESULT` code
(spec/60_exceptions.md R130, R136; log entry 19). -/
inductive Fault where
  deriving DecidableEq, Repr

/-- Why a step answers no next state. -/
inductive Refusal where
  /-- raised by no arm of `exec`: every command has its meaning; safe -/
  | notModelled (mnemonic : String)
  /-- raised by a host access of a width, alignment or address that spec/93_implementation_defined.md U6
  leaves undefined: "the model rejects the access; no state changes"; safe -/
  | undefinedHostAccess (addr n : Nat)
  deriving DecidableEq, Repr

end Sys2Proof.Machine
end

