-- ==== Sys2Proof/Machine/Flags.lean ====
section
/-! DEFINITION. The poll predicates over the status flags, the result latch and the encodings of `RESULT`, `CTRL` and
`dbg_phase`. -/

namespace Sys2Proof.Machine

open Sys2Proof

/-! The five poll predicates (spec/60_exceptions.md R131). -/

/-- `SB = 1`, awaited by `start` (spec/40_primitives.md R91). -/
def startAcked (f : Sr1) : Bool := f.sb

/-- `ADDR = 1 or AF = 1`, awaited by `sendAddress` (spec/40_primitives.md R93). -/
def addressDone (f : Sr1) : Bool := f.addr || f.af

/-- `BTC = 1`, awaited by `sendByte` (spec/40_primitives.md R94). -/
def byteDone (f : Sr1) : Bool := f.btc

/-- `RXNE = 1`, awaited by `receiveByte` (spec/40_primitives.md R95). -/
def byteReceived (f : Sr1) : Bool := f.rxne

/-- `BUSY = 0`, awaited by `stop` (spec/40_primitives.md R92). -/
def busIdle (busy : Bool) : Bool := !busy

/-- `CODE` of a result (spec/60_exceptions.md R130). -/
def Result.code : Result → BitVec 2
  | .ok      => 0
  | .timeout => 1
  | .nack    => 2
  | .error   => 3

/-- The code of a command: the first failure wins, the final stop's failure counts last
(spec/40_primitives.md R101). -/
def firstFailure (r stop : Result) : Result := if r = .ok then stop else r

/-- What `Finish(r, s, data, count)` writes into `RESULT` (spec/40_primitives.md R101). -/
def latched (r stop : Result) (data : Byte) (count : Len) : ResultReg :=
  if firstFailure r stop = .ok then ⟨true, count, data, .ok⟩
  else ⟨true, 0, 0, firstFailure r stop⟩

/-- `RESULT` as the host reads it: `DONE` 31, `COUNT` 28:16, `DATA` 15:8, `CODE` 1:0, the rest 0
(spec/10_state.md R24). -/
def ResultReg.word (r : ResultReg) : Word :=
  BitVec.ofBool r.done ++ 0#2 ++ r.count ++ r.data ++ 0#6 ++ r.code.code

/-- `CTRL` as the host reads it: `FAST` bit 1, `EN` bit 0, the rest 0 (spec/10_state.md R23). -/
def Ctrl.word (c : Ctrl) : Word := 0#30 ++ BitVec.ofBool c.fast ++ BitVec.ofBool c.en

/-- `CTRL` after the host writes `v`: only `EN` and `FAST` exist (spec/10_state.md R23). -/
def Ctrl.ofWord (v : Word) : Ctrl := { en := v.getLsbD 0, fast := v.getLsbD 1 }

/-- The 3-bit value `dbg_phase` shows (spec/60_exceptions.md R145). -/
def Phase.dbg : Phase → BitVec 3
  | .idle        => 0
  | .startIssued => 1
  | .addressSent => 2
  | .dataPhase   => 3
  | .stopIssued  => 4

/-- The output `dbg_phase` (spec/60_exceptions.md R145). -/
def State.dbgPhase (s : State) : BitVec 3 := s.phase.dbg

/-- The output `CTRL.FAST` to the line unit (spec/10_state.md R23). -/
def State.fastOut (s : State) : Bool := s.ctrl.fast

end Sys2Proof.Machine
end

