-- ==== Sys2Proof/Machine/Memory.lean ====
section
/-! DEFINITION. The buffers: lists of written bytes in one canonical form (log entry 2). -/

namespace Sys2Proof.Machine

open Sys2Proof

/-- The byte written at index `i`, none when nothing has written it. -/
def Memory.lookup : Memory → Nat → Option Byte
  | [], _ => none
  | c :: m, i => if c.1 = i then some c.2 else Memory.lookup m i

/-- The buffer after `v` is written at index `i`, indexes still strictly rising. -/
def Memory.store : Memory → Nat → Byte → Memory
  | [], i, v => [(i, v)]
  | c :: m, i, v =>
    if i < c.1 then (i, v) :: c :: m
    else if c.1 = i then (i, v) :: m
    else c :: Memory.store m i v

/-- Every listed index is at least `lo`, indexes rise strictly, and none is beyond the buffer. -/
def Memory.risingFrom : Nat → Memory → Bool
  | _, [] => true
  | lo, c :: m => decide (lo ≤ c.1) && decide (c.1 < bufDepth) && Memory.risingFrom (c.1 + 1) m

/-- The canonical form: indexes strictly rising and inside the buffer. -/
def Memory.wf (m : Memory) : Bool := Memory.risingFrom 0 m

/-- The contents of `TXBUF[i]`: the byte written, or the free value of a byte never written
(spec/10_state.md R12, spec/93_implementation_defined.md U4). -/
def State.txByte (s : State) (i : Nat) : Byte :=
  (s.txbuf.lookup i).getD (Config.txInit s.epoch i)

/-- The contents of `RXBUF[i]`: the byte written, or the free value of a byte never written
(spec/10_state.md R13, spec/93_implementation_defined.md U4). -/
def State.rxByte (s : State) (i : Nat) : Byte :=
  (s.rxbuf.lookup i).getD (Config.rxInit s.epoch i)

end Sys2Proof.Machine
end

