-- ==== Sys2Proof/Machine/Operands.lean ====
section
/-! DEFINITION. The operand forms: the address byte, the data bytes a write pass sends, and what a read pass does with a
received byte. -/

namespace Sys2Proof.Machine

open Sys2Proof

/-- The direction of a transfer; the bit is 0 for write and 1 for read (spec/30_encoding.md R75). -/
inductive Direction where
  | write | read
  deriving DecidableEq, Repr

/-- The direction bit `dir` of the address byte (spec/30_encoding.md R75). -/
def Direction.bit : Direction → BitVec 1
  | .write => 0
  | .read  => 1

/-- `AddrByte(addr, dir) = (zext_8(addr) << 1) | zext_8(dir)` (spec/30_encoding.md R75). -/
def addrByte (addr : DevAddr) (dir : Direction) : Byte :=
  (addr.setWidth 8 <<< 1) ||| dir.bit.setWidth 8

/-- The data bytes of `WREG`: `reg`, then `val` (spec/41_write_commands.md R110). -/
def wregByte (reg val : Byte) (i : Nat) (_ : State) : Byte := if i = 0 then reg else val

/-- The one data byte of `WRAW`, `RREG` and `RBUF`'s write pass (spec/41_write_commands.md R112, spec/42_read_commands.md R120). -/
def oneByte (v : Byte) (_ : Nat) (_ : State) : Byte := v

/-- The data bytes of `WBUF`: `TXBUF[i]`, read when the byte is about to be sent (spec/40_primitives.md R98). -/
def txBufByte (i : Nat) (s : State) : Byte := s.txByte i

/-- `put(i, v)` of `RBUF` and `RRAWB`: `RXBUF[i] <- v` (spec/42_read_commands.md R121, R123). -/
def putRxbuf (i : Nat) (v : Byte) (s : State) : State := { s with rxbuf := s.rxbuf.store i v }

/-- `put(i, v)` of `RREG` and `RRAW`: `d <- v`, a local variable, no state (spec/42_read_commands.md R120, R122; log entry 22). -/
def putLocal (_ : Nat) (_ : Byte) (s : State) : State := s

/-- `receiveByte`'s operand in a read pass of `n` bytes: ACK for every byte except the last
(spec/40_primitives.md R99). -/
def ackFor (n i : Nat) : Bool := decide (i < n - 1)

end Sys2Proof.Machine
end

