-- ==== Sys2Proof/Machine/Ops.lean ====
section
/-! DEFINITION. The shared operations: register writes, the eight line accesses, the bounded poll, the five primitives, the write and
read passes, admission and the result latch. What other machines do by taking an exception, this block does by the
failure path of the passes: abort, `stop`, `finish` (spec/60_exceptions.md R136). -/

namespace Sys2Proof.Machine

open Sys2Proof

/-! Register writes. -/

/-- `CMD <- w`, which loads the command latch (spec/10_state.md R11, R21). -/
def State.setCmd (s : State) (w : Word) : State := { s with cmd := w }
/-- `RESULT <- r` (spec/10_state.md R24). -/
def State.setResult (s : State) (r : ResultReg) : State := { s with result := r }
/-- `BUDGET <- v` (spec/10_state.md R22). -/
def State.setBudget (s : State) (v : Word) : State := { s with budget := v }
/-- `CTRL <- c` (spec/10_state.md R23). -/
def State.setCtrl (s : State) (c : Ctrl) : State := { s with ctrl := c }
/-- `TXBUF[i] <- v`, made by the host only (spec/10_state.md R12). -/
def State.setTxByte (s : State) (i : Nat) (v : Byte) : State := { s with txbuf := s.txbuf.store i v }
/-- `BYTEIDX <- v` (spec/10_state.md R15). -/
def State.setByteidx (s : State) (v : Len) : State := { s with byteidx := v }
/-- `POLLCNT <- v` (spec/10_state.md R15). -/
def State.setPollcnt (s : State) (v : Word) : State := { s with pollcnt := v }
/-- `FAIL <- r` (spec/10_state.md R15). -/
def State.setFail (s : State) (r : Result) : State := { s with fail := r }
/-- `ACKEN <- b` (spec/10_state.md R16). -/
def State.setAcken (s : State) (b : Bool) : State := { s with acken := b }
/-- `PHASE <- p`; the port `dbg_phase` follows, and a change of it is recorded (spec/10_state.md R14,
spec/60_exceptions.md R145). -/
def State.setPhase (s : State) (p : Phase) : State :=
  { s with phase := p, dbgLog := if s.phase = p then s.dbgLog else s.dbgLog ++ [p.dbg] }
/-- One event appended to `H` (spec/20_memory.md R47). -/
def State.record (s : State) (e : LineEvent) : State := { s with history := s.history ++ [e] }
/-- What a host read returns (log entry 6). -/
def State.setHostRead (s : State) (v : Word) : State := { s with hostRead := some v }
/-- The pending inputs (log entry 5). -/
def State.setInputs (s : State) (is : List Input) : State := { s with inputs := is }

/-- `FAIL` keeps the first failure of the command (spec/10_state.md R15, spec/60_exceptions.md R136; log entry 9). -/
def State.noteFailure (s : State) (r : Result) : State := s.setFail (firstFailure s.fail r)

/-! The eight line accesses (spec/20_memory.md R44). -/

/-- The environment's answer to the next read: the next pending one, or a free value
(spec/20_memory.md R46; log entry 1). -/
def State.nextAnswer (s : State) : LineAnswer :=
  match s.answers with
  | a :: _ => a
  | []     => Config.lineOracle s.epoch s.history

/-- A read was answered: its answer is no longer pending. -/
def State.dropAnswer (s : State) : State := { s with answers := s.answers.tail }

/-- `LRead(SR1)` -/
def lreadSr1 (s : State) : Sr1 × State :=
  (s.nextAnswer.sr1, s.dropAnswer.record (.rSr1 s.nextAnswer.sr1))
/-- `LRead(SR2)`; it also acknowledges `ADDR`, which is the line unit's affair (spec/20_memory.md R45). -/
def lreadSr2 (s : State) : Bool × State :=
  (s.nextAnswer.busy, s.dropAnswer.record (.rSr2 s.nextAnswer.busy))
/-- `LRead(DR)`; it also takes the received byte, which is the line unit's affair (spec/20_memory.md R45). -/
def lreadDr (s : State) : Byte × State :=
  (s.nextAnswer.dr, s.dropAnswer.record (.rDr s.nextAnswer.dr))
/-- `LWrite(CR.START, 1)` -/
def lwriteStart (s : State) : State := s.record .wStart
/-- `LWrite(CR.STOP, 1)` -/
def lwriteStop (s : State) : State := s.record .wStop
/-- `LWrite(CR.ACK, b)` -/
def lwriteAck (b : Bool) (s : State) : State := s.record (.wAck b)
/-- `LWrite(DR, v)` -/
def lwriteDr (v : Byte) (s : State) : State := s.record (.wDr v)
/-- `LWrite(SR1.AF, 0)` -/
def lwriteAfClr (s : State) : State := s.record .wAfClr

/-! The bounded poll (spec/40_primitives.md R90). -/

/-- The loop of `Poll`, `left` being `BUDGET - POLLCNT`: the samples still allowed. -/
def pollLoop {α : Type} (lread : State → α × State) (pred : α → Bool) : (left : Nat) → State → Result × State
  | 0, s => (.timeout, s)
  | left + 1, s =>
    let p := lread s
    let s' := p.2.setPollcnt (p.2.pollcnt + 1)
    if pred p.1 then (.ok, s') else pollLoop lread pred left s'

/-- `Poll(r, pred)`: `POLLCNT <- 0`, then at most `BUDGET` samples of `r`. -/
def poll {α : Type} (lread : State → α × State) (pred : α → Bool) (s : State) : Result × State :=
  pollLoop lread pred s.budget.toNat (s.setPollcnt 0)

/-! The primitives (spec/40_primitives.md R91 to R95). -/

/-- `if r = Ok: r <- …`, the abort on the first failure (spec/60_exceptions.md R135 (c)). -/
def onOk (p : Result × State) (f : State → Result × State) : Result × State :=
  if p.1 = .ok then f p.2 else p

/-- `start()` (spec/40_primitives.md R91). -/
def start (s : State) : Result × State :=
  poll lreadSr1 startAcked ((lwriteStart s).setPhase .startIssued)

/-- `stop()` (spec/40_primitives.md R92): `PHASE` is `Idle` at its end, whatever the poll's result. -/
def stop (s : State) : Result × State :=
  let p := poll lreadSr2 busIdle ((lwriteStop s).setPhase .stopIssued)
  (p.1, p.2.setPhase .idle)

/-- The acknowledge-failure check of `sendAddress` and `sendByte`: a fresh `LRead(SR1)`, and `AF` cleared
when it is found set (spec/40_primitives.md R93, R94). -/
def ackCheck (s : State) : Result × State :=
  let p := lreadSr1 s
  if p.1.af then (.nack, lwriteAfClr p.2) else (.ok, p.2)

/-- `sendAddress(addr, dir)` (spec/40_primitives.md R93). -/
def sendAddress (addr : DevAddr) (dir : Direction) (s : State) : Result × State :=
  onOk (poll lreadSr1 addressDone (lwriteDr (addrByte addr dir) s)) fun s =>
    onOk (ackCheck (lreadSr2 s).2) fun s => (.ok, s.setPhase .addressSent)

/-- `sendByte(data)` (spec/40_primitives.md R94). -/
def sendByte (data : Byte) (s : State) : Result × State :=
  onOk (poll lreadSr1 byteDone (lwriteDr data (s.setPhase .dataPhase))) ackCheck

/-- `receiveByte(ack)` (spec/40_primitives.md R95): the byte on `Ok(v)`, or the failure. -/
def receiveByte (ack : Bool) (s : State) : Except Result Byte × State :=
  let p := poll lreadSr1 byteReceived ((lwriteAck ack (s.setPhase .dataPhase)).setAcken ack)
  if p.1 = .ok then (.ok (lreadDr p.2).1, (lreadDr p.2).2) else (.error p.1, p.2)

/-! The passes (spec/40_primitives.md R98, R99). -/

/-- The loop of the write pass, `left` being `k - BYTEIDX`. -/
def sendBytes (b : Nat → State → Byte) : (left : Nat) → State → Result × State
  | 0, s => (.ok, s)
  | left + 1, s =>
    onOk (sendByte (b s.byteidx.toNat s) s) fun s => sendBytes b left (s.setByteidx (s.byteidx + 1))

/-- How a pass ended: the first failure before the stop, the stop's own result, and the byte received
last (0 when none was; log entry 22). -/
structure PassEnd where
  r    : Result
  stop : Result
  byte : Byte
  s    : State
  deriving DecidableEq, Repr

/-- Every pass ends here: `FAIL` keeps the failure and the stop is issued, whatever failed
(spec/60_exceptions.md R136, R137). -/
def endPass (r : Result) (byte : Byte) (s : State) : PassEnd :=
  let p := stop (s.noteFailure r)
  ⟨r, p.1, byte, p.2.noteFailure p.1⟩

/-- The address phase of both passes: `start`, `sendAddress`, `BYTEIDX <- 0`. -/
def openPass (dev : DevAddr) (dir : Direction) (s : State) : Result × State :=
  let p := onOk (start s) (sendAddress dev dir)
  (p.1, p.2.setByteidx 0)

/-- `WritePass(dev, k, b)` (spec/40_primitives.md R98). -/
def writePass (dev : DevAddr) (k : Nat) (b : Nat → State → Byte) (s : State) : PassEnd :=
  let p := onOk (openPass dev .write s) (sendBytes b k)
  endPass p.1 0 p.2

/-- The loop of the read pass of `n` bytes, `left` being `n - BYTEIDX`, `d` the byte received last. -/
def receiveBytes (put : Nat → Byte → State → State) (n : Nat) : (left : Nat) → Byte → State → Result × Byte × State
  | 0, d, s => (.ok, d, s)
  | left + 1, d, s =>
    match receiveByte (ackFor n s.byteidx.toNat) s with
    | (.ok v, s)    => receiveBytes put n left v ((put s.byteidx.toNat v s).setByteidx (s.byteidx + 1))
    | (.error r, s) => (r, d, s)

/-- `ReadPass(dev, n, put)` (spec/40_primitives.md R99). -/
def readPass (dev : DevAddr) (n : Nat) (put : Nat → Byte → State → State) (s : State) : PassEnd :=
  let p := openPass dev .read s
  if p.1 = .ok then
    let q := receiveBytes put n n 0 p.2
    endPass q.1 q.2.1 q.2.2
  else endPass p.1 0 p.2

/-! The frame of every command (spec/40_primitives.md R100, R101). -/

/-- `Finish(r, s, data, count)` (spec/40_primitives.md R101). -/
def finish (r stop : Result) (data : Byte) (count : Len) (s : State) : State :=
  s.setResult (latched r stop data count)

/-- The outcome `Error` of admission: `Finish(Error, Ok, 0, 0)` and nothing else (spec/40_primitives.md R100). -/
def reject (s : State) : State := finish .error .ok 0 0 s

/-- Admission of a decoded command, then its body: `Error` while `CTRL.EN = 0` or when the length is zero
(spec/40_primitives.md R100). `FAIL` is `Ok` when the body begins (log entry 9). -/
def command (lengthOk : Bool) (body : State → State) (s : State) : Host.Outcome State Fault Refusal :=
  if s.ctrl.en && lengthOk then .next (body (s.setFail .ok)) else .next (reject s)

end Sys2Proof.Machine
end

