-- ==== Sys2Proof/Machine/ReadCommands.lean ====
section
/-! DEFINITION. The read commands (spec/42_read_commands.md). -/

namespace Sys2Proof.Machine

open Sys2Proof

/-- Where a read command delivers what it received: one byte in `RESULT.DATA`, or bytes in `RXBUF`
(spec/42_read_commands.md R120 to R123). -/
inductive Delivery where
  | data | rxbuf
  deriving DecidableEq, Repr

/-- `put` of a delivery. -/
def Delivery.put : Delivery → Nat → Byte → State → State
  | .data  => putLocal
  | .rxbuf => putRxbuf

/-- `DATA` of a delivery, `d` being the byte received last. -/
def Delivery.dataOf : Delivery → Byte → Byte
  | .data, d  => d
  | .rxbuf, _ => 0

/-- One read pass of `n` bytes, then the result latch. -/
def readBody (dev : DevAddr) (n : Len) (dest : Delivery) (s : State) : State :=
  let p := readPass dev n.toNat dest.put s
  finish p.r p.stop (dest.dataOf p.byte) n p.s

/-- The register forms: a write pass of `reg`; if it and its stop are `Ok`, the read pass, otherwise the
latch, without a second stop (spec/42_read_commands.md R120, R121). -/
def registerReadBody (dev : DevAddr) (reg : Byte) (n : Len) (dest : Delivery) (s : State) : State :=
  let p := writePass dev 1 (oneByte reg) s
  if p.r = .ok ∧ p.stop = .ok then readBody dev n dest p.s else finish p.r p.stop 0 0 p.s

/-- `RREG dev, reg` (spec/42_read_commands.md R120). -/
def execRreg (dev : DevAddr) (reg : Byte) (s : State) : Host.Outcome State Fault Refusal :=
  command true (registerReadBody dev reg 1 .data) s

/-- `RBUF dev, reg, n` (spec/42_read_commands.md R121). -/
def execRbuf (dev : DevAddr) (reg : Byte) (n : Len) (s : State) : Host.Outcome State Fault Refusal :=
  command (n != 0) (registerReadBody dev reg n .rxbuf) s

/-- `RRAW dev` (spec/42_read_commands.md R122). -/
def execRraw (dev : DevAddr) (s : State) : Host.Outcome State Fault Refusal :=
  command true (readBody dev 1 .data) s

/-- `RRAWB dev, n` (spec/42_read_commands.md R123). -/
def execRrawb (dev : DevAddr) (n : Len) (s : State) : Host.Outcome State Fault Refusal :=
  command (n != 0) (readBody dev n .rxbuf) s

end Sys2Proof.Machine
end

