-- ==== Sys2Proof/Machine/WriteCommands.lean ====
section
/-! DEFINITION. The write commands (spec/41_write_commands.md). -/

namespace Sys2Proof.Machine

open Sys2Proof

/-- One write pass, then the result latch. -/
def writeBody (dev : DevAddr) (k : Nat) (b : Nat → State → Byte) (count : Len) (s : State) : State :=
  let p := writePass dev k b s
  finish p.r p.stop 0 count p.s

/-- `WREG dev, reg, val` (spec/41_write_commands.md R110). -/
def execWreg (dev : DevAddr) (reg val : Byte) (s : State) : Host.Outcome State Fault Refusal :=
  command true (writeBody dev 2 (wregByte reg val) 2) s

/-- `WBUF dev, n` (spec/41_write_commands.md R111, R113). -/
def execWbuf (dev : DevAddr) (n : Len) (s : State) : Host.Outcome State Fault Refusal :=
  command (n != 0) (writeBody dev n.toNat txBufByte n) s

/-- `WRAW dev, val` (spec/41_write_commands.md R112). -/
def execWraw (dev : DevAddr) (val : Byte) (s : State) : Host.Outcome State Fault Refusal :=
  command true (writeBody dev 1 (oneByte val) 1) s

end Sys2Proof.Machine
end

