-- ==== Sys2Proof/Machine/Dispatch.lean ====
section
/-! DEFINITION. The meaning of each command: one arm per constructor of `Instr`. -/

namespace Sys2Proof.Machine

open Sys2Proof

def exec (i : Instr) (s : State) : Host.Outcome State Fault Refusal :=
  match i with
  | .wreg dev reg val => Sys2Proof.Machine.execWreg dev reg val s
  | .wbuf dev n => Sys2Proof.Machine.execWbuf dev n s
  | .rreg dev reg => Sys2Proof.Machine.execRreg dev reg s
  | .rbuf dev reg n => Sys2Proof.Machine.execRbuf dev reg n s
  | .wraw dev val => Sys2Proof.Machine.execWraw dev val s
  | .rraw dev => Sys2Proof.Machine.execRraw dev s
  | .rrawb dev n => Sys2Proof.Machine.execRrawb dev n s

end Sys2Proof.Machine
end

