-- ==== Sys2Proof/Machine/HostPort.lean ====
section
/-! DEFINITION. The host side: the register map, reads, writes, the `CMD` write that runs a command, and the reset input
(spec/20_memory.md R40 to R42, spec/70_reset_and_hazards.md R160). -/

namespace Sys2Proof.Machine

open Sys2Proof

/-- What an access reaches (spec/20_memory.md R41). -/
inductive HostTarget where
  | cmd | result | budget | ctrl
  | txbuf (i : Nat)
  | rxbuf (i : Nat)
  deriving DecidableEq, Repr

/-- The map by offset from `BASE` and access width: words at the four registers, bytes in the two
windows, nothing else (spec/20_memory.md R40, R41, R49; log entry 15). -/
def hostMap (offset n : Nat) : Option HostTarget :=
  if n = 4 then
    if offset = 0x0 then some .cmd
    else if offset = 0x4 then some .result
    else if offset = 0x8 then some .budget
    else if offset = 0xC then some .ctrl
    else none
  else if n = 1 then
    if 0x2000 ≤ offset ∧ offset < 0x4000 then some (.txbuf (offset - 0x2000))
    else if 0x4000 ≤ offset ∧ offset < 0x6000 then some (.rxbuf (offset - 0x4000))
    else none
  else none

/-- What the address `addr` and the width `n` reach in a block at `base`. DESIGN CHOICE (log entry 25):
addresses and `BASE` have no width in the spec (spec/00_scope.md R5, spec/20_memory.md R40, R41), and are
unbounded here, so that `BASE + offset` never wraps; an address below `BASE` reaches nothing (log entry 7). -/
def hostTarget (base addr n : Nat) : Option HostTarget :=
  if base ≤ addr then hostMap (addr - base) n else none

/-- The value a read returns; no read has a side effect (spec/20_memory.md R41). -/
def readTarget (s : State) : HostTarget → Word
  | .cmd     => s.cmd
  | .result  => s.result.word
  | .budget  => s.budget
  | .ctrl    => s.ctrl.word
  | .txbuf i => (s.txByte i).setWidth 32
  | .rxbuf i => (s.rxByte i).setWidth 32

/-- `Exec(w)` (spec/40_primitives.md R100): the latch is loaded, the word decoded, the command run to
completion, or `Error` for an invalid word. -/
def issue (w : Word) (s : State) : Host.Outcome State Fault Refusal :=
  match decode w with
  | .ok i    => exec i (s.setCmd w)
  | .error _ => .next (reject (s.setCmd w))

/-- The effect of a write; writes to `RESULT` and `RXBUF` change nothing (spec/20_memory.md R41). -/
def writeTarget (s : State) (v : Word) : HostTarget → Host.Outcome State Fault Refusal
  | .cmd     => issue v s
  | .result  => .next s
  | .budget  => .next (s.setBudget v)
  | .ctrl    => .next (s.setCtrl (Ctrl.ofWord v))
  | .txbuf i => .next (s.setTxByte i (v.setWidth 8))
  | .rxbuf _ => .next s

/-- `MemRead(addr, n)` (spec/20_memory.md R40). -/
def memRead (addr n : Nat) (s : State) : Host.Outcome State Fault Refusal :=
  match hostTarget s.base addr n with
  | some t => .next (s.setHostRead (readTarget s t))
  | none   => .refused (.undefinedHostAccess addr n)

/-- `MemWrite(addr, n, v)` (spec/20_memory.md R40). -/
def memWrite (addr n : Nat) (v : Word) (s : State) : Host.Outcome State Fault Refusal :=
  match hostTarget s.base addr n with
  | some t => writeTarget s v t
  | none   => .refused (.undefinedHostAccess addr n)

/-- The reset input: every piece of engine state takes its reset value, the buffers are unspecified
anew (spec/70_reset_and_hazards.md R160); host and environment go on (log entry 11). -/
def resetInput (s : State) : State :=
  { State.reset with base := s.base, inputs := s.inputs, answers := s.answers, epoch := s.epoch + 1 }

/-- One input, taken from the list before it acts. -/
def deliver (i : Input) (s : State) : Host.Outcome State Fault Refusal :=
  match i with
  | .memRead addr n    => memRead addr n s
  | .memWrite addr n v => memWrite addr n v s
  | .reset             => .next (resetInput s)

/-- The input that makes the host write the `nbits`-bit table word `w` to `CMD`. -/
def commandInput (s : State) (nbits w : Nat) : Input :=
  .memWrite s.base 4 (BitVec.ofNat 32 (w % 2 ^ nbits))

end Sys2Proof.Machine
end

