-- ==== Sys2Proof/Machine/Step.lean ====
section
/-! DEFINITION. One step: the next input, delivered whole; a command written to `CMD` runs to completion within its step
(spec/20_memory.md R42; log entry 4). -/

namespace Sys2Proof.Machine

open Sys2Proof

/-- With no input pending the block waits and nothing changes (spec/70_reset_and_hazards.md R160,
spec/60_exceptions.md R146; log entry 5). -/
def step (s : State) : Host.Outcome State Fault Refusal :=
  match s.inputs with
  | []      => .next s
  | i :: is => deliver i (s.setInputs is)

/-- `s` with the host about to write the table word `w` to `CMD`, before whatever else it was about to
do (log entry 12). -/
def State.withFetchWord (s : State) (nbits w : Nat) : State :=
  s.setInputs (commandInput s nbits w :: s.inputs)

end Sys2Proof.Machine
end

