-- ==== Sys2Proof/Machine/LineContract.lean ====
section
/-! DEFINITION. Readings of the access history that are no part of the machine: the line contract LC1 to LC7, premises a claim may
name (spec/20_memory.md R57), and the wire trace (R58). -/

namespace Sys2Proof.Machine

open Sys2Proof

/-- What the clauses of the line contract need to know of the history so far. -/
structure Track where
  /-- a line write has been made -/
  wrote : Bool
  /-- a `W_START` has been made and no `W_DR` since the latest -/
  startFresh : Bool
  /-- a `W_START` has been made and, since the latest, no first `W_DR` yet -/
  awaitsAddress : Bool
  /-- the first `W_DR` after the latest `W_START` has been made and no `R_SR2` since it -/
  addressOut : Bool
  /-- the first `W_DR` after the latest `W_START` had bit 0 = 1 -/
  readAddress : Bool
  /-- an `R_SR1` answered `af = 1` and no `W_AFCLR` has been made since -/
  afSeen : Bool
  /-- a `W_DR` has been made since the latest `W_AFCLR`, or since reset -/
  drSinceClear : Bool
  /-- a `W_DR` has been made with no `W_START` and no `W_STOP` since -/
  drInFrame : Bool
  /-- the level of the latest `W_ACK` -/
  ack : Bool
  /-- an `R_DR` has been made since the read address -/
  took : Bool
  /-- the latest `W_ACK` was `W_ACK(1)` at some time since the latest `R_DR` -/
  ackedSince : Bool
  /-- a `W_START` was the latest access but for `R_SR1`s that answered `sb = 0` -/
  startPolled : Bool
  /-- a `start()` whose poll returned `Ok` has been made and no `W_STOP` since -/
  started : Bool
  deriving DecidableEq, Repr

/-- Before any access. -/
def Track.init : Track :=
  ⟨false, false, false, false, false, false, false, false, false, false, false, false, false⟩

/-- After one more event. -/
def Track.next (k : Track) : LineEvent → Track
  | .wStart => { k with wrote := true, startFresh := true, awaitsAddress := true, addressOut := false,
                        readAddress := false, drInFrame := false, startPolled := true }
  | .wStop  => { k with wrote := true, drInFrame := false, startPolled := false, started := false }
  | .wAck b => { k with wrote := true, ack := b, ackedSince := k.ackedSince || b, startPolled := false }
  | .wDr v  =>
    let k' := { k with wrote := true, startFresh := false, drSinceClear := true, drInFrame := true, startPolled := false }
    if k.awaitsAddress then
      { k' with awaitsAddress := false, addressOut := true, readAddress := v.getLsbD 0, took := false }
    else k'
  | .wAfClr => { k with wrote := true, afSeen := false, drSinceClear := false, startPolled := false }
  | .rSr1 f => { k with afSeen := k.afSeen || f.af, started := k.started || (k.startPolled && f.sb),
                        startPolled := k.startPolled && !f.sb }
  | .rSr2 _ => { k with addressOut := false, startPolled := false }
  | .rDr _  => { k with took := true, ackedSince := k.ack, startPolled := false }

/-- A clause holds at every event of the history, given what came before it. -/
def holdsAlong (clause : Track → LineEvent → Bool) : Track → List LineEvent → Bool
  | _, [] => true
  | k, e :: h => clause k e && holdsAlong clause (k.next e) h

/-- LC1: `sb = 1` only after a `W_START` with no `W_DR` between. -/
def LC1 (h : List LineEvent) : Bool :=
  holdsAlong (fun k e => match e with | .rSr1 f => !f.sb || k.startFresh | _ => true) .init h

/-- LC2: `addr = 1` only after the first `W_DR` after the latest `W_START`, with no `R_SR2` since that `W_DR`. -/
def LC2 (h : List LineEvent) : Bool :=
  holdsAlong (fun k e => match e with | .rSr1 f => !f.addr || k.addressOut | _ => true) .init h

/-- LC3: `AF` is sticky until `W_AFCLR`, and is 1 only if a `W_DR` was made since the latest `W_AFCLR`. -/
def LC3 (h : List LineEvent) : Bool :=
  holdsAlong (fun k e => match e with | .rSr1 f => (!k.afSeen || f.af) && (!f.af || k.drSinceClear) | _ => true) .init h

/-- LC4: `btc = 1` only after a `W_DR` with no `W_START` and no `W_STOP` between. -/
def LC4 (h : List LineEvent) : Bool :=
  holdsAlong (fun k e => match e with | .rSr1 f => !f.btc || k.drInFrame | _ => true) .init h

/-- LC5: `rxne = 1` only after a read address; after an `R_DR`, only if a further byte can have been
received: the latest `W_ACK` was `W_ACK(1)` at some time since (log entry 17). -/
def LC5 (h : List LineEvent) : Bool :=
  holdsAlong (fun k e => match e with
    | .rSr1 f => !f.rxne || (k.readAddress && (!k.took || k.ackedSince))
    | _ => true) .init h

/-- LC6: between a `start()` whose poll returned `Ok` and the next `W_STOP`, `busy = 1`. -/
def LC6 (h : List LineEvent) : Bool :=
  holdsAlong (fun k e => match e with | .rSr2 busy => !k.started || busy | _ => true) .init h

/-- LC7: before the first line write, every flag is answered 0. -/
def LC7 (h : List LineEvent) : Bool :=
  holdsAlong (fun k e => match e with
    | .rSr1 f => k.wrote || f == ⟨false, false, false, false, false⟩
    | .rSr2 busy => k.wrote || !busy
    | _ => true) .init h

/-- What a well-behaved line unit puts on the wire (spec/20_memory.md R58). -/
inductive WireEvent where
  /-- `S` -/
  | s
  /-- `T(v, A)` or `T(v, N)` -/
  | t (v : Byte) (acked : Bool)
  /-- `R(v, A)` or `R(v, N)` -/
  | r (v : Byte) (acked : Bool)
  /-- `P` -/
  | p
  deriving DecidableEq, Repr

/-- Where in the sequence of a pass the reading of a history stands. -/
inductive WireMode where
  | idle | starting | started
  | addressing (v : Byte) | clearing (v : Byte) | checking (v : Byte)
  | opened | sending (v : Byte) | receiving (ack : Bool) | received (ack : Bool) | stopping
  deriving DecidableEq, Repr

/-- One event read: the next mode and what it adds to the wire trace; none where a poll has timed out,
since no trace is defined there (spec/20_memory.md R58; log entry 20). -/
def WireMode.next : WireMode → LineEvent → Option (WireMode × List WireEvent)
  | .idle,         .wStart  => some (.starting, [])
  | .starting,     .rSr1 f  => some (if f.sb then (.started, [.s]) else (.starting, []))
  | .started,      .wDr v   => some (.addressing v, [])
  | .addressing v, .rSr1 f  => some (if f.addr || f.af then .clearing v else .addressing v, [])
  | .clearing v,   .rSr2 _  => some (.checking v, [])
  | .checking v,   .rSr1 f  => some (.opened, [.t v (!f.af)])
  | .opened,       .wAfClr  => some (.opened, [])
  | .opened,       .wDr v   => some (.sending v, [])
  | .sending v,    .rSr1 f  => some (if f.btc then .checking v else .sending v, [])
  | .opened,       .wAck b  => some (.receiving b, [])
  | .receiving b,  .rSr1 f  => some (if f.rxne then .received b else .receiving b, [])
  | .received b,   .rDr v   => some (.opened, [.r v b])
  | .opened,       .wStop   => some (.stopping, [])
  | .stopping,     .rSr2 busy => some (if busy then (.stopping, []) else (.idle, [.p]))
  | _, _ => none

/-- The wire trace of a history read from a mode. -/
def wireTraceFrom : WireMode → List LineEvent → Option (List WireEvent)
  | .idle, [] => some []
  | _, [] => none
  | m, e :: h => match m.next e with
    | some (m', ws) => (wireTraceFrom m' h).map (ws ++ ·)
    | none => none

/-- The wire trace of a history of whole commands, none where a poll timed out (spec/20_memory.md R58). -/
def wireTrace (h : List LineEvent) : Option (List WireEvent) := wireTraceFrom .idle h

end Sys2Proof.Machine
end

