-- ==== Sys2Proof/Safety.lean ====
section
/-! DEFINITION. The terms claims are stated in: the invariant of a run, and the grammar of access histories, written from the
pseudocode of spec/40_primitives.md over events alone, without the machine's state. -/

namespace Sys2Proof.Machine

open Sys2Proof

/-! What holds between any two host accesses. -/

/-- A transaction is open on the bus: a `W_START` with no `W_STOP` since (spec/60_exceptions.md R137). -/
def midTransaction (h : List LineEvent) : Bool :=
  h.foldl (fun o e => match e with | .wStart => true | .wStop => false | _ => o) false

/-- Whether an event may stand directly after `before`: `DR` is read only after `RXNE` was sampled 1
(spec/93_implementation_defined.md U8), `AF` is cleared only after it was found 1 (spec/60_exceptions.md R132). -/
def mayFollow (before : Option LineEvent) : LineEvent → Bool
  | .rDr _  => match before with | some (.rSr1 f) => f.rxne | _ => false
  | .wAfClr => match before with | some (.rSr1 f) => f.af | _ => false
  | _ => true

/-- Every event of a history may stand where it stands. -/
def orderedFrom : Option LineEvent → List LineEvent → Bool
  | _, [] => true
  | b, e :: h => mayFollow b e && orderedFrom (some e) h

/-- The arrows of `PHASE` as the debug port shows them: the source's chain, and the arrows of the
failures (spec/10_state.md R14). -/
def phaseArrow (a b : BitVec 3) : Bool :=
  (a, b) ∈ [(0#3, 1#3), (1#3, 2#3), (2#3, 3#3), (3#3, 4#3), (4#3, 0#3), (1#3, 4#3), (2#3, 4#3)]

/-- Every value follows the one before it along an arrow. -/
def followsArrows : List (BitVec 3) → Bool
  | a :: b :: l => phaseArrow a b && followsArrows (b :: l)
  | _ => true

/-- `RESULT` holds nothing before the first command, and a failure carries no byte and no count
(spec/10_state.md R24, R28, spec/60_exceptions.md R130). -/
def ResultReg.sound (r : ResultReg) : Bool :=
  (r.done || r == ⟨false, 0, 0, .ok⟩) && (r.code == .ok || (r.data == 0 && r.count == 0))

/-- The invariant of the machine between host accesses. -/
structure State.Inv (s : State) : Prop where
  /-- the buffers are in canonical form (log entry 2) -/
  txbufWf : s.txbuf.wf = true
  rxbufWf : s.rxbuf.wf = true
  /-- `PHASE` is `Idle` whenever no command is in execution (spec/10_state.md R14) -/
  phaseIdle : s.phase = .idle
  /-- the port shows `PHASE` and moved along its arrows (spec/10_state.md R14, spec/60_exceptions.md R145) -/
  portShowsPhase : s.dbgLog.getLast? = some s.phase.dbg
  portFollowsArrows : followsArrows s.dbgLog = true
  /-- the bus is never left mid-transaction (spec/60_exceptions.md R137) -/
  stopped : midTransaction s.history = false
  /-- every line access stood where it may stand (spec/93_implementation_defined.md U8, spec/60_exceptions.md R132) -/
  ordered : orderedFrom none s.history = true
  /-- `RESULT` is a result (spec/10_state.md R24) -/
  resultSound : s.result.sound = true

/-! What admission looks at (spec/40_primitives.md R100) and what `Ok` reports (spec/10_state.md R24). -/

/-- A buffer command of length zero. -/
def zeroLength : Instr → Bool
  | .wbuf _ n | .rbuf _ _ n | .rrawb _ n => n == 0
  | .wreg _ _ _ | .rreg _ _ | .wraw _ _ | .rraw _ => false

/-- The command passes admission in `s`. -/
def admitted (i : Instr) (s : State) : Prop := s.ctrl.en = true ∧ zeroLength i = false

/-- `COUNT` on `Ok`. -/
def okCount : Instr → Len
  | .wreg _ _ _ => 2
  | .wraw _ _ | .rreg _ _ | .rraw _ => 1
  | .wbuf _ n | .rbuf _ _ n | .rrawb _ n => n

/-- The device address a command names. -/
def device : Instr → DevAddr
  | .wreg dev _ _ | .wbuf dev _ | .rreg dev _ | .rbuf dev _ _ | .wraw dev _ | .rraw dev | .rrawb dev _ => dev

/-- The direction bit of a command's first pass (spec/30_encoding.md R75): only the raw reads begin with a read. -/
def firstDirection : Instr → BitVec 1
  | .rraw _ | .rrawb _ _ => 1
  | .wreg _ _ _ | .wbuf _ _ | .rreg _ _ | .rbuf _ _ _ | .wraw _ _ => 0

/-- The commands of two passes. -/
def twoPasses : Instr → Bool
  | .rreg _ _ | .rbuf _ _ _ => true
  | .wreg _ _ _ | .wbuf _ _ | .wraw _ _ | .rraw _ | .rrawb _ _ => false

/-- The read commands. -/
def isRead : Instr → Bool
  | .rreg _ _ | .rbuf _ _ _ | .rraw _ | .rrawb _ _ => true
  | .wreg _ _ _ | .wbuf _ _ | .wraw _ _ => false

/-- The commands that deliver into `RXBUF`. -/
def writesRxbuf : Instr → Bool
  | .rbuf _ _ _ | .rrawb _ _ => true
  | .wreg _ _ _ | .wbuf _ _ | .rreg _ _ | .wraw _ _ | .rraw _ => false

/-- The number of polls a command makes at most (spec/70_reset_and_hazards.md R169). -/
def pollsOf : Instr → Nat
  | .wreg _ _ _ => 5
  | .wbuf _ n | .rrawb _ n => n.toNat + 3
  | .wraw _ _ | .rraw _ => 4
  | .rreg _ _ => 8
  | .rbuf _ _ n => n.toNat + 7

/-- The events of a command that are not poll samples, at most, the `W_AFCLR` of a `Nack` not counted
(spec/95_test_vectors.md section 2.8; log entry 24). -/
def nonSamplesOf : Instr → Nat
  | .wreg _ _ _ => 9
  | .wbuf _ n | .rrawb _ n => 2 * n.toNat + 5
  | .wraw _ _ | .rraw _ => 7
  | .rreg _ _ => 14
  | .rbuf _ _ n => 2 * n.toNat + 12

/-- What the line contract's bookkeeping holds after a history. -/
def trackOf (h : List LineEvent) : Track := h.foldl Track.next .init

/-! What a history says of the environment. -/

/-- The answers that a history's reads were given, in order: the script of the oracle
(spec/95_test_vectors.md section 0). The parts of an answer that its read did not use are 0. -/
def script : List LineEvent → List LineAnswer
  | [] => []
  | .rSr1 f :: h => ⟨f, false, 0⟩ :: script h
  | .rSr2 busy :: h => ⟨⟨false, false, false, false, false⟩, busy, 0⟩ :: script h
  | .rDr v :: h => ⟨⟨false, false, false, false, false⟩, false, v⟩ :: script h
  | .wStart :: h | .wStop :: h | .wAck _ :: h | .wDr _ :: h | .wAfClr :: h => script h

/-- The level of the latest `W_ACK` among the events, `b` where there is none: what `CR.ACK` holds, and
`ACKEN` with it (spec/10_state.md R16, spec/60_exceptions.md R136). -/
def ackAfter (b : Bool) (evs : List LineEvent) : Bool :=
  evs.foldl (fun a e => match e with | .wAck b => b | _ => a) b

/-- Everything a command never changes is unchanged, its accesses are the events `evs`, each read answered
by the next pending answer while there is one, `ACKEN` follows `W_ACK`, and `port` is what `dbg_phase`
showed. What is left to say of `t` is `RESULT`, `RXBUF` and the working registers. -/
def CommandFrame (s t : State) (evs : List LineEvent) (port : List (BitVec 3)) : Prop :=
  t = { s with
    history := s.history ++ evs
    answers := s.answers.drop (script evs).length
    phase := .idle
    acken := ackAfter s.acken evs
    result := t.result, rxbuf := t.rxbuf
    byteidx := t.byteidx, pollcnt := t.pollcnt, fail := t.fail, dbgLog := s.dbgLog ++ port }

end Sys2Proof.Machine

/-! The grammar of histories (spec/40_primitives.md R90 to R99): which events each operation may append under a
budget, with which result, whatever the environment answers. -/

namespace Sys2Proof.Trace

open Sys2Proof Sys2Proof.Machine

abbrev Events := List LineEvent

/-- One operation, then the next if it returned `Ok` (spec/60_exceptions.md R135 (c)). -/
def Seq (P Q : Events → Result → Prop) (evs : Events) (r : Result) : Prop :=
  (r ≠ .ok ∧ P evs r) ∨ ∃ e₁ e₂, P e₁ .ok ∧ Q e₂ r ∧ evs = e₁ ++ e₂

/-- `Poll` (R90): `Ok` at the first sample that satisfies `pred`, within the budget; `Timeout` when the
whole budget was sampled and no sample satisfied it. -/
def Polled {α : Type} (ev : α → LineEvent) (pred : α → Bool) (budget : Nat) (evs : Events) (r : Result) : Prop :=
  ∃ vs : List α, evs = vs.map ev ∧
    ((r = .ok ∧ ∃ bad good, vs = bad ++ [good] ∧ bad.length < budget ∧ (∀ v ∈ bad, pred v = false) ∧ pred good = true)
    ∨ (r = .timeout ∧ vs.length = budget ∧ ∀ v ∈ vs, pred v = false))

/-- `LWrite(DR, v)`, which cannot fail. -/
def Wrote (v : Byte) (evs : Events) (r : Result) : Prop := evs = [.wDr v] ∧ r = .ok

/-- The status-clearing read of `sendAddress`, whose value is discarded (R93). -/
def Cleared (evs : Events) (r : Result) : Prop := (∃ busy, evs = [.rSr2 busy]) ∧ r = .ok

/-- The acknowledge-failure check (R93, R94). -/
def Checked (evs : Events) (r : Result) : Prop :=
  ∃ f : Sr1, (f.af = false ∧ evs = [.rSr1 f] ∧ r = .ok) ∨ (f.af = true ∧ evs = [.rSr1 f, .wAfClr] ∧ r = .nack)

/-- `start()` (R91). -/
def Started (budget : Nat) (evs : Events) (r : Result) : Prop :=
  ∃ p, evs = .wStart :: p ∧ Polled .rSr1 (fun f => f.sb) budget p r

/-- `stop()` (R92). -/
def Stopped (budget : Nat) (evs : Events) (r : Result) : Prop :=
  ∃ p, evs = .wStop :: p ∧ Polled .rSr2 (fun busy => !busy) budget p r

/-- `sendAddress` of the address byte `b` (R93). -/
def Addressed (budget : Nat) (b : Byte) : Events → Result → Prop :=
  Seq (Wrote b) (Seq (Polled .rSr1 (fun f => f.addr || f.af) budget) (Seq Cleared Checked))

/-- `sendByte(v)` (R94). -/
def Sent (budget : Nat) (v : Byte) : Events → Result → Prop :=
  Seq (Wrote v) (Seq (Polled .rSr1 (fun f => f.btc) budget) Checked)

/-- `receiveByte(ack)` returning `Ok(v)` (R95). -/
def Received (budget : Nat) (ack : Bool) (evs : Events) (v : Byte) : Prop :=
  ∃ p, Polled .rSr1 (fun f => f.rxne) budget p .ok ∧ evs = .wAck ack :: p ++ [.rDr v]

/-- `receiveByte(ack)` returning the failure `r` (R95). -/
def NotReceived (budget : Nat) (ack : Bool) (evs : Events) (r : Result) : Prop :=
  r ≠ .ok ∧ ∃ p, Polled .rSr1 (fun f => f.rxne) budget p r ∧ evs = .wAck ack :: p

/-- The data bytes of a write pass, in order, until one fails; `sent` of them were sent and found
acknowledged (R98). -/
inductive SentAll (budget : Nat) : (bytes : List Byte) → Events → Result → (sent : Nat) → Prop where
  | done : SentAll budget [] [] .ok 0
  | failed {v vs evs r} : Sent budget v evs r → r ≠ .ok → SentAll budget (v :: vs) evs r 0
  | more {v vs e₁ e₂ r k} : Sent budget v e₁ .ok → SentAll budget vs e₂ r k → SentAll budget (v :: vs) (e₁ ++ e₂) r (k + 1)

/-- The bytes of a read pass with `left` still to come, ACK for every byte but the last, until one
fails; `got` are the bytes received (R99). -/
inductive ReceivedAll (budget : Nat) : (left : Nat) → Events → Result → (got : List Byte) → Prop where
  | done : ReceivedAll budget 0 [] .ok []
  | failed {left evs r} : NotReceived budget (decide (left ≠ 0)) evs r → ReceivedAll budget (left + 1) evs r []
  | more {left e₁ e₂ v r got} : Received budget (decide (left ≠ 0)) e₁ v → ReceivedAll budget left e₂ r got →
      ReceivedAll budget (left + 1) (e₁ ++ e₂) r (v :: got)

/-- `start`, then `sendAddress`: what both passes begin with. -/
def Opened (budget : Nat) (dev : DevAddr) (dir : BitVec 1) : Events → Result → Prop :=
  Seq (Started budget) (Addressed budget (dev ++ dir))

/-- `WritePass` (R98) of at least one byte: `r` the first failure before the stop, `st` the stop's result,
`sent` what `BYTEIDX` ends at, `port` the values `dbg_phase` shows (R14, R145). -/
def WritePass (budget : Nat) (dev : DevAddr) (bytes : List Byte) (evs : Events) (r st : Result) (sent : Nat)
    (port : List (BitVec 3)) : Prop :=
  ∃ e₁ e₂, ((r ≠ .ok ∧ Opened budget dev 0 e₁ r ∧ sent = 0 ∧ port = [1, 4, 0]) ∨
      ∃ a b, Opened budget dev 0 a .ok ∧ SentAll budget bytes b r sent ∧ e₁ = a ++ b ∧ port = [1, 2, 3, 4, 0]) ∧
    Stopped budget e₂ st ∧ evs = e₁ ++ e₂

/-- `ReadPass` (R99) of `n ≥ 1` bytes: `got` the bytes received, the rest as in `WritePass`. -/
def ReadPass (budget : Nat) (dev : DevAddr) (n : Nat) (evs : Events) (r st : Result) (got : List Byte)
    (port : List (BitVec 3)) : Prop :=
  ∃ e₁ e₂, ((r ≠ .ok ∧ Opened budget dev 1 e₁ r ∧ got = [] ∧ port = [1, 4, 0]) ∨
      ∃ a b, Opened budget dev 1 a .ok ∧ ReceivedAll budget n b r got ∧ e₁ = a ++ b ∧ port = [1, 2, 3, 4, 0]) ∧
    Stopped budget e₂ st ∧ evs = e₁ ++ e₂

/-- The two passes of the register reads (R120, R121): the second only if the first and its stop were
`Ok`; `idx` is what `BYTEIDX` ends at. -/
def RegisterRead (budget : Nat) (dev : DevAddr) (reg : Byte) (n : Nat) (evs : Events) (r st : Result) (got : List Byte)
    (idx : Nat) (port : List (BitVec 3)) : Prop :=
  (¬(r = .ok ∧ st = .ok) ∧ WritePass budget dev [reg] evs r st idx port ∧ got = []) ∨
  ∃ a b pa pb, WritePass budget dev [reg] a .ok .ok 1 pa ∧ ReadPass budget dev n b r st got pb ∧ idx = got.length ∧
    evs = a ++ b ∧ port = pa ++ pb

/-! The prompt oracle (spec/95_test_vectors.md section 0) as the history each operation has under it. -/

def promptOpen (dev : DevAddr) (dir : BitVec 1) : Events :=
  [.wStart, .rSr1 ⟨true, false, false, false, false⟩, .wDr (dev ++ dir), .rSr1 ⟨false, true, false, false, false⟩,
   .rSr2 true, .rSr1 ⟨false, false, false, false, false⟩]

def promptSend (v : Byte) : Events :=
  [.wDr v, .rSr1 ⟨false, false, true, false, false⟩, .rSr1 ⟨false, false, false, false, false⟩]

def promptReceive : List Byte → Events
  | [] => []
  | v :: vs => [.wAck (decide (vs ≠ [])), .rSr1 ⟨false, false, false, true, false⟩, .rDr v] ++ promptReceive vs

def promptStop : Events := [.wStop, .rSr2 false]

def promptWrite (dev : DevAddr) (bytes : List Byte) : Events :=
  promptOpen dev 0 ++ bytes.flatMap promptSend ++ promptStop

def promptRead (dev : DevAddr) (got : List Byte) : Events :=
  promptOpen dev 1 ++ promptReceive got ++ promptStop

end Sys2Proof.Trace
end

