-- ==== Sys2Proof/Certificates/Slice0/Obligations.lean ====
section
/-! DEFINITION. The statements for the provers. Each docstring names the rules of spec/ it rests on. -/

open Sys2Proof Sys2Proof.Machine Sys2Proof.Trace

/-! Encoding. -/

/-- R70, R72, R77: words written out field by field decode to the commands they stand for. -/
def Obligations.WordsOfTheTableDecode : Prop :=
  decode 0b0001_0111100_00010000_00000_10100101#32 = .ok (.wreg 0x3C 0x10 0xA5) ∧
  decode 0b0010_0111100_00000000_0000000000100#32 = .ok (.wbuf 0x3C 4) ∧
  decode 0b0011_0111100_00010000_0000000000000#32 = .ok (.rreg 0x3C 0x10) ∧
  decode 0b0100_0111100_00010000_0000000000011#32 = .ok (.rbuf 0x3C 0x10 3) ∧
  decode 0b0101_0111100_00000000_00000_10101111#32 = .ok (.wraw 0x3C 0xAF) ∧
  decode 0b0110_0111100_00000000_0000000000000#32 = .ok (.rraw 0x3C) ∧
  decode 0b0111_0111100_00000000_0000000000010#32 = .ok (.rrawb 0x3C 2) ∧
  decode 0x00000000#32 = .error (.reservedOpcode 0) ∧
  decode 0x178201A5#32 = .error (.notWellFormed .wreg)

/-- R70, R77, R80: no bit of a command is lost between encoder and decoder. -/
def Obligations.DecodeOfEncodeIsTheCommand : Prop :=
  ∀ i : Instr, decode (encode i) = .ok i

/-- R80: a command has one word only. -/
def Obligations.EncodeOfDecodeIsTheWord : Prop :=
  ∀ (w : Word) (i : Instr), decode w = .ok i → encode i = w

/-- R73: a word of an opcode is accepted when the fields the opcode does not use are zero, which is the
table's match and mask, and the rows of the table are disjoint. -/
def Obligations.DecoderAcceptsTheTablePatterns : Prop :=
  (∀ (w : Word) (op : Opcode),
    ((∃ i, decode w = .ok i ∧ i.opcode = op) ↔ ∃ r ∈ opcodeRows, r.op = op ∧ w &&& r.mask = r.pattern) ∧
    ((∃ i, decode w = .ok i ∧ i.opcode = op) ↔
      w.extractLsb' 28 4 = op.bits ∧
      (op = .wreg → w.extractLsb' 8 5 = 0) ∧
      (op = .wbuf → w.extractLsb' 13 8 = 0) ∧
      (op = .rreg → w.extractLsb' 0 13 = 0) ∧
      (op = .wraw → w.extractLsb' 13 8 = 0 ∧ w.extractLsb' 8 5 = 0) ∧
      (op = .rraw → w.extractLsb' 13 8 = 0 ∧ w.extractLsb' 0 13 = 0) ∧
      (op = .rrawb → w.extractLsb' 13 8 = 0))) ∧
  ∀ r ∈ opcodeRows, ∀ r' ∈ opcodeRows, ∀ w : Word, r.accepts w = true → r'.accepts w = true → r = r'

/-- R75: the address byte is the address in bits 7:1 and the direction in bit 0. -/
def Obligations.AddressByteIsAddressThenDirection : Prop :=
  ∀ dev : DevAddr, addrByte dev .write = dev ++ 0#1 ∧ addrByte dev .read = dev ++ 1#1 ∧
    addrByte dev .write = (dev.setWidth 8 <<< 1) ||| 0#8 ∧ addrByte dev .read = (dev.setWidth 8 <<< 1) ||| 1#8

/-! The bounded poll and the primitives. -/

/-- R90, R44: `Poll` is its loop. A sample is one event of the history and takes one answer. From `POLLCNT = 0` on, while `POLLCNT < BUDGET` one sample is taken and
counted, and the poll ends with `Ok` if it satisfies the predicate; at `POLLCNT = BUDGET` it ends with
`Timeout`. For every predicate and both status registers, whatever the environment answers. -/
def Obligations.PollIsTheLoopOfItsRule : Prop :=
  (∀ s : State, lreadSr1 s = (s.nextAnswer.sr1, { s with
      history := s.history ++ [.rSr1 s.nextAnswer.sr1], answers := s.answers.tail })) ∧
  (∀ s : State, lreadSr2 s = (s.nextAnswer.busy, { s with
      history := s.history ++ [.rSr2 s.nextAnswer.busy], answers := s.answers.tail })) ∧
  (∀ (pred : Sr1 → Bool) (s : State),
    poll lreadSr1 pred s = pollLoop lreadSr1 pred (s.budget.toNat - (s.setPollcnt 0).pollcnt.toNat) (s.setPollcnt 0) ∧
    pollLoop lreadSr1 pred (s.budget.toNat - s.pollcnt.toNat) s =
      if s.pollcnt < s.budget then
        if pred (lreadSr1 s).1 then (.ok, (lreadSr1 s).2.setPollcnt (s.pollcnt + 1))
        else pollLoop lreadSr1 pred (s.budget.toNat - (s.pollcnt + 1).toNat) ((lreadSr1 s).2.setPollcnt (s.pollcnt + 1))
      else (.timeout, s)) ∧
  (∀ (pred : Bool → Bool) (s : State),
    poll lreadSr2 pred s = pollLoop lreadSr2 pred (s.budget.toNat - (s.setPollcnt 0).pollcnt.toNat) (s.setPollcnt 0) ∧
    pollLoop lreadSr2 pred (s.budget.toNat - s.pollcnt.toNat) s =
      if s.pollcnt < s.budget then
        if pred (lreadSr2 s).1 then (.ok, (lreadSr2 s).2.setPollcnt (s.pollcnt + 1))
        else pollLoop lreadSr2 pred (s.budget.toNat - (s.pollcnt + 1).toNat) ((lreadSr2 s).2.setPollcnt (s.pollcnt + 1))
      else (.timeout, s))

/-- R90, R91, R92: `start` and `stop` under given answers: the poll ends at the first awaited flag within
the budget, or after exactly `BUDGET` samples; `stop` leaves `PHASE` at `Idle` either way. -/
def Obligations.StartAndStopFollowTheirAnswers : Prop :=
  (∀ (s : State) (bad rest : List LineAnswer) (good : LineAnswer),
    (∀ a ∈ bad, a.sr1.sb = false) →
    (s.answers = bad ++ good :: rest → bad.length < s.budget.toNat → good.sr1.sb = true →
      start s = (.ok, { s.setPhase .startIssued with
        history := s.history ++ .wStart :: (bad.map (.rSr1 ·.sr1) ++ [.rSr1 good.sr1])
        answers := rest, pollcnt := BitVec.ofNat 32 (bad.length + 1) })) ∧
    (s.answers = bad ++ rest → bad.length = s.budget.toNat →
      start s = (.timeout, { s.setPhase .startIssued with
        history := s.history ++ .wStart :: bad.map (.rSr1 ·.sr1)
        answers := rest, pollcnt := s.budget }))) ∧
  (∀ (s : State) (bad rest : List LineAnswer) (good : LineAnswer),
    (∀ a ∈ bad, a.busy = true) →
    (s.answers = bad ++ good :: rest → bad.length < s.budget.toNat → good.busy = false →
      stop s = (.ok, { (s.setPhase .stopIssued).setPhase .idle with
        history := s.history ++ .wStop :: (bad.map (.rSr2 ·.busy) ++ [.rSr2 good.busy])
        answers := rest, pollcnt := BitVec.ofNat 32 (bad.length + 1) })) ∧
    (s.answers = bad ++ rest → bad.length = s.budget.toNat →
      stop s = (.timeout, { (s.setPhase .stopIssued).setPhase .idle with
        history := s.history ++ .wStop :: bad.map (.rSr2 ·.busy)
        answers := rest, pollcnt := s.budget })))

/-- R93: `sendAddress` under given answers. The address byte goes out; when a sample finds `ADDR` or `AF`,
the status-clearing read and a fresh check follow, and the check alone decides between `Nack`, with `AF`
cleared, and `Ok`, with `PHASE` moved; when the budget runs out, none of them is made. -/
def Obligations.SendAddressDecidesOnTheCheck : Prop :=
  ∀ (dev : DevAddr) (dir : Direction) (s : State) (bad rest : List LineAnswer) (good clr chk : LineAnswer),
    (∀ a ∈ bad, a.sr1.addr = false ∧ a.sr1.af = false) →
    (s.answers = bad ++ good :: clr :: chk :: rest → bad.length < s.budget.toNat →
      (good.sr1.addr = true ∨ good.sr1.af = true) →
      (chk.sr1.af = false → sendAddress dev dir s = (.ok, { s.setPhase .addressSent with
        history := s.history ++ .wDr (dev ++ dir.bit) :: (bad.map (.rSr1 ·.sr1) ++
          [.rSr1 good.sr1, .rSr2 clr.busy, .rSr1 chk.sr1])
        answers := rest, pollcnt := BitVec.ofNat 32 (bad.length + 1) })) ∧
      (chk.sr1.af = true → sendAddress dev dir s = (.nack, { s with
        history := s.history ++ .wDr (dev ++ dir.bit) :: (bad.map (.rSr1 ·.sr1) ++
          [.rSr1 good.sr1, .rSr2 clr.busy, .rSr1 chk.sr1, .wAfClr])
        answers := rest, pollcnt := BitVec.ofNat 32 (bad.length + 1) }))) ∧
    (s.answers = bad ++ rest → bad.length = s.budget.toNat →
      sendAddress dev dir s = (.timeout, { s with
        history := s.history ++ .wDr (dev ++ dir.bit) :: bad.map (.rSr1 ·.sr1)
        answers := rest, pollcnt := s.budget }))

/-- R94, R135 (b): `sendByte` under given answers. The poll comes before the check, so a `Timeout` leaves
`AF` neither checked nor cleared, whatever the samples said of it. -/
def Obligations.SendByteChecksAfterThePoll : Prop :=
  ∀ (v : Byte) (s : State) (bad rest : List LineAnswer) (good chk : LineAnswer),
    (∀ a ∈ bad, a.sr1.btc = false) →
    (s.answers = bad ++ good :: chk :: rest → bad.length < s.budget.toNat → good.sr1.btc = true →
      sendByte v s = (if chk.sr1.af then .nack else .ok, { s.setPhase .dataPhase with
        history := s.history ++ .wDr v :: (bad.map (.rSr1 ·.sr1) ++
          [.rSr1 good.sr1, .rSr1 chk.sr1] ++ if chk.sr1.af then [.wAfClr] else [])
        answers := rest, pollcnt := BitVec.ofNat 32 (bad.length + 1) })) ∧
    (s.answers = bad ++ rest → bad.length = s.budget.toNat →
      sendByte v s = (.timeout, { s.setPhase .dataPhase with
        history := s.history ++ .wDr v :: bad.map (.rSr1 ·.sr1)
        answers := rest, pollcnt := s.budget }))

/-- R95: `receiveByte` under given answers. `CR.ACK` and `ACKEN` take the operand before the poll; on `Ok`
the byte is what `LRead(DR)` answers; `AF` is looked at nowhere. -/
def Obligations.ReceiveByteTakesTheAnsweredByte : Prop :=
  ∀ (ack : Bool) (s : State) (bad rest : List LineAnswer) (good dat : LineAnswer),
    (∀ a ∈ bad, a.sr1.rxne = false) →
    (s.answers = bad ++ good :: dat :: rest → bad.length < s.budget.toNat → good.sr1.rxne = true →
      receiveByte ack s = (.ok dat.dr, { (s.setPhase .dataPhase).setAcken ack with
        history := s.history ++ .wAck ack :: (bad.map (.rSr1 ·.sr1) ++ [.rSr1 good.sr1, .rDr dat.dr])
        answers := rest, pollcnt := BitVec.ofNat 32 (bad.length + 1) })) ∧
    (s.answers = bad ++ rest → bad.length = s.budget.toNat →
      receiveByte ack s = (.error .timeout, { (s.setPhase .dataPhase).setAcken ack with
        history := s.history ++ .wAck ack :: bad.map (.rSr1 ·.sr1)
        answers := rest, pollcnt := s.budget }))

/-! The commands, whatever the environment answers: events, result and frame. `CommandFrame` says what stays as
it was, that `ACKEN` follows `W_ACK`, and what `dbg_phase` showed. -/

/-- R110 with R98, R100, R101: `WREG` is rejected without initialisation; otherwise it is one write pass
of `reg` and `val`, `COUNT = 2` on `Ok`, and nothing but the state named changes. -/
def Obligations.WregIsOneWritePass : Prop :=
  ∀ (dev : DevAddr) (reg val : Byte) (s : State),
    encode (.wreg dev reg val) = 0x1#4 ++ dev ++ reg ++ 0b00000#5 ++ val ∧
    (s.ctrl.en = false → exec (.wreg dev reg val) s = .next { s with result := ⟨true, 0, 0, .error⟩ }) ∧
    (s.ctrl.en = true → s.phase = .idle → ∃ t evs r st sent port,
      exec (.wreg dev reg val) s = .next t ∧
      WritePass s.budget.toNat dev [reg, val] evs r st sent port ∧
      CommandFrame s t evs port ∧
      t.result = (if r = .ok ∧ st = .ok then ⟨true, 2, 0, .ok⟩ else ⟨true, 0, 0, if r = .ok then st else r⟩) ∧
      t.acken = s.acken ∧ t.rxbuf = s.rxbuf ∧ t.byteidx.toNat = sent)

/-- R112 with R98, R100, R101: `WRAW` is one write pass of `val`, `COUNT = 1` on `Ok`. -/
def Obligations.WrawIsOneWritePass : Prop :=
  ∀ (dev : DevAddr) (val : Byte) (s : State),
    encode (.wraw dev val) = 0x5#4 ++ dev ++ 0x00#8 ++ 0b00000#5 ++ val ∧
    (s.ctrl.en = false → exec (.wraw dev val) s = .next { s with result := ⟨true, 0, 0, .error⟩ }) ∧
    (s.ctrl.en = true → s.phase = .idle → ∃ t evs r st sent port,
      exec (.wraw dev val) s = .next t ∧
      WritePass s.budget.toNat dev [val] evs r st sent port ∧
      CommandFrame s t evs port ∧
      t.result = (if r = .ok ∧ st = .ok then ⟨true, 1, 0, .ok⟩ else ⟨true, 0, 0, if r = .ok then st else r⟩) ∧
      t.acken = s.acken ∧ t.rxbuf = s.rxbuf ∧ t.byteidx.toNat = sent)

/-- R111 with R98, R100, R101: `WBUF` of length 0 is rejected without bus activity; otherwise it is one
write pass of `TXBUF[0]` to `TXBUF[n-1]` in ascending index, `COUNT = n` on `Ok`; written or not, the
bytes are those the host would read. -/
def Obligations.WbufSendsTheBufferInOrder : Prop :=
  ∀ (dev : DevAddr) (n : Len) (s : State),
    encode (.wbuf dev n) = 0x2#4 ++ dev ++ 0x00#8 ++ n ∧
    (s.ctrl.en = false ∨ n = 0 → exec (.wbuf dev n) s = .next { s with result := ⟨true, 0, 0, .error⟩ }) ∧
    (s.ctrl.en = true → n ≠ 0 → s.phase = .idle → ∃ t evs r st sent port,
      exec (.wbuf dev n) s = .next t ∧
      WritePass s.budget.toNat dev ((List.range n.toNat).map s.txByte) evs r st sent port ∧
      CommandFrame s t evs port ∧
      t.result = (if r = .ok ∧ st = .ok then ⟨true, n, 0, .ok⟩ else ⟨true, 0, 0, if r = .ok then st else r⟩) ∧
      t.acken = s.acken ∧ t.rxbuf = s.rxbuf ∧ t.byteidx.toNat = sent)

/-- R120 with R98 to R101: `RREG` is a write pass of `reg`, then, only if that pass and its stop were `Ok`,
a read pass of one byte, delivered in `DATA` with `COUNT = 1`; `RXBUF` is not touched. -/
def Obligations.RregIsTwoPasses : Prop :=
  ∀ (dev : DevAddr) (reg : Byte) (s : State),
    encode (.rreg dev reg) = 0x3#4 ++ dev ++ reg ++ 0#13 ∧
    (s.ctrl.en = false → exec (.rreg dev reg) s = .next { s with result := ⟨true, 0, 0, .error⟩ }) ∧
    (s.ctrl.en = true → s.phase = .idle → ∃ t evs r st got idx port,
      exec (.rreg dev reg) s = .next t ∧
      RegisterRead s.budget.toNat dev reg 1 evs r st got idx port ∧
      CommandFrame s t evs port ∧
      (r = .ok ∧ st = .ok → ∃ v, got = [v] ∧ t.result = ⟨true, 1, v, .ok⟩ ∧ t.acken = false) ∧
      (¬(r = .ok ∧ st = .ok) → t.result = ⟨true, 0, 0, if r = .ok then st else r⟩) ∧
      t.rxbuf = s.rxbuf ∧ t.byteidx.toNat = idx)

/-- R122 with R99 to R101: `RRAW` is one read pass of one byte, delivered in `DATA` with `COUNT = 1`. -/
def Obligations.RrawIsOneReadPass : Prop :=
  ∀ (dev : DevAddr) (s : State),
    encode (.rraw dev) = 0x6#4 ++ dev ++ 0x00#8 ++ 0#13 ∧
    (s.ctrl.en = false → exec (.rraw dev) s = .next { s with result := ⟨true, 0, 0, .error⟩ }) ∧
    (s.ctrl.en = true → s.phase = .idle → ∃ t evs r st got port,
      exec (.rraw dev) s = .next t ∧
      ReadPass s.budget.toNat dev 1 evs r st got port ∧
      CommandFrame s t evs port ∧
      (r = .ok ∧ st = .ok → ∃ v, got = [v] ∧ t.result = ⟨true, 1, v, .ok⟩ ∧ t.acken = false) ∧
      (¬(r = .ok ∧ st = .ok) → t.result = ⟨true, 0, 0, if r = .ok then st else r⟩) ∧
      t.rxbuf = s.rxbuf ∧ t.byteidx.toNat = got.length)

/-- R121, R13 with R98 to R101: `RBUF` of length 0 is rejected; otherwise two passes, the bytes received
stored in ascending index and kept on failure, every other byte of `RXBUF` unchanged, `COUNT = n` and
`DATA = 0` on `Ok`. -/
def Obligations.RbufFillsTheBufferInOrder : Prop :=
  ∀ (dev : DevAddr) (reg : Byte) (n : Len) (s : State),
    encode (.rbuf dev reg n) = 0x4#4 ++ dev ++ reg ++ n ∧
    (s.ctrl.en = false ∨ n = 0 → exec (.rbuf dev reg n) s = .next { s with result := ⟨true, 0, 0, .error⟩ }) ∧
    (s.ctrl.en = true → n ≠ 0 → s.phase = .idle → ∃ t evs r st got idx port,
      exec (.rbuf dev reg n) s = .next t ∧
      RegisterRead s.budget.toNat dev reg n.toNat evs r st got idx port ∧
      CommandFrame s t evs port ∧
      (r = .ok ∧ st = .ok → got.length = n.toNat ∧ t.result = ⟨true, n, 0, .ok⟩ ∧ t.acken = false) ∧
      (¬(r = .ok ∧ st = .ok) → t.result = ⟨true, 0, 0, if r = .ok then st else r⟩) ∧
      (∀ j, t.rxByte j = if h : j < got.length then got[j] else s.rxByte j) ∧
      t.byteidx.toNat = idx)

/-- R123, R13 with R99 to R101: `RRAWB` is the read pass of `RBUF` alone. -/
def Obligations.RrawbFillsTheBufferInOrder : Prop :=
  ∀ (dev : DevAddr) (n : Len) (s : State),
    encode (.rrawb dev n) = 0x7#4 ++ dev ++ 0x00#8 ++ n ∧
    (s.ctrl.en = false ∨ n = 0 → exec (.rrawb dev n) s = .next { s with result := ⟨true, 0, 0, .error⟩ }) ∧
    (s.ctrl.en = true → n ≠ 0 → s.phase = .idle → ∃ t evs r st got port,
      exec (.rrawb dev n) s = .next t ∧
      ReadPass s.budget.toNat dev n.toNat evs r st got port ∧
      CommandFrame s t evs port ∧
      (r = .ok ∧ st = .ok → got.length = n.toNat ∧ t.result = ⟨true, n, 0, .ok⟩ ∧ t.acken = false) ∧
      (¬(r = .ok ∧ st = .ok) → t.result = ⟨true, 0, 0, if r = .ok then st else r⟩) ∧
      (∀ j, t.rxByte j = if h : j < got.length then got[j] else s.rxByte j) ∧
      t.byteidx.toNat = got.length)

/-! The commands complete: under the prompt oracle each ends `Ok` with the history of the spec's worked examples. -/

/-- R110, R112 (worked examples): the two write commands with immediate bytes. -/
def Obligations.ImmediateWritesCompleteUnderThePromptOracle : Prop :=
  ∀ (dev : DevAddr) (reg val : Byte) (s : State) (rest : List LineAnswer),
    s.ctrl.en = true → s.budget ≠ 0 → s.phase = .idle →
    (s.answers = script (promptWrite dev [reg, val]) ++ rest → ∃ t,
      exec (.wreg dev reg val) s = .next t ∧ CommandFrame s t (promptWrite dev [reg, val]) [1, 2, 3, 4, 0] ∧
      t.answers = rest ∧ t.result.word = 0x80020000 ∧ t.acken = s.acken ∧ t.rxbuf = s.rxbuf ∧
      t.byteidx = 2 ∧ t.pollcnt = 1 ∧ t.fail = .ok) ∧
    (s.answers = script (promptWrite dev [val]) ++ rest → ∃ t,
      exec (.wraw dev val) s = .next t ∧ CommandFrame s t (promptWrite dev [val]) [1, 2, 3, 4, 0] ∧
      t.answers = rest ∧ t.result.word = 0x80010000 ∧ t.acken = s.acken ∧ t.rxbuf = s.rxbuf ∧
      t.byteidx = 1 ∧ t.pollcnt = 1 ∧ t.fail = .ok)

/-- R111 (worked example) for every length: `WBUF` sends what the host would read in `TXBUF`. -/
def Obligations.WbufCompletesUnderThePromptOracle : Prop :=
  ∀ (dev : DevAddr) (n : Len) (s : State) (rest : List LineAnswer),
    s.ctrl.en = true → s.budget ≠ 0 → s.phase = .idle → n ≠ 0 →
    s.answers = script (promptWrite dev ((List.range n.toNat).map s.txByte)) ++ rest → ∃ t,
      exec (.wbuf dev n) s = .next t ∧
      CommandFrame s t (promptWrite dev ((List.range n.toNat).map s.txByte)) [1, 2, 3, 4, 0] ∧
      t.answers = rest ∧ t.result = ⟨true, n, 0, .ok⟩ ∧ t.acken = s.acken ∧ t.rxbuf = s.rxbuf ∧
      t.byteidx = n ∧ t.pollcnt = 1 ∧ t.fail = .ok

/-- R120, R122 (worked examples): the single-byte reads deliver the byte in `DATA`. -/
def Obligations.SingleReadsCompleteUnderThePromptOracle : Prop :=
  ∀ (dev : DevAddr) (reg v : Byte) (s : State) (rest : List LineAnswer),
    s.ctrl.en = true → s.budget ≠ 0 → s.phase = .idle →
    (s.answers = script (promptWrite dev [reg] ++ promptRead dev [v]) ++ rest → ∃ t,
      exec (.rreg dev reg) s = .next t ∧
      CommandFrame s t (promptWrite dev [reg] ++ promptRead dev [v]) [1, 2, 3, 4, 0, 1, 2, 3, 4, 0] ∧
      t.answers = rest ∧ t.result = ⟨true, 1, v, .ok⟩ ∧ t.acken = false ∧ t.rxbuf = s.rxbuf ∧
      t.byteidx = 1 ∧ t.pollcnt = 1 ∧ t.fail = .ok) ∧
    (s.answers = script (promptRead dev [v]) ++ rest → ∃ t,
      exec (.rraw dev) s = .next t ∧ CommandFrame s t (promptRead dev [v]) [1, 2, 3, 4, 0] ∧
      t.answers = rest ∧ t.result = ⟨true, 1, v, .ok⟩ ∧ t.acken = false ∧ t.rxbuf = s.rxbuf ∧
      t.byteidx = 1 ∧ t.pollcnt = 1 ∧ t.fail = .ok)

/-- R121, R123 (worked examples) for every length: the buffer reads deliver the bytes in `RXBUF`. -/
def Obligations.BufferReadsCompleteUnderThePromptOracle : Prop :=
  ∀ (dev : DevAddr) (reg : Byte) (n : Len) (got : List Byte) (s : State) (rest : List LineAnswer),
    s.ctrl.en = true → s.budget ≠ 0 → s.phase = .idle → n ≠ 0 → got.length = n.toNat →
    (s.answers = script (promptWrite dev [reg] ++ promptRead dev got) ++ rest → ∃ t,
      exec (.rbuf dev reg n) s = .next t ∧
      CommandFrame s t (promptWrite dev [reg] ++ promptRead dev got) [1, 2, 3, 4, 0, 1, 2, 3, 4, 0] ∧
      t.answers = rest ∧ t.result = ⟨true, n, 0, .ok⟩ ∧ t.acken = false ∧
      (∀ j, t.rxByte j = if h : j < got.length then got[j] else s.rxByte j) ∧
      t.byteidx = n ∧ t.pollcnt = 1 ∧ t.fail = .ok) ∧
    (s.answers = script (promptRead dev got) ++ rest → ∃ t,
      exec (.rrawb dev n) s = .next t ∧ CommandFrame s t (promptRead dev got) [1, 2, 3, 4, 0] ∧
      t.answers = rest ∧ t.result = ⟨true, n, 0, .ok⟩ ∧ t.acken = false ∧
      (∀ j, t.rxByte j = if h : j < got.length then got[j] else s.rxByte j) ∧
      t.byteidx = n ∧ t.pollcnt = 1 ∧ t.fail = .ok)

/-- R58 with R110, R111, R120, R121: what a prompt history reads as on the wire: the source's own sequences
"start, address(write), data, stop" and "start, address(read), bytes, stop", the last byte not acknowledged. -/
def Obligations.PromptHistoriesReadAsTheSequencesOfTheSource : Prop :=
  ∀ (dev : DevAddr) (bytes : List Byte) (reg : Byte),
    wireTrace (promptWrite dev bytes) =
      some (.s :: .t (dev ++ 0#1) true :: (bytes.map (.t · true) ++ [.p])) ∧
    (∀ last : Byte, wireTrace (promptWrite dev [reg] ++ promptRead dev (bytes ++ [last])) =
      some (.s :: .t (dev ++ 0#1) true :: .t reg true :: .p :: .s :: .t (dev ++ 1#1) true ::
        (bytes.map (.r · true) ++ [.r last false, .p])))

/-- R57: the prompt oracle keeps the line contract: every clause holds along a prompt history, so no claim
under the contract is empty. LC5 and LC6 in the model's reading (log entry 17). -/
def Obligations.PromptHistoriesKeepTheLineContract : Prop :=
  ∀ (dev : DevAddr) (bytes : List Byte) (reg : Byte),
    ∀ h ∈ [promptWrite dev bytes, promptRead dev bytes, promptWrite dev [reg] ++ promptRead dev bytes],
      LC1 h = true ∧ LC2 h = true ∧ LC3 h = true ∧ LC4 h = true ∧ LC5 h = true ∧ LC6 h = true ∧ LC7 h = true

/-! Rules over all commands. -/

/-- R100, R137: every command ends in a next state; none faults or refuses, whatever the state. -/
def Obligations.EveryCommandEndsInANextState : Prop :=
  ∀ (i : Instr) (s : State), ∃ t, exec i s = .next t ∧ t.result.done = true

/-- R100, R133: a command while `CTRL.EN = 0`, or a buffer command of length zero, ends `Error` and changes
nothing but `RESULT`: no line access, `PHASE`, `ACKEN` and both buffers as they were. -/
def Obligations.RejectedCommandsChangeOnlyResult : Prop :=
  ∀ (i : Instr) (s : State), ¬admitted i s →
    exec i s = .next { s with result := ⟨true, 0, 0, .error⟩ }

/-- R133, R135 (a): `Error` excludes the others: an admitted command never ends with it. -/
def Obligations.ErrorIsDecidedAtAdmissionOnly : Prop :=
  ∀ (i : Instr) (s t : State), exec i s = .next t → (t.result.code = .error ↔ ¬admitted i s)

/-- R137, R92, R141: every command that passes admission issues a stop, its last line-side action is the poll
of that stop, which leaves `POLLCNT` at its samples and `PHASE` at `Idle`; a command that does not pass makes
no line access. -/
def Obligations.EveryAdmittedCommandEndsWithAStop : Prop :=
  ∀ (i : Instr) (s t : State), exec i s = .next t →
    (admitted i s → ∃ (before : List LineEvent) (polls : List Bool),
      t.history = s.history ++ .wStart :: before ++ .wStop :: polls.map .rSr2 ∧
      polls.length ≤ s.budget.toNat ∧ t.pollcnt = BitVec.ofNat 32 polls.length ∧ t.phase = .idle) ∧
    (¬admitted i s → t.history = s.history)

/-- R120, R136, R138: a pass has one start and one stop, a command one pass or, for `RREG` and `RBUF`, at
most two; the block never retries. -/
def Obligations.StartsAndStopsArePaired : Prop :=
  ∀ (i : Instr) (s t : State), admitted i s → exec i s = .next t →
    ∃ evs, t.history = s.history ++ evs ∧
      evs.count .wStart = evs.count .wStop ∧ 1 ≤ evs.count .wStart ∧
      evs.count .wStart ≤ if twoPasses i then 2 else 1

/-- R169 and the counts of 95_test_vectors.md section 2.8: no command appends more events than its polls
times `BUDGET` and its other accesses, whatever the environment answers; a write command that ends `Nack`
may append one more, the `W_AFCLR` after its last check, which section 2.8 leaves out (log entry 24). -/
def Obligations.EveryCommandIsBounded : Prop :=
  ∀ (i : Instr) (s t : State), exec i s = .next t →
    ∃ evs, t.history = s.history ++ evs ∧
      evs.length ≤ pollsOf i * s.budget.toNat + nonSamplesOf i +
        if isRead i = false ∧ t.result.code = .nack then 1 else 0

/-- R168: with `BUDGET = 0` every command that passes admission ends `Timeout` after the two requests and
no sample. -/
def Obligations.ZeroBudgetTimesOutWithoutASample : Prop :=
  ∀ (i : Instr) (s : State), admitted i s → s.budget = 0 → s.phase = .idle → ∃ t,
    exec i s = .next t ∧ CommandFrame s t [.wStart, .wStop] [1, 4, 0] ∧
    t.result = ⟨true, 0, 0, .timeout⟩ ∧ t.answers = s.answers ∧
    t.acken = s.acken ∧ t.rxbuf = s.rxbuf ∧ t.byteidx = 0 ∧ t.pollcnt = 0 ∧ t.fail = .timeout

/-- R93, R120 (a), R136 and the source's property E8: a peer that does not acknowledge its address ends
every command with `Nack` after one pass, with the nine events of vectors V6 and V21, nothing sent or received. -/
def Obligations.AddressNackEndsEveryCommand : Prop :=
  ∀ (i : Instr) (s : State) (rest : List LineAnswer), admitted i s → s.budget ≠ 0 → s.phase = .idle →
    s.answers = script [.rSr1 ⟨true, false, false, false, false⟩, .rSr1 ⟨false, false, false, false, true⟩, .rSr2 true,
      .rSr1 ⟨false, false, false, false, true⟩, .rSr2 false] ++ rest → ∃ t,
    exec i s = .next t ∧
    CommandFrame s t [.wStart, .rSr1 ⟨true, false, false, false, false⟩, .wDr (device i ++ firstDirection i),
      .rSr1 ⟨false, false, false, false, true⟩, .rSr2 true, .rSr1 ⟨false, false, false, false, true⟩, .wAfClr,
      .wStop, .rSr2 false] [1, 4, 0] ∧
    t.result = ⟨true, 0, 0, .nack⟩ ∧ t.acken = s.acken ∧ t.rxbuf = s.rxbuf ∧ t.byteidx = 0 ∧ t.fail = .nack

/-- R164 under the premise LC3 of R57: while an `AF` that was seen and not cleared is set, no admitted
command ends `Ok`: it times out or reports `Nack`, whichever peer it addresses. -/
def Obligations.StaleAcknowledgeFailureBlocksOk : Prop :=
  ∀ (i : Instr) (s t : State), admitted i s → exec i s = .next t →
    (trackOf s.history).afSeen = true → LC3 t.history = true →
    t.result.code = .timeout ∨ t.result.code = .nack

/-- R12, R136: a command changes none of `CMD`, `BUDGET`, `CTRL`, `TXBUF`, no input and no parameter; every
byte of `TXBUF` reads as before. -/
def Obligations.CommandsLeaveTheHostsRegisters : Prop :=
  ∀ (i : Instr) (s t : State), exec i s = .next t →
    t.cmd = s.cmd ∧ t.budget = s.budget ∧ t.ctrl = s.ctrl ∧ t.txbuf = s.txbuf ∧ (∀ j, t.txByte j = s.txByte j) ∧
    t.base = s.base ∧ t.hostRead = s.hostRead ∧ t.inputs = s.inputs ∧ t.epoch = s.epoch

/-- R13: `RXBUF` is written by `RBUF` and `RRAWB` only, and there only below the length asked for. -/
def Obligations.OnlyBufferReadsWriteRxbuf : Prop :=
  ∀ (i : Instr) (s t : State), exec i s = .next t →
    (writesRxbuf i = false → t.rxbuf = s.rxbuf) ∧
    (∀ j, (okCount i).toNat ≤ j → t.rxByte j = s.rxByte j)

/-- R16, R165 (c): `ACKEN` is written by the read commands only, and a read command that ends `Ok` leaves
it 0. -/
def Obligations.AckenIsWrittenByReadsOnly : Prop :=
  ∀ (i : Instr) (s t : State), exec i s = .next t →
    (isRead i = false → t.acken = s.acken) ∧ (isRead i = true → t.result.code = .ok → t.acken = false)

/-- R15, R136 (c): after a command that passed admission `FAIL` is the code it reports: `Ok`, or the first
failure, the final stop's included. Where `FAIL` is written is the model's reading (log entry 9). -/
def Obligations.FailHoldsTheFirstFailure : Prop :=
  ∀ (i : Instr) (s t : State), admitted i s → exec i s = .next t → t.fail = t.result.code

/-- R15: the working registers carry nothing from one command to the next. -/
def Obligations.WorkingRegistersCarryNothingOver : Prop :=
  ∀ (i : Instr) (s : State) (idx : Len) (cnt : Word) (fail : Result), admitted i s →
    exec i { s with byteidx := idx, pollcnt := cnt, fail := fail } = exec i s

/-- R23: `FAST` is read by no rule: under the other clock-speed profile a command does the same. -/
def Obligations.FastIsReadByNoRule : Prop :=
  ∀ (i : Instr) (s t : State) (f : Bool), exec i s = .next t →
    exec i { s with ctrl := { s.ctrl with fast := f } } = .next { t with ctrl := { t.ctrl with fast := f } }

/-- R21, R24, R29: a command is forgotten but for `CMD` and `RESULT`: what the last command left in
`RESULT` has no effect on the next one. -/
def Obligations.EarlierResultHasNoEffect : Prop :=
  ∀ (i : Instr) (s : State) (r : ResultReg) (w : Word) (t : State), exec i s = .next t →
    exec i { s with result := r, cmd := w } = .next { t with cmd := w }

/-- R46, R47 and 95_test_vectors.md section 0: the engine is deterministic given the answers. Fed the
answers its history records, in that order, a command makes the same accesses, ends in the same state,
and leaves the answers after them untouched, whatever first answered it.
The form of the answers is the model's (log entry 1). -/
def Obligations.HistoryIsTheScriptOfTheOracle : Prop :=
  ∀ (i : Instr) (s t : State), exec i s = .next t → ∃ evs, t.history = s.history ++ evs ∧
    ∀ rest, exec i { s with answers := script evs ++ rest } = .next { t with answers := rest }

/-- R78, R112, R121, R123 (corner cases): commands that make the same line accesses and end with the same
code: `RBUF` of one byte and `RREG`, `RRAWB` of one byte and `RRAW`, `WBUF` of one byte and `WRAW` of that byte. -/
def Obligations.OneByteFormsMakeTheSameAccesses : Prop :=
  ∀ (dev : DevAddr) (reg : Byte) (s : State) (t u : State),
    (exec (.rreg dev reg) s = .next t → exec (.rbuf dev reg 1) s = .next u →
      u = { t with rxbuf := u.rxbuf, result := { t.result with data := 0 } } ∧
      (t.result.code = .ok → u.rxByte 0 = t.result.data)) ∧
    (exec (.rraw dev) s = .next t → exec (.rrawb dev 1) s = .next u →
      u = { t with rxbuf := u.rxbuf, result := { t.result with data := 0 } } ∧
      (t.result.code = .ok → u.rxByte 0 = t.result.data)) ∧
    exec (.wraw dev (s.txByte 0)) s = exec (.wbuf dev 1) s

/-- R90, R141: no poll takes more samples than the budget: after a command that passed admission `POLLCNT`
is at most `BUDGET`. -/
def Obligations.PollCountStaysWithinTheBudget : Prop :=
  ∀ (i : Instr) (s t : State), admitted i s → exec i s = .next t → t.pollcnt.toNat ≤ s.budget.toNat

/-! The result word. -/

/-- R101: `Finish` latches the first failure; the final stop's failure counts only when every step before
it was `Ok`; a failure carries no byte and no count; nothing else changes. -/
def Obligations.FinishLatchesTheFirstFailure : Prop :=
  ∀ (r st : Result) (data : Byte) (count : Len) (s : State),
    finish r st data count s = { s with result :=
      if r ≠ .ok then ⟨true, 0, 0, r⟩ else if st ≠ .ok then ⟨true, 0, 0, st⟩ else ⟨true, count, data, .ok⟩ }

/-- R24, R76, R130: `RESULT` as the host reads it, field by field. -/
def Obligations.ResultWordHoldsItsFields : Prop :=
  ∀ r : ResultReg, r.word.getLsbD 31 = r.done ∧ r.word.extractLsb' 29 2 = 0 ∧ r.word.extractLsb' 16 13 = r.count ∧
    r.word.extractLsb' 8 8 = r.data ∧ r.word.extractLsb' 2 6 = 0 ∧
    r.word.extractLsb' 0 2 = (match r.code with | .ok => 0#2 | .timeout => 1#2 | .nack => 2#2 | .error => 3#2)

/-! The host side. -/

/-- R42, R80, R100: a step whose input writes a command's word to `CMD` is that command in the state with
the latch loaded and the input taken. The host's form is the model's (log entries 3, 5, 25). -/
def Obligations.StepRunsTheDecodedCommand : Prop :=
  ∀ (s : State) (w : Word) (i : Instr) (rest : List Input),
    s.inputs = .memWrite s.base 4 w :: rest → decode w = .ok i →
    step s = exec i { s with inputs := rest, cmd := w }

/-- R74, R100: an invalid word written to `CMD` (a reserved opcode, or a must-be-zero field that is not
zero) is latched in `CMD`, ends with `Error`, makes no line access and changes nothing else.
The host's form is the model's (log entries 3, 5, 25). -/
def Obligations.InvalidWordEndsErrorWithoutLineAccess : Prop :=
  ∀ (s : State) (w : Word) (rest : List Input), s.inputs = .memWrite s.base 4 w :: rest →
    ((w.extractLsb' 28 4 = 0#4 ∨ 0x8#4 ≤ w.extractLsb' 28 4) ∨
      ∃ r ∈ opcodeRows, w.extractLsb' 28 4 = r.op.bits ∧ w &&& r.mask ≠ r.pattern) →
    step s = .next { s with inputs := rest, cmd := w, result := ⟨true, 0, 0, .error⟩ }

/-- R21 to R24, R41: reads of the four registers, and that a read changes nothing of the block.
The host's form is the model's (log entries 3, 5, 6, 25). -/
def Obligations.HostReadsTheRegisters : Prop :=
  ∀ (s : State) (offset : Nat) (rest : List Input), s.inputs = .memRead (s.base + offset) 4 :: rest →
    (offset = 0x0 → step s = .next { s with inputs := rest, hostRead := some s.cmd }) ∧
    (offset = 0x4 → step s = .next { s with inputs := rest, hostRead := some s.result.word }) ∧
    (offset = 0x8 → step s = .next { s with inputs := rest, hostRead := some s.budget }) ∧
    (offset = 0xC → step s = .next { s with
      inputs := rest, hostRead := some (0#30 ++ BitVec.ofBool s.ctrl.fast ++ BitVec.ofBool s.ctrl.en) })

/-- R12, R13, R41: reads of the two buffer windows, one byte at a time.
The host's form is the model's (log entries 3, 5, 6, 25). -/
def Obligations.HostReadsTheBuffers : Prop :=
  ∀ (s : State) (k : Nat) (rest : List Input), k < 8192 →
    (s.inputs = .memRead (s.base + 0x2000 + k) 1 :: rest →
      step s = .next { s with inputs := rest, hostRead := some ((s.txByte k).setWidth 32) }) ∧
    (s.inputs = .memRead (s.base + 0x4000 + k) 1 :: rest →
      step s = .next { s with inputs := rest, hostRead := some ((s.rxByte k).setWidth 32) })

/-- R22, R23, R24, R41: writes of the registers other than `CMD`: all bits of `BUDGET`, only `EN` and `FAST`
of `CTRL`, nothing of `RESULT`. The host's form is the model's (log entries 3, 5, 25). -/
def Obligations.HostWritesTheRegisters : Prop :=
  ∀ (s : State) (offset : Nat) (v : Word) (rest : List Input), s.inputs = .memWrite (s.base + offset) 4 v :: rest →
    (offset = 0x4 → step s = .next { s with inputs := rest }) ∧
    (offset = 0x8 → step s = .next { s with inputs := rest, budget := v }) ∧
    (offset = 0xC → ∃ t, step s = .next t ∧ t = { s with inputs := rest, ctrl := t.ctrl } ∧
      t.ctrl.en = v.getLsbD 0 ∧ t.ctrl.fast = v.getLsbD 1 ∧ t.ctrl.word = v &&& 3)

/-- R12, R13, R41: a write of a `TXBUF` byte stores its value there, every other byte reads as before and
the canonical form is kept; a write to `RXBUF` changes nothing.
The host's form and the canonical form are the model's (log entries 2, 3, 5, 14, 25). -/
def Obligations.HostWritesTheBuffers : Prop :=
  ∀ (s : State) (k : Nat) (v : Byte) (rest : List Input), k < 8192 →
    (s.inputs = .memWrite (s.base + 0x2000 + k) 1 (v.setWidth 32) :: rest → ∃ t, step s = .next t ∧
      t = { s with inputs := rest, txbuf := t.txbuf } ∧ (∀ j, t.txByte j = if j = k then v else s.txByte j) ∧
      (s.txbuf.wf = true → t.txbuf.wf = true)) ∧
    (s.inputs = .memWrite (s.base + 0x4000 + k) 1 (v.setWidth 32) :: rest → step s = .next { s with inputs := rest })

/-- R40, R49, U6: an access of another width, misaligned, or to an offset that names nothing is refused by
name, read or write; so is one outside the block (log entries 7, 25). -/
def Obligations.UndefinedHostAccessIsRefused : Prop :=
  ∀ (s : State) (addr n : Nat) (v : Word) (rest : List Input),
    ¬(n = 4 ∧ (addr = s.base ∨ addr = s.base + 0x4 ∨ addr = s.base + 0x8 ∨ addr = s.base + 0xC)) →
    ¬(n = 1 ∧ s.base + 0x2000 ≤ addr ∧ addr ≤ s.base + 0x5FFF) →
    (s.inputs = .memRead addr n :: rest → step s = .refused (.undefinedHostAccess addr n)) ∧
    (s.inputs = .memWrite addr n v :: rest → step s = .refused (.undefinedHostAccess addr n))

/-- R46, R144 with U6: the machine stops on nothing but an undefined host access. -/
def Obligations.OnlyUndefinedAccessesStopTheMachine : Prop :=
  ∀ s : State, (∃ t, step s = .next t) ∨
    ∃ addr n rest, step s = .refused (.undefinedHostAccess addr n) ∧
      (s.inputs = .memRead addr n :: rest ∨ ∃ v, s.inputs = .memWrite addr n v :: rest)

/-- R146, R160: with no input pending the block waits; it makes no line access by itself.
That a step then changes nothing is the model's choice (log entry 5). -/
def Obligations.WaitingBlockDoesNothing : Prop :=
  ∀ s : State, s.inputs = [] → step s = .next s

/-- R28: the registers after reset. -/
def Obligations.ResetLeavesTheRegistersAtTheirValues : Prop :=
  State.reset.phase = .idle ∧ State.reset.cmd = 0 ∧ State.reset.result.word = 0 ∧ State.reset.budget = 0 ∧
  State.reset.ctrl.word = 0 ∧ State.reset.acken = false ∧ State.reset.byteidx = 0 ∧ State.reset.pollcnt = 0 ∧
  State.reset.fail = .ok ∧ State.reset.history = [] ∧ State.reset.dbgPhase = 0

/-- R160: the reset input gives every piece of engine state its reset value, and every byte of both
buffers a fresh unspecified one; host, environment and `BASE` stay (log entry 11).
The free values are log entry 2. -/
def Obligations.ResetInputResetsTheEngine : Prop :=
  ∀ (s : State) (rest : List Input), s.inputs = .reset :: rest → ∃ t, step s = .next t ∧
    t.phase = .idle ∧ t.cmd = 0 ∧ t.result = ⟨false, 0, 0, .ok⟩ ∧ t.budget = 0 ∧ t.ctrl = ⟨false, false⟩ ∧
    t.acken = false ∧ t.byteidx = 0 ∧ t.pollcnt = 0 ∧ t.fail = .ok ∧ t.history = [] ∧ t.dbgPhase = 0 ∧
    (∀ j, t.txByte j = Config.txInit (s.epoch + 1) j) ∧ (∀ j, t.rxByte j = Config.rxInit (s.epoch + 1) j) ∧
    t.base = s.base ∧ t.inputs = rest ∧ t.answers = s.answers

/-! The invariant. -/

/-- The invariant holds after reset. -/
def Obligations.ResetMeetsTheInvariant : Prop := State.reset.Inv

/-- R14, R24, R132, R137, R145, U8: from every state that meets the invariant, every step that answers a
next state keeps it: between host accesses `PHASE` is `Idle`, the port has moved along the arrows, no
transaction is left open, every line access stood where it may stand, both buffers are in canonical form.
The canonical form is the model's own (log entry 2). -/
def Obligations.EveryStepKeepsTheInvariant : Prop :=
  ∀ s t : State, s.Inv → step s = .next t → t.Inv
end

