-- ==== Sys2Proof/Laws/Memory.lean ====
section
/-! SUPPORT. The laws of the buffers: read after write, the canonical form is kept, and equal buffers are equal lists. -/

namespace Sys2Proof.Machine

open Sys2Proof

theorem Memory.lookup_store (m : Memory) (i j : Nat) (v : Byte) :
    (m.store i v).lookup j = if j = i then some v else m.lookup j := by
  induction m with
  | nil => by_cases h : i = j <;> simp [store, lookup, @eq_comm _ j i, h]
  | cons c m ih =>
    unfold store
    split
    · by_cases h : i = j <;> simp [lookup, @eq_comm _ j i, h]
    · split
      · next hc =>
        by_cases h : i = j <;> simp [lookup, hc, @eq_comm _ j i, h]
      · next hc =>
        by_cases h : c.1 = j
        · subst h; simp [lookup, hc]
        · simp [lookup, h, ih]

@[simp] theorem Memory.lookup_store_same (m : Memory) (i : Nat) (v : Byte) : (m.store i v).lookup i = some v := by
  simp [lookup_store]

theorem Memory.lookup_store_ne (m : Memory) {i j : Nat} (v : Byte) (h : j ≠ i) :
    (m.store i v).lookup j = m.lookup j := by
  simp [lookup_store, h]

theorem Memory.risingFrom_mono {lo lo' : Nat} {m : Memory} (h : risingFrom lo m = true) (hle : lo' ≤ lo) :
    risingFrom lo' m = true := by
  cases m with
  | nil => rfl
  | cons c m =>
    simp only [risingFrom, Bool.and_eq_true, decide_eq_true_eq] at h ⊢
    exact ⟨⟨hle.trans h.1.1, h.1.2⟩, h.2⟩

theorem Memory.risingFrom_store {lo i : Nat} {m : Memory} (v : Byte) (h : risingFrom lo m = true) (hlo : lo ≤ i)
    (hi : i < bufDepth) : risingFrom lo (m.store i v) = true := by
  induction m generalizing lo with
  | nil => simp [store, risingFrom, hlo, hi]
  | cons c m ih =>
    simp only [risingFrom, Bool.and_eq_true, decide_eq_true_eq] at h
    unfold store
    split
    · simp [risingFrom, h, hlo, hi]; omega
    · split
      · next hc => subst hc; simp [risingFrom, h]
      · simp [risingFrom, h, ih h.2 (by omega)]

/-- A write inside the buffer keeps the canonical form. -/
theorem Memory.wf_store {m : Memory} {i : Nat} (v : Byte) (h : m.wf = true) (hi : i < bufDepth) :
    (m.store i v).wf = true :=
  risingFrom_store v h (Nat.zero_le i) hi

theorem Memory.lookup_below {lo i : Nat} {m : Memory} (h : risingFrom lo m = true) (hi : i < lo) :
    m.lookup i = none := by
  induction m generalizing lo with
  | nil => rfl
  | cons c m ih =>
    simp only [risingFrom, Bool.and_eq_true, decide_eq_true_eq] at h
    rw [lookup, if_neg (by omega), ih h.2 (by omega)]

theorem Memory.eq_of_lookup_from {lo : Nat} {m m' : Memory} (h : risingFrom lo m = true) (h' : risingFrom lo m' = true)
    (heq : ∀ i, m.lookup i = m'.lookup i) : m = m' := by
  induction m generalizing lo m' with
  | nil =>
    cases m' with
    | nil => rfl
    | cons c' m' => simpa [lookup] using heq c'.1
  | cons c m ih =>
    cases m' with
    | nil => simpa [lookup] using heq c.1
    | cons c' m' =>
      simp only [risingFrom, Bool.and_eq_true, decide_eq_true_eq] at h h'
      have hkey : c.1 = c'.1 := by
        rcases Nat.lt_trichotomy c.1 c'.1 with hlt | he | hlt
        · have := heq c.1
          rw [lookup, if_pos rfl, lookup, if_neg (by omega), lookup_below h'.2 (by omega)] at this
          cases this
        · exact he
        · have := heq c'.1
          rw [lookup, if_neg (by omega), lookup_below h.2 (by omega), lookup, if_pos rfl] at this
          cases this
      have hval : c.2 = c'.2 := by simpa [lookup, hkey] using heq c'.1
      have htail : m = m' := by
        refine ih h.2 (hkey ▸ h'.2) fun i => ?_
        by_cases hi : i < c.1 + 1
        · rw [lookup_below h.2 hi, lookup_below h'.2 (hkey ▸ hi)]
        · have := heq i
          rwa [lookup, if_neg (by omega), lookup, if_neg (by omega)] at this
      rw [htail, Prod.ext hkey hval]

/-- Buffers in canonical form that read alike are the same list. -/
theorem Memory.eq_of_lookup {m m' : Memory} (h : m.wf = true) (h' : m'.wf = true) (heq : ∀ i, m.lookup i = m'.lookup i) :
    m = m' :=
  eq_of_lookup_from h h' heq

/-! The same through the state's reads of one byte. -/

theorem putRxbuf_rxByte (i j : Nat) (v : Byte) (s : State) :
    (putRxbuf i v s).rxByte j = if j = i then v else s.rxByte j := by
  by_cases h : j = i <;> simp [State.rxByte, putRxbuf, Memory.lookup_store, h]

@[simp] theorem putRxbuf_txByte (i j : Nat) (v : Byte) (s : State) : (putRxbuf i v s).txByte j = s.txByte j := rfl

theorem State.setTxByte_txByte (s : State) (i j : Nat) (v : Byte) :
    (s.setTxByte i v).txByte j = if j = i then v else s.txByte j := by
  by_cases h : j = i <;> simp [State.txByte, State.setTxByte, Memory.lookup_store, h]

@[simp] theorem State.setTxByte_rxByte (s : State) (i j : Nat) (v : Byte) : (s.setTxByte i v).rxByte j = s.rxByte j := rfl

end Sys2Proof.Machine
end

