-- ==== Sys2Proof/Laws/State.lean ====
section
/-! SUPPORT. One lemma per field per update, so that no proof unfolds a record update. -/

namespace Sys2Proof.Machine

open Sys2Proof

/-! `setCmd` -/

@[simp] theorem State.setCmd_cmd (s : State) (w : Word) : (s.setCmd w).cmd = w := rfl
@[simp] theorem State.setCmd_result (s : State) (w : Word) : (s.setCmd w).result = s.result := rfl
@[simp] theorem State.setCmd_budget (s : State) (w : Word) : (s.setCmd w).budget = s.budget := rfl
@[simp] theorem State.setCmd_ctrl (s : State) (w : Word) : (s.setCmd w).ctrl = s.ctrl := rfl
@[simp] theorem State.setCmd_txbuf (s : State) (w : Word) : (s.setCmd w).txbuf = s.txbuf := rfl
@[simp] theorem State.setCmd_rxbuf (s : State) (w : Word) : (s.setCmd w).rxbuf = s.rxbuf := rfl
@[simp] theorem State.setCmd_phase (s : State) (w : Word) : (s.setCmd w).phase = s.phase := rfl
@[simp] theorem State.setCmd_byteidx (s : State) (w : Word) : (s.setCmd w).byteidx = s.byteidx := rfl
@[simp] theorem State.setCmd_pollcnt (s : State) (w : Word) : (s.setCmd w).pollcnt = s.pollcnt := rfl
@[simp] theorem State.setCmd_fail (s : State) (w : Word) : (s.setCmd w).fail = s.fail := rfl
@[simp] theorem State.setCmd_acken (s : State) (w : Word) : (s.setCmd w).acken = s.acken := rfl
@[simp] theorem State.setCmd_history (s : State) (w : Word) : (s.setCmd w).history = s.history := rfl
@[simp] theorem State.setCmd_dbgLog (s : State) (w : Word) : (s.setCmd w).dbgLog = s.dbgLog := rfl
@[simp] theorem State.setCmd_base (s : State) (w : Word) : (s.setCmd w).base = s.base := rfl
@[simp] theorem State.setCmd_hostRead (s : State) (w : Word) : (s.setCmd w).hostRead = s.hostRead := rfl
@[simp] theorem State.setCmd_inputs (s : State) (w : Word) : (s.setCmd w).inputs = s.inputs := rfl
@[simp] theorem State.setCmd_answers (s : State) (w : Word) : (s.setCmd w).answers = s.answers := rfl
@[simp] theorem State.setCmd_epoch (s : State) (w : Word) : (s.setCmd w).epoch = s.epoch := rfl

/-! `setResult` -/

@[simp] theorem State.setResult_cmd (s : State) (r : ResultReg) : (s.setResult r).cmd = s.cmd := rfl
@[simp] theorem State.setResult_result (s : State) (r : ResultReg) : (s.setResult r).result = r := rfl
@[simp] theorem State.setResult_budget (s : State) (r : ResultReg) : (s.setResult r).budget = s.budget := rfl
@[simp] theorem State.setResult_ctrl (s : State) (r : ResultReg) : (s.setResult r).ctrl = s.ctrl := rfl
@[simp] theorem State.setResult_txbuf (s : State) (r : ResultReg) : (s.setResult r).txbuf = s.txbuf := rfl
@[simp] theorem State.setResult_rxbuf (s : State) (r : ResultReg) : (s.setResult r).rxbuf = s.rxbuf := rfl
@[simp] theorem State.setResult_phase (s : State) (r : ResultReg) : (s.setResult r).phase = s.phase := rfl
@[simp] theorem State.setResult_byteidx (s : State) (r : ResultReg) : (s.setResult r).byteidx = s.byteidx := rfl
@[simp] theorem State.setResult_pollcnt (s : State) (r : ResultReg) : (s.setResult r).pollcnt = s.pollcnt := rfl
@[simp] theorem State.setResult_fail (s : State) (r : ResultReg) : (s.setResult r).fail = s.fail := rfl
@[simp] theorem State.setResult_acken (s : State) (r : ResultReg) : (s.setResult r).acken = s.acken := rfl
@[simp] theorem State.setResult_history (s : State) (r : ResultReg) : (s.setResult r).history = s.history := rfl
@[simp] theorem State.setResult_dbgLog (s : State) (r : ResultReg) : (s.setResult r).dbgLog = s.dbgLog := rfl
@[simp] theorem State.setResult_base (s : State) (r : ResultReg) : (s.setResult r).base = s.base := rfl
@[simp] theorem State.setResult_hostRead (s : State) (r : ResultReg) : (s.setResult r).hostRead = s.hostRead := rfl
@[simp] theorem State.setResult_inputs (s : State) (r : ResultReg) : (s.setResult r).inputs = s.inputs := rfl
@[simp] theorem State.setResult_answers (s : State) (r : ResultReg) : (s.setResult r).answers = s.answers := rfl
@[simp] theorem State.setResult_epoch (s : State) (r : ResultReg) : (s.setResult r).epoch = s.epoch := rfl

/-! `setBudget` -/

@[simp] theorem State.setBudget_cmd (s : State) (v : Word) : (s.setBudget v).cmd = s.cmd := rfl
@[simp] theorem State.setBudget_result (s : State) (v : Word) : (s.setBudget v).result = s.result := rfl
@[simp] theorem State.setBudget_budget (s : State) (v : Word) : (s.setBudget v).budget = v := rfl
@[simp] theorem State.setBudget_ctrl (s : State) (v : Word) : (s.setBudget v).ctrl = s.ctrl := rfl
@[simp] theorem State.setBudget_txbuf (s : State) (v : Word) : (s.setBudget v).txbuf = s.txbuf := rfl
@[simp] theorem State.setBudget_rxbuf (s : State) (v : Word) : (s.setBudget v).rxbuf = s.rxbuf := rfl
@[simp] theorem State.setBudget_phase (s : State) (v : Word) : (s.setBudget v).phase = s.phase := rfl
@[simp] theorem State.setBudget_byteidx (s : State) (v : Word) : (s.setBudget v).byteidx = s.byteidx := rfl
@[simp] theorem State.setBudget_pollcnt (s : State) (v : Word) : (s.setBudget v).pollcnt = s.pollcnt := rfl
@[simp] theorem State.setBudget_fail (s : State) (v : Word) : (s.setBudget v).fail = s.fail := rfl
@[simp] theorem State.setBudget_acken (s : State) (v : Word) : (s.setBudget v).acken = s.acken := rfl
@[simp] theorem State.setBudget_history (s : State) (v : Word) : (s.setBudget v).history = s.history := rfl
@[simp] theorem State.setBudget_dbgLog (s : State) (v : Word) : (s.setBudget v).dbgLog = s.dbgLog := rfl
@[simp] theorem State.setBudget_base (s : State) (v : Word) : (s.setBudget v).base = s.base := rfl
@[simp] theorem State.setBudget_hostRead (s : State) (v : Word) : (s.setBudget v).hostRead = s.hostRead := rfl
@[simp] theorem State.setBudget_inputs (s : State) (v : Word) : (s.setBudget v).inputs = s.inputs := rfl
@[simp] theorem State.setBudget_answers (s : State) (v : Word) : (s.setBudget v).answers = s.answers := rfl
@[simp] theorem State.setBudget_epoch (s : State) (v : Word) : (s.setBudget v).epoch = s.epoch := rfl

/-! `setCtrl` -/

@[simp] theorem State.setCtrl_cmd (s : State) (c : Ctrl) : (s.setCtrl c).cmd = s.cmd := rfl
@[simp] theorem State.setCtrl_result (s : State) (c : Ctrl) : (s.setCtrl c).result = s.result := rfl
@[simp] theorem State.setCtrl_budget (s : State) (c : Ctrl) : (s.setCtrl c).budget = s.budget := rfl
@[simp] theorem State.setCtrl_ctrl (s : State) (c : Ctrl) : (s.setCtrl c).ctrl = c := rfl
@[simp] theorem State.setCtrl_txbuf (s : State) (c : Ctrl) : (s.setCtrl c).txbuf = s.txbuf := rfl
@[simp] theorem State.setCtrl_rxbuf (s : State) (c : Ctrl) : (s.setCtrl c).rxbuf = s.rxbuf := rfl
@[simp] theorem State.setCtrl_phase (s : State) (c : Ctrl) : (s.setCtrl c).phase = s.phase := rfl
@[simp] theorem State.setCtrl_byteidx (s : State) (c : Ctrl) : (s.setCtrl c).byteidx = s.byteidx := rfl
@[simp] theorem State.setCtrl_pollcnt (s : State) (c : Ctrl) : (s.setCtrl c).pollcnt = s.pollcnt := rfl
@[simp] theorem State.setCtrl_fail (s : State) (c : Ctrl) : (s.setCtrl c).fail = s.fail := rfl
@[simp] theorem State.setCtrl_acken (s : State) (c : Ctrl) : (s.setCtrl c).acken = s.acken := rfl
@[simp] theorem State.setCtrl_history (s : State) (c : Ctrl) : (s.setCtrl c).history = s.history := rfl
@[simp] theorem State.setCtrl_dbgLog (s : State) (c : Ctrl) : (s.setCtrl c).dbgLog = s.dbgLog := rfl
@[simp] theorem State.setCtrl_base (s : State) (c : Ctrl) : (s.setCtrl c).base = s.base := rfl
@[simp] theorem State.setCtrl_hostRead (s : State) (c : Ctrl) : (s.setCtrl c).hostRead = s.hostRead := rfl
@[simp] theorem State.setCtrl_inputs (s : State) (c : Ctrl) : (s.setCtrl c).inputs = s.inputs := rfl
@[simp] theorem State.setCtrl_answers (s : State) (c : Ctrl) : (s.setCtrl c).answers = s.answers := rfl
@[simp] theorem State.setCtrl_epoch (s : State) (c : Ctrl) : (s.setCtrl c).epoch = s.epoch := rfl

/-! `setTxByte` -/

@[simp] theorem State.setTxByte_cmd (s : State) (i : Nat) (v : Byte) : (s.setTxByte i v).cmd = s.cmd := rfl
@[simp] theorem State.setTxByte_result (s : State) (i : Nat) (v : Byte) : (s.setTxByte i v).result = s.result := rfl
@[simp] theorem State.setTxByte_budget (s : State) (i : Nat) (v : Byte) : (s.setTxByte i v).budget = s.budget := rfl
@[simp] theorem State.setTxByte_ctrl (s : State) (i : Nat) (v : Byte) : (s.setTxByte i v).ctrl = s.ctrl := rfl
@[simp] theorem State.setTxByte_txbuf (s : State) (i : Nat) (v : Byte) : (s.setTxByte i v).txbuf = s.txbuf.store i v := rfl
@[simp] theorem State.setTxByte_rxbuf (s : State) (i : Nat) (v : Byte) : (s.setTxByte i v).rxbuf = s.rxbuf := rfl
@[simp] theorem State.setTxByte_phase (s : State) (i : Nat) (v : Byte) : (s.setTxByte i v).phase = s.phase := rfl
@[simp] theorem State.setTxByte_byteidx (s : State) (i : Nat) (v : Byte) : (s.setTxByte i v).byteidx = s.byteidx := rfl
@[simp] theorem State.setTxByte_pollcnt (s : State) (i : Nat) (v : Byte) : (s.setTxByte i v).pollcnt = s.pollcnt := rfl
@[simp] theorem State.setTxByte_fail (s : State) (i : Nat) (v : Byte) : (s.setTxByte i v).fail = s.fail := rfl
@[simp] theorem State.setTxByte_acken (s : State) (i : Nat) (v : Byte) : (s.setTxByte i v).acken = s.acken := rfl
@[simp] theorem State.setTxByte_history (s : State) (i : Nat) (v : Byte) : (s.setTxByte i v).history = s.history := rfl
@[simp] theorem State.setTxByte_dbgLog (s : State) (i : Nat) (v : Byte) : (s.setTxByte i v).dbgLog = s.dbgLog := rfl
@[simp] theorem State.setTxByte_base (s : State) (i : Nat) (v : Byte) : (s.setTxByte i v).base = s.base := rfl
@[simp] theorem State.setTxByte_hostRead (s : State) (i : Nat) (v : Byte) : (s.setTxByte i v).hostRead = s.hostRead := rfl
@[simp] theorem State.setTxByte_inputs (s : State) (i : Nat) (v : Byte) : (s.setTxByte i v).inputs = s.inputs := rfl
@[simp] theorem State.setTxByte_answers (s : State) (i : Nat) (v : Byte) : (s.setTxByte i v).answers = s.answers := rfl
@[simp] theorem State.setTxByte_epoch (s : State) (i : Nat) (v : Byte) : (s.setTxByte i v).epoch = s.epoch := rfl

/-! `setByteidx` -/

@[simp] theorem State.setByteidx_cmd (s : State) (v : Len) : (s.setByteidx v).cmd = s.cmd := rfl
@[simp] theorem State.setByteidx_result (s : State) (v : Len) : (s.setByteidx v).result = s.result := rfl
@[simp] theorem State.setByteidx_budget (s : State) (v : Len) : (s.setByteidx v).budget = s.budget := rfl
@[simp] theorem State.setByteidx_ctrl (s : State) (v : Len) : (s.setByteidx v).ctrl = s.ctrl := rfl
@[simp] theorem State.setByteidx_txbuf (s : State) (v : Len) : (s.setByteidx v).txbuf = s.txbuf := rfl
@[simp] theorem State.setByteidx_rxbuf (s : State) (v : Len) : (s.setByteidx v).rxbuf = s.rxbuf := rfl
@[simp] theorem State.setByteidx_phase (s : State) (v : Len) : (s.setByteidx v).phase = s.phase := rfl
@[simp] theorem State.setByteidx_byteidx (s : State) (v : Len) : (s.setByteidx v).byteidx = v := rfl
@[simp] theorem State.setByteidx_pollcnt (s : State) (v : Len) : (s.setByteidx v).pollcnt = s.pollcnt := rfl
@[simp] theorem State.setByteidx_fail (s : State) (v : Len) : (s.setByteidx v).fail = s.fail := rfl
@[simp] theorem State.setByteidx_acken (s : State) (v : Len) : (s.setByteidx v).acken = s.acken := rfl
@[simp] theorem State.setByteidx_history (s : State) (v : Len) : (s.setByteidx v).history = s.history := rfl
@[simp] theorem State.setByteidx_dbgLog (s : State) (v : Len) : (s.setByteidx v).dbgLog = s.dbgLog := rfl
@[simp] theorem State.setByteidx_base (s : State) (v : Len) : (s.setByteidx v).base = s.base := rfl
@[simp] theorem State.setByteidx_hostRead (s : State) (v : Len) : (s.setByteidx v).hostRead = s.hostRead := rfl
@[simp] theorem State.setByteidx_inputs (s : State) (v : Len) : (s.setByteidx v).inputs = s.inputs := rfl
@[simp] theorem State.setByteidx_answers (s : State) (v : Len) : (s.setByteidx v).answers = s.answers := rfl
@[simp] theorem State.setByteidx_epoch (s : State) (v : Len) : (s.setByteidx v).epoch = s.epoch := rfl

/-! `setPollcnt` -/

@[simp] theorem State.setPollcnt_cmd (s : State) (v : Word) : (s.setPollcnt v).cmd = s.cmd := rfl
@[simp] theorem State.setPollcnt_result (s : State) (v : Word) : (s.setPollcnt v).result = s.result := rfl
@[simp] theorem State.setPollcnt_budget (s : State) (v : Word) : (s.setPollcnt v).budget = s.budget := rfl
@[simp] theorem State.setPollcnt_ctrl (s : State) (v : Word) : (s.setPollcnt v).ctrl = s.ctrl := rfl
@[simp] theorem State.setPollcnt_txbuf (s : State) (v : Word) : (s.setPollcnt v).txbuf = s.txbuf := rfl
@[simp] theorem State.setPollcnt_rxbuf (s : State) (v : Word) : (s.setPollcnt v).rxbuf = s.rxbuf := rfl
@[simp] theorem State.setPollcnt_phase (s : State) (v : Word) : (s.setPollcnt v).phase = s.phase := rfl
@[simp] theorem State.setPollcnt_byteidx (s : State) (v : Word) : (s.setPollcnt v).byteidx = s.byteidx := rfl
@[simp] theorem State.setPollcnt_pollcnt (s : State) (v : Word) : (s.setPollcnt v).pollcnt = v := rfl
@[simp] theorem State.setPollcnt_fail (s : State) (v : Word) : (s.setPollcnt v).fail = s.fail := rfl
@[simp] theorem State.setPollcnt_acken (s : State) (v : Word) : (s.setPollcnt v).acken = s.acken := rfl
@[simp] theorem State.setPollcnt_history (s : State) (v : Word) : (s.setPollcnt v).history = s.history := rfl
@[simp] theorem State.setPollcnt_dbgLog (s : State) (v : Word) : (s.setPollcnt v).dbgLog = s.dbgLog := rfl
@[simp] theorem State.setPollcnt_base (s : State) (v : Word) : (s.setPollcnt v).base = s.base := rfl
@[simp] theorem State.setPollcnt_hostRead (s : State) (v : Word) : (s.setPollcnt v).hostRead = s.hostRead := rfl
@[simp] theorem State.setPollcnt_inputs (s : State) (v : Word) : (s.setPollcnt v).inputs = s.inputs := rfl
@[simp] theorem State.setPollcnt_answers (s : State) (v : Word) : (s.setPollcnt v).answers = s.answers := rfl
@[simp] theorem State.setPollcnt_epoch (s : State) (v : Word) : (s.setPollcnt v).epoch = s.epoch := rfl

/-! `setFail` -/

@[simp] theorem State.setFail_cmd (s : State) (r : Result) : (s.setFail r).cmd = s.cmd := rfl
@[simp] theorem State.setFail_result (s : State) (r : Result) : (s.setFail r).result = s.result := rfl
@[simp] theorem State.setFail_budget (s : State) (r : Result) : (s.setFail r).budget = s.budget := rfl
@[simp] theorem State.setFail_ctrl (s : State) (r : Result) : (s.setFail r).ctrl = s.ctrl := rfl
@[simp] theorem State.setFail_txbuf (s : State) (r : Result) : (s.setFail r).txbuf = s.txbuf := rfl
@[simp] theorem State.setFail_rxbuf (s : State) (r : Result) : (s.setFail r).rxbuf = s.rxbuf := rfl
@[simp] theorem State.setFail_phase (s : State) (r : Result) : (s.setFail r).phase = s.phase := rfl
@[simp] theorem State.setFail_byteidx (s : State) (r : Result) : (s.setFail r).byteidx = s.byteidx := rfl
@[simp] theorem State.setFail_pollcnt (s : State) (r : Result) : (s.setFail r).pollcnt = s.pollcnt := rfl
@[simp] theorem State.setFail_fail (s : State) (r : Result) : (s.setFail r).fail = r := rfl
@[simp] theorem State.setFail_acken (s : State) (r : Result) : (s.setFail r).acken = s.acken := rfl
@[simp] theorem State.setFail_history (s : State) (r : Result) : (s.setFail r).history = s.history := rfl
@[simp] theorem State.setFail_dbgLog (s : State) (r : Result) : (s.setFail r).dbgLog = s.dbgLog := rfl
@[simp] theorem State.setFail_base (s : State) (r : Result) : (s.setFail r).base = s.base := rfl
@[simp] theorem State.setFail_hostRead (s : State) (r : Result) : (s.setFail r).hostRead = s.hostRead := rfl
@[simp] theorem State.setFail_inputs (s : State) (r : Result) : (s.setFail r).inputs = s.inputs := rfl
@[simp] theorem State.setFail_answers (s : State) (r : Result) : (s.setFail r).answers = s.answers := rfl
@[simp] theorem State.setFail_epoch (s : State) (r : Result) : (s.setFail r).epoch = s.epoch := rfl

/-! `setAcken` -/

@[simp] theorem State.setAcken_cmd (s : State) (b : Bool) : (s.setAcken b).cmd = s.cmd := rfl
@[simp] theorem State.setAcken_result (s : State) (b : Bool) : (s.setAcken b).result = s.result := rfl
@[simp] theorem State.setAcken_budget (s : State) (b : Bool) : (s.setAcken b).budget = s.budget := rfl
@[simp] theorem State.setAcken_ctrl (s : State) (b : Bool) : (s.setAcken b).ctrl = s.ctrl := rfl
@[simp] theorem State.setAcken_txbuf (s : State) (b : Bool) : (s.setAcken b).txbuf = s.txbuf := rfl
@[simp] theorem State.setAcken_rxbuf (s : State) (b : Bool) : (s.setAcken b).rxbuf = s.rxbuf := rfl
@[simp] theorem State.setAcken_phase (s : State) (b : Bool) : (s.setAcken b).phase = s.phase := rfl
@[simp] theorem State.setAcken_byteidx (s : State) (b : Bool) : (s.setAcken b).byteidx = s.byteidx := rfl
@[simp] theorem State.setAcken_pollcnt (s : State) (b : Bool) : (s.setAcken b).pollcnt = s.pollcnt := rfl
@[simp] theorem State.setAcken_fail (s : State) (b : Bool) : (s.setAcken b).fail = s.fail := rfl
@[simp] theorem State.setAcken_acken (s : State) (b : Bool) : (s.setAcken b).acken = b := rfl
@[simp] theorem State.setAcken_history (s : State) (b : Bool) : (s.setAcken b).history = s.history := rfl
@[simp] theorem State.setAcken_dbgLog (s : State) (b : Bool) : (s.setAcken b).dbgLog = s.dbgLog := rfl
@[simp] theorem State.setAcken_base (s : State) (b : Bool) : (s.setAcken b).base = s.base := rfl
@[simp] theorem State.setAcken_hostRead (s : State) (b : Bool) : (s.setAcken b).hostRead = s.hostRead := rfl
@[simp] theorem State.setAcken_inputs (s : State) (b : Bool) : (s.setAcken b).inputs = s.inputs := rfl
@[simp] theorem State.setAcken_answers (s : State) (b : Bool) : (s.setAcken b).answers = s.answers := rfl
@[simp] theorem State.setAcken_epoch (s : State) (b : Bool) : (s.setAcken b).epoch = s.epoch := rfl

/-! `setPhase` -/

@[simp] theorem State.setPhase_cmd (s : State) (p : Phase) : (s.setPhase p).cmd = s.cmd := rfl
@[simp] theorem State.setPhase_result (s : State) (p : Phase) : (s.setPhase p).result = s.result := rfl
@[simp] theorem State.setPhase_budget (s : State) (p : Phase) : (s.setPhase p).budget = s.budget := rfl
@[simp] theorem State.setPhase_ctrl (s : State) (p : Phase) : (s.setPhase p).ctrl = s.ctrl := rfl
@[simp] theorem State.setPhase_txbuf (s : State) (p : Phase) : (s.setPhase p).txbuf = s.txbuf := rfl
@[simp] theorem State.setPhase_rxbuf (s : State) (p : Phase) : (s.setPhase p).rxbuf = s.rxbuf := rfl
@[simp] theorem State.setPhase_phase (s : State) (p : Phase) : (s.setPhase p).phase = p := rfl
@[simp] theorem State.setPhase_byteidx (s : State) (p : Phase) : (s.setPhase p).byteidx = s.byteidx := rfl
@[simp] theorem State.setPhase_pollcnt (s : State) (p : Phase) : (s.setPhase p).pollcnt = s.pollcnt := rfl
@[simp] theorem State.setPhase_fail (s : State) (p : Phase) : (s.setPhase p).fail = s.fail := rfl
@[simp] theorem State.setPhase_acken (s : State) (p : Phase) : (s.setPhase p).acken = s.acken := rfl
@[simp] theorem State.setPhase_history (s : State) (p : Phase) : (s.setPhase p).history = s.history := rfl
@[simp] theorem State.setPhase_dbgLog (s : State) (p : Phase) : (s.setPhase p).dbgLog = if s.phase = p then s.dbgLog else s.dbgLog ++ [p.dbg] := rfl
@[simp] theorem State.setPhase_base (s : State) (p : Phase) : (s.setPhase p).base = s.base := rfl
@[simp] theorem State.setPhase_hostRead (s : State) (p : Phase) : (s.setPhase p).hostRead = s.hostRead := rfl
@[simp] theorem State.setPhase_inputs (s : State) (p : Phase) : (s.setPhase p).inputs = s.inputs := rfl
@[simp] theorem State.setPhase_answers (s : State) (p : Phase) : (s.setPhase p).answers = s.answers := rfl
@[simp] theorem State.setPhase_epoch (s : State) (p : Phase) : (s.setPhase p).epoch = s.epoch := rfl

/-! `record` -/

@[simp] theorem State.record_cmd (s : State) (e : LineEvent) : (s.record e).cmd = s.cmd := rfl
@[simp] theorem State.record_result (s : State) (e : LineEvent) : (s.record e).result = s.result := rfl
@[simp] theorem State.record_budget (s : State) (e : LineEvent) : (s.record e).budget = s.budget := rfl
@[simp] theorem State.record_ctrl (s : State) (e : LineEvent) : (s.record e).ctrl = s.ctrl := rfl
@[simp] theorem State.record_txbuf (s : State) (e : LineEvent) : (s.record e).txbuf = s.txbuf := rfl
@[simp] theorem State.record_rxbuf (s : State) (e : LineEvent) : (s.record e).rxbuf = s.rxbuf := rfl
@[simp] theorem State.record_phase (s : State) (e : LineEvent) : (s.record e).phase = s.phase := rfl
@[simp] theorem State.record_byteidx (s : State) (e : LineEvent) : (s.record e).byteidx = s.byteidx := rfl
@[simp] theorem State.record_pollcnt (s : State) (e : LineEvent) : (s.record e).pollcnt = s.pollcnt := rfl
@[simp] theorem State.record_fail (s : State) (e : LineEvent) : (s.record e).fail = s.fail := rfl
@[simp] theorem State.record_acken (s : State) (e : LineEvent) : (s.record e).acken = s.acken := rfl
@[simp] theorem State.record_history (s : State) (e : LineEvent) : (s.record e).history = s.history ++ [e] := rfl
@[simp] theorem State.record_dbgLog (s : State) (e : LineEvent) : (s.record e).dbgLog = s.dbgLog := rfl
@[simp] theorem State.record_base (s : State) (e : LineEvent) : (s.record e).base = s.base := rfl
@[simp] theorem State.record_hostRead (s : State) (e : LineEvent) : (s.record e).hostRead = s.hostRead := rfl
@[simp] theorem State.record_inputs (s : State) (e : LineEvent) : (s.record e).inputs = s.inputs := rfl
@[simp] theorem State.record_answers (s : State) (e : LineEvent) : (s.record e).answers = s.answers := rfl
@[simp] theorem State.record_epoch (s : State) (e : LineEvent) : (s.record e).epoch = s.epoch := rfl

/-! `setHostRead` -/

@[simp] theorem State.setHostRead_cmd (s : State) (v : Word) : (s.setHostRead v).cmd = s.cmd := rfl
@[simp] theorem State.setHostRead_result (s : State) (v : Word) : (s.setHostRead v).result = s.result := rfl
@[simp] theorem State.setHostRead_budget (s : State) (v : Word) : (s.setHostRead v).budget = s.budget := rfl
@[simp] theorem State.setHostRead_ctrl (s : State) (v : Word) : (s.setHostRead v).ctrl = s.ctrl := rfl
@[simp] theorem State.setHostRead_txbuf (s : State) (v : Word) : (s.setHostRead v).txbuf = s.txbuf := rfl
@[simp] theorem State.setHostRead_rxbuf (s : State) (v : Word) : (s.setHostRead v).rxbuf = s.rxbuf := rfl
@[simp] theorem State.setHostRead_phase (s : State) (v : Word) : (s.setHostRead v).phase = s.phase := rfl
@[simp] theorem State.setHostRead_byteidx (s : State) (v : Word) : (s.setHostRead v).byteidx = s.byteidx := rfl
@[simp] theorem State.setHostRead_pollcnt (s : State) (v : Word) : (s.setHostRead v).pollcnt = s.pollcnt := rfl
@[simp] theorem State.setHostRead_fail (s : State) (v : Word) : (s.setHostRead v).fail = s.fail := rfl
@[simp] theorem State.setHostRead_acken (s : State) (v : Word) : (s.setHostRead v).acken = s.acken := rfl
@[simp] theorem State.setHostRead_history (s : State) (v : Word) : (s.setHostRead v).history = s.history := rfl
@[simp] theorem State.setHostRead_dbgLog (s : State) (v : Word) : (s.setHostRead v).dbgLog = s.dbgLog := rfl
@[simp] theorem State.setHostRead_base (s : State) (v : Word) : (s.setHostRead v).base = s.base := rfl
@[simp] theorem State.setHostRead_hostRead (s : State) (v : Word) : (s.setHostRead v).hostRead = some v := rfl
@[simp] theorem State.setHostRead_inputs (s : State) (v : Word) : (s.setHostRead v).inputs = s.inputs := rfl
@[simp] theorem State.setHostRead_answers (s : State) (v : Word) : (s.setHostRead v).answers = s.answers := rfl
@[simp] theorem State.setHostRead_epoch (s : State) (v : Word) : (s.setHostRead v).epoch = s.epoch := rfl

/-! `setInputs` -/

@[simp] theorem State.setInputs_cmd (s : State) (l : List Input) : (s.setInputs l).cmd = s.cmd := rfl
@[simp] theorem State.setInputs_result (s : State) (l : List Input) : (s.setInputs l).result = s.result := rfl
@[simp] theorem State.setInputs_budget (s : State) (l : List Input) : (s.setInputs l).budget = s.budget := rfl
@[simp] theorem State.setInputs_ctrl (s : State) (l : List Input) : (s.setInputs l).ctrl = s.ctrl := rfl
@[simp] theorem State.setInputs_txbuf (s : State) (l : List Input) : (s.setInputs l).txbuf = s.txbuf := rfl
@[simp] theorem State.setInputs_rxbuf (s : State) (l : List Input) : (s.setInputs l).rxbuf = s.rxbuf := rfl
@[simp] theorem State.setInputs_phase (s : State) (l : List Input) : (s.setInputs l).phase = s.phase := rfl
@[simp] theorem State.setInputs_byteidx (s : State) (l : List Input) : (s.setInputs l).byteidx = s.byteidx := rfl
@[simp] theorem State.setInputs_pollcnt (s : State) (l : List Input) : (s.setInputs l).pollcnt = s.pollcnt := rfl
@[simp] theorem State.setInputs_fail (s : State) (l : List Input) : (s.setInputs l).fail = s.fail := rfl
@[simp] theorem State.setInputs_acken (s : State) (l : List Input) : (s.setInputs l).acken = s.acken := rfl
@[simp] theorem State.setInputs_history (s : State) (l : List Input) : (s.setInputs l).history = s.history := rfl
@[simp] theorem State.setInputs_dbgLog (s : State) (l : List Input) : (s.setInputs l).dbgLog = s.dbgLog := rfl
@[simp] theorem State.setInputs_base (s : State) (l : List Input) : (s.setInputs l).base = s.base := rfl
@[simp] theorem State.setInputs_hostRead (s : State) (l : List Input) : (s.setInputs l).hostRead = s.hostRead := rfl
@[simp] theorem State.setInputs_inputs (s : State) (l : List Input) : (s.setInputs l).inputs = l := rfl
@[simp] theorem State.setInputs_answers (s : State) (l : List Input) : (s.setInputs l).answers = s.answers := rfl
@[simp] theorem State.setInputs_epoch (s : State) (l : List Input) : (s.setInputs l).epoch = s.epoch := rfl

/-! `dropAnswer` -/

@[simp] theorem State.dropAnswer_cmd (s : State) : (s.dropAnswer).cmd = s.cmd := rfl
@[simp] theorem State.dropAnswer_result (s : State) : (s.dropAnswer).result = s.result := rfl
@[simp] theorem State.dropAnswer_budget (s : State) : (s.dropAnswer).budget = s.budget := rfl
@[simp] theorem State.dropAnswer_ctrl (s : State) : (s.dropAnswer).ctrl = s.ctrl := rfl
@[simp] theorem State.dropAnswer_txbuf (s : State) : (s.dropAnswer).txbuf = s.txbuf := rfl
@[simp] theorem State.dropAnswer_rxbuf (s : State) : (s.dropAnswer).rxbuf = s.rxbuf := rfl
@[simp] theorem State.dropAnswer_phase (s : State) : (s.dropAnswer).phase = s.phase := rfl
@[simp] theorem State.dropAnswer_byteidx (s : State) : (s.dropAnswer).byteidx = s.byteidx := rfl
@[simp] theorem State.dropAnswer_pollcnt (s : State) : (s.dropAnswer).pollcnt = s.pollcnt := rfl
@[simp] theorem State.dropAnswer_fail (s : State) : (s.dropAnswer).fail = s.fail := rfl
@[simp] theorem State.dropAnswer_acken (s : State) : (s.dropAnswer).acken = s.acken := rfl
@[simp] theorem State.dropAnswer_history (s : State) : (s.dropAnswer).history = s.history := rfl
@[simp] theorem State.dropAnswer_dbgLog (s : State) : (s.dropAnswer).dbgLog = s.dbgLog := rfl
@[simp] theorem State.dropAnswer_base (s : State) : (s.dropAnswer).base = s.base := rfl
@[simp] theorem State.dropAnswer_hostRead (s : State) : (s.dropAnswer).hostRead = s.hostRead := rfl
@[simp] theorem State.dropAnswer_inputs (s : State) : (s.dropAnswer).inputs = s.inputs := rfl
@[simp] theorem State.dropAnswer_answers (s : State) : (s.dropAnswer).answers = s.answers.tail := rfl
@[simp] theorem State.dropAnswer_epoch (s : State) : (s.dropAnswer).epoch = s.epoch := rfl

/-! `noteFailure` -/

@[simp] theorem State.noteFailure_cmd (s : State) (r : Result) : (s.noteFailure r).cmd = s.cmd := rfl
@[simp] theorem State.noteFailure_result (s : State) (r : Result) : (s.noteFailure r).result = s.result := rfl
@[simp] theorem State.noteFailure_budget (s : State) (r : Result) : (s.noteFailure r).budget = s.budget := rfl
@[simp] theorem State.noteFailure_ctrl (s : State) (r : Result) : (s.noteFailure r).ctrl = s.ctrl := rfl
@[simp] theorem State.noteFailure_txbuf (s : State) (r : Result) : (s.noteFailure r).txbuf = s.txbuf := rfl
@[simp] theorem State.noteFailure_rxbuf (s : State) (r : Result) : (s.noteFailure r).rxbuf = s.rxbuf := rfl
@[simp] theorem State.noteFailure_phase (s : State) (r : Result) : (s.noteFailure r).phase = s.phase := rfl
@[simp] theorem State.noteFailure_byteidx (s : State) (r : Result) : (s.noteFailure r).byteidx = s.byteidx := rfl
@[simp] theorem State.noteFailure_pollcnt (s : State) (r : Result) : (s.noteFailure r).pollcnt = s.pollcnt := rfl
@[simp] theorem State.noteFailure_fail (s : State) (r : Result) : (s.noteFailure r).fail = firstFailure s.fail r := rfl
@[simp] theorem State.noteFailure_acken (s : State) (r : Result) : (s.noteFailure r).acken = s.acken := rfl
@[simp] theorem State.noteFailure_history (s : State) (r : Result) : (s.noteFailure r).history = s.history := rfl
@[simp] theorem State.noteFailure_dbgLog (s : State) (r : Result) : (s.noteFailure r).dbgLog = s.dbgLog := rfl
@[simp] theorem State.noteFailure_base (s : State) (r : Result) : (s.noteFailure r).base = s.base := rfl
@[simp] theorem State.noteFailure_hostRead (s : State) (r : Result) : (s.noteFailure r).hostRead = s.hostRead := rfl
@[simp] theorem State.noteFailure_inputs (s : State) (r : Result) : (s.noteFailure r).inputs = s.inputs := rfl
@[simp] theorem State.noteFailure_answers (s : State) (r : Result) : (s.noteFailure r).answers = s.answers := rfl
@[simp] theorem State.noteFailure_epoch (s : State) (r : Result) : (s.noteFailure r).epoch = s.epoch := rfl

/-! `putRxbuf` and `putLocal` -/

@[simp] theorem putRxbuf_cmd (i : Nat) (v : Byte) (s : State) : (putRxbuf i v s).cmd = s.cmd := rfl
@[simp] theorem putRxbuf_result (i : Nat) (v : Byte) (s : State) : (putRxbuf i v s).result = s.result := rfl
@[simp] theorem putRxbuf_budget (i : Nat) (v : Byte) (s : State) : (putRxbuf i v s).budget = s.budget := rfl
@[simp] theorem putRxbuf_ctrl (i : Nat) (v : Byte) (s : State) : (putRxbuf i v s).ctrl = s.ctrl := rfl
@[simp] theorem putRxbuf_txbuf (i : Nat) (v : Byte) (s : State) : (putRxbuf i v s).txbuf = s.txbuf := rfl
@[simp] theorem putRxbuf_rxbuf (i : Nat) (v : Byte) (s : State) : (putRxbuf i v s).rxbuf = s.rxbuf.store i v := rfl
@[simp] theorem putRxbuf_phase (i : Nat) (v : Byte) (s : State) : (putRxbuf i v s).phase = s.phase := rfl
@[simp] theorem putRxbuf_byteidx (i : Nat) (v : Byte) (s : State) : (putRxbuf i v s).byteidx = s.byteidx := rfl
@[simp] theorem putRxbuf_pollcnt (i : Nat) (v : Byte) (s : State) : (putRxbuf i v s).pollcnt = s.pollcnt := rfl
@[simp] theorem putRxbuf_fail (i : Nat) (v : Byte) (s : State) : (putRxbuf i v s).fail = s.fail := rfl
@[simp] theorem putRxbuf_acken (i : Nat) (v : Byte) (s : State) : (putRxbuf i v s).acken = s.acken := rfl
@[simp] theorem putRxbuf_history (i : Nat) (v : Byte) (s : State) : (putRxbuf i v s).history = s.history := rfl
@[simp] theorem putRxbuf_dbgLog (i : Nat) (v : Byte) (s : State) : (putRxbuf i v s).dbgLog = s.dbgLog := rfl
@[simp] theorem putRxbuf_base (i : Nat) (v : Byte) (s : State) : (putRxbuf i v s).base = s.base := rfl
@[simp] theorem putRxbuf_hostRead (i : Nat) (v : Byte) (s : State) : (putRxbuf i v s).hostRead = s.hostRead := rfl
@[simp] theorem putRxbuf_inputs (i : Nat) (v : Byte) (s : State) : (putRxbuf i v s).inputs = s.inputs := rfl
@[simp] theorem putRxbuf_answers (i : Nat) (v : Byte) (s : State) : (putRxbuf i v s).answers = s.answers := rfl
@[simp] theorem putRxbuf_epoch (i : Nat) (v : Byte) (s : State) : (putRxbuf i v s).epoch = s.epoch := rfl
@[simp] theorem putLocal_eq (i : Nat) (v : Byte) (s : State) : putLocal i v s = s := rfl

/-! The pending answers. -/

theorem State.nextAnswer_cons {s : State} {a : LineAnswer} {as : List LineAnswer} (h : s.answers = a :: as) :
    s.nextAnswer = a := by
  simp [State.nextAnswer, h]

theorem State.nextAnswer_nil {s : State} (h : s.answers = []) :
    s.nextAnswer = Config.lineOracle s.epoch s.history := by
  simp [State.nextAnswer, h]

end Sys2Proof.Machine
end

