-- ==== Sys2Proof/Laws/Trace.lean ====
section
/-! SUPPORT. The small lemmas of the history grammar and of scripts. -/

namespace Sys2Proof.Trace

open Sys2Proof Sys2Proof.Machine

/-! Polls. -/

theorem Polled.sample_ok {α : Type} {ev : α → LineEvent} {pred : α → Bool} {v : α} (n : Nat) (h : pred v = true) :
    Polled ev pred (n + 1) [ev v] .ok :=
  ⟨[v], rfl, .inl ⟨rfl, [], v, rfl, by simp, by simp, h⟩⟩

theorem Polled.sample_bad {α : Type} {ev : α → LineEvent} {pred : α → Bool} {v : α} {n : Nat} {evs : List LineEvent}
    {r : Result} (h : pred v = false) (hp : Polled ev pred n evs r) : Polled ev pred (n + 1) (ev v :: evs) r := by
  obtain ⟨vs, rfl, ⟨rfl, bad, good, rfl, hlt, hbad, hgood⟩ | ⟨rfl, hlen, hbad⟩⟩ := hp
  · exact ⟨v :: (bad ++ [good]), rfl, .inl ⟨rfl, v :: bad, good, rfl, by simpa using hlt, by simpa [h] using hbad, hgood⟩⟩
  · exact ⟨v :: vs, rfl, .inr ⟨rfl, by simp [hlen], by simpa [h] using hbad⟩⟩

theorem Polled.ok_or_timeout {α : Type} {ev : α → LineEvent} {pred : α → Bool} {n : Nat} {evs : List LineEvent} {r : Result}
    (h : Polled ev pred n evs r) : r = .ok ∨ r = .timeout := by
  obtain ⟨_, _, ⟨h, _⟩ | ⟨h, _⟩⟩ := h
  · exact .inl h
  · exact .inr h

/-- A poll appends at most as many events as the budget has samples. -/
theorem Polled.length_le {α : Type} {ev : α → LineEvent} {pred : α → Bool} {n : Nat} {evs : List LineEvent} {r : Result}
    (h : Polled ev pred n evs r) : evs.length ≤ n := by
  obtain ⟨vs, rfl, ⟨_, bad, good, rfl, hlt, _⟩ | ⟨_, hlen, _⟩⟩ := h
  · simpa using hlt
  · simp [hlen]

end Sys2Proof.Trace
end

