-- ==== Sys2Proof/Laws/Ops.lean ====
section
/-! SUPPORT. One lemma per shared operation that says everything it can do: its events, its result by the grammar of
Safety.lean, what it leaves unchanged. -/

namespace Sys2Proof.Machine

open Sys2Proof Sys2Proof.Trace

/-! Scripts. -/

theorem script_append (a b : List LineEvent) : script (a ++ b) = script a ++ script b := by
  induction a with
  | nil => rfl
  | cons e a ih => cases e <;> simp [script, ih]

theorem script_map_rSr1 (fs : List Sr1) : (script (fs.map .rSr1)).length = fs.length := by
  induction fs with
  | nil => rfl
  | cons f fs ih => simp [script, ih]

theorem script_map_rSr2 (bs : List Bool) : (script (bs.map .rSr2)).length = bs.length := by
  induction bs with
  | nil => rfl
  | cons b bs ih => simp [script, ih]

/-! Frames. -/

/-- What no operation inside a command changes, and what the events account for. -/
structure OpFrame (s t : State) (evs : List LineEvent) : Prop where
  cmd      : t.cmd = s.cmd
  result   : t.result = s.result
  budget   : t.budget = s.budget
  ctrl     : t.ctrl = s.ctrl
  txbuf    : t.txbuf = s.txbuf
  base     : t.base = s.base
  hostRead : t.hostRead = s.hostRead
  inputs   : t.inputs = s.inputs
  epoch    : t.epoch = s.epoch
  history  : t.history = s.history ++ evs
  answers  : t.answers = s.answers.drop (script evs).length
  ack      : t.acken = ackAfter s.acken evs

theorem ackAfter_append (b : Bool) (e₁ e₂ : List LineEvent) : ackAfter b (e₁ ++ e₂) = ackAfter (ackAfter b e₁) e₂ :=
  List.foldl_append

/-- The rest of the block's state is unchanged too, but for `POLLCNT`. -/
structure Still (s t : State) : Prop where
  phase   : t.phase = s.phase
  dbgLog  : t.dbgLog = s.dbgLog
  byteidx : t.byteidx = s.byteidx
  fail    : t.fail = s.fail
  acken   : t.acken = s.acken
  rxbuf   : t.rxbuf = s.rxbuf

theorem OpFrame.trans {s t u : State} {e₁ e₂ : List LineEvent} (h₁ : OpFrame s t e₁) (h₂ : OpFrame t u e₂) :
    OpFrame s u (e₁ ++ e₂) where
  cmd := h₂.cmd.trans h₁.cmd
  result := h₂.result.trans h₁.result
  budget := h₂.budget.trans h₁.budget
  ctrl := h₂.ctrl.trans h₁.ctrl
  txbuf := h₂.txbuf.trans h₁.txbuf
  base := h₂.base.trans h₁.base
  hostRead := h₂.hostRead.trans h₁.hostRead
  inputs := h₂.inputs.trans h₁.inputs
  epoch := h₂.epoch.trans h₁.epoch
  history := by rw [h₂.history, h₁.history, List.append_assoc]
  answers := by rw [h₂.answers, h₁.answers, List.drop_drop, script_append, List.length_append]
  ack := by rw [h₂.ack, h₁.ack, ackAfter_append]

theorem Still.trans {s t u : State} (h₁ : Still s t) (h₂ : Still t u) : Still s u :=
  ⟨h₂.phase.trans h₁.phase, h₂.dbgLog.trans h₁.dbgLog, h₂.byteidx.trans h₁.byteidx, h₂.fail.trans h₁.fail,
    h₂.acken.trans h₁.acken, h₂.rxbuf.trans h₁.rxbuf⟩

/-- The reference state may be replaced by one that agrees with it. -/
theorem Still.of_eq {s s' t : State} (h : Still s' t) (h₁ : s'.phase = s.phase) (h₂ : s'.dbgLog = s.dbgLog)
    (h₃ : s'.byteidx = s.byteidx) (h₄ : s'.fail = s.fail) (h₅ : s'.acken = s.acken) (h₆ : s'.rxbuf = s.rxbuf) :
    Still s t :=
  Still.trans ⟨h₁, h₂, h₃, h₄, h₅, h₆⟩ h

/-- A register write of the engine is no event. -/
theorem OpFrame.of_eq {s t : State}
    (h : t = { s with rxbuf := t.rxbuf, phase := t.phase, byteidx := t.byteidx, pollcnt := t.pollcnt, fail := t.fail,
                      dbgLog := t.dbgLog }) : OpFrame s t [] := by
  rw [h]; constructor <;> simp [script, ackAfter]

theorem OpFrame.setPhase (s : State) (p : Phase) : OpFrame s (s.setPhase p) [] := .of_eq rfl
theorem OpFrame.setByteidx (s : State) (v : Len) : OpFrame s (s.setByteidx v) [] := .of_eq rfl
theorem OpFrame.setPollcnt (s : State) (v : Word) : OpFrame s (s.setPollcnt v) [] := .of_eq rfl
theorem OpFrame.noteFailure (s : State) (r : Result) : OpFrame s (s.noteFailure r) [] := .of_eq rfl
theorem OpFrame.setFail (s : State) (r : Result) : OpFrame s (s.setFail r) [] := .of_eq rfl
theorem OpFrame.putRxbuf (i : Nat) (v : Byte) (s : State) : OpFrame s (putRxbuf i v s) [] := .of_eq rfl

/-- A line write other than that of `CR.ACK` is one event. -/
theorem OpFrame.record (s : State) {e : LineEvent} (h : script [e] = []) (ha : ackAfter s.acken [e] = s.acken) :
    OpFrame s (s.record e) [e] := by
  constructor <;> simp [h, ha]

/-- `CR.ACK` and `ACKEN` are written together. -/
theorem OpFrame.ack_write (s : State) (b : Bool) : OpFrame s ((lwriteAck b s).setAcken b) [.wAck b] := by
  constructor <;> simp [script, ackAfter, lwriteAck]

/-- A line read is one event and takes one answer. -/
theorem OpFrame.read (s : State) {e : LineEvent} (h : (script [e]).length = 1) :
    OpFrame s (s.dropAnswer.record e) [e] := by
  have ha : ackAfter s.acken [e] = s.acken := by cases e <;> first | rfl | cases h
  constructor <;> simp [h, ha]

/-! The bounded poll. -/

/-- A line read: it answers a part of the next answer and records it. -/
structure IsRead {α : Type} (lread : State → α × State) (ev : α → LineEvent) : Prop where
  state : ∀ s, (lread s).2 = s.dropAnswer.record (ev (lread s).1)
  one   : ∀ v, (script [ev v]).length = 1

theorem lreadSr1_isRead : IsRead lreadSr1 .rSr1 := ⟨fun _ => rfl, fun _ => rfl⟩
theorem lreadSr2_isRead : IsRead lreadSr2 .rSr2 := ⟨fun _ => rfl, fun _ => rfl⟩
theorem lreadDr_isRead : IsRead lreadDr .rDr := ⟨fun _ => rfl, fun _ => rfl⟩

theorem pollLoop_spec {α : Type} {lread : State → α × State} {ev : α → LineEvent} (hr : IsRead lread ev)
    (pred : α → Bool) (left : Nat) (s : State) :
    ∃ evs, OpFrame s (pollLoop lread pred left s).2 evs ∧ Still s (pollLoop lread pred left s).2 ∧
      Polled ev pred left evs (pollLoop lread pred left s).1 ∧
      (pollLoop lread pred left s).2.pollcnt = s.pollcnt + BitVec.ofNat 32 evs.length := by
  induction left generalizing s with
  | zero => exact ⟨[], .of_eq rfl, ⟨rfl, rfl, rfl, rfl, rfl, rfl⟩, ⟨[], rfl, .inr ⟨rfl, rfl, by simp⟩⟩, by simp [pollLoop]⟩
  | succ left ih =>
    have hf : OpFrame s ((lread s).2.setPollcnt ((lread s).2.pollcnt + 1)) [ev (lread s).1] := by
      have := (OpFrame.read s (hr.one (lread s).1)).trans (.setPollcnt _ ((lread s).2.pollcnt + 1))
      rwa [← hr.state, List.append_nil] at this
    have hs : Still s ((lread s).2.setPollcnt ((lread s).2.pollcnt + 1)) := by
      rw [hr.state]; exact ⟨rfl, rfl, rfl, rfl, rfl, rfl⟩
    have hc : (lread s).2.pollcnt = s.pollcnt := by rw [hr.state]; rfl
    unfold pollLoop
    by_cases hp : pred (lread s).1 = true
    · rw [if_pos hp]
      exact ⟨_, hf, hs, .sample_ok left hp, by simp [hc]⟩
    · rw [if_neg hp]
      obtain ⟨evs, hf', hs', hp', hc'⟩ := ih ((lread s).2.setPollcnt ((lread s).2.pollcnt + 1))
      refine ⟨_, hf.trans hf', hs.trans hs', .sample_bad (by simpa using hp) hp', ?_⟩
      rw [hc', State.setPollcnt_pollcnt, hc, List.length_append, BitVec.ofNat_add, ← BitVec.add_assoc]
      rfl

/-- `Poll` (R90): one event per sample, `POLLCNT` their number, nothing else changed. -/
theorem poll_spec {α : Type} {lread : State → α × State} {ev : α → LineEvent} (hr : IsRead lread ev)
    (pred : α → Bool) (s : State) :
    ∃ evs, OpFrame s (poll lread pred s).2 evs ∧ Still s (poll lread pred s).2 ∧
      Polled ev pred s.budget.toNat evs (poll lread pred s).1 ∧
      (poll lread pred s).2.pollcnt = BitVec.ofNat 32 evs.length := by
  obtain ⟨evs, hf, hs, hp, hc⟩ := pollLoop_spec hr pred s.budget.toNat (s.setPollcnt 0)
  refine ⟨evs, (OpFrame.setPollcnt s 0).trans hf, hs.of_eq rfl rfl rfl rfl rfl rfl, hp, ?_⟩
  simpa [poll] using hc

/-! The primitives. -/

/-- `start` (R91). -/
theorem start_spec (s : State) :
    ∃ evs, OpFrame s (start s).2 evs ∧ Started s.budget.toNat evs (start s).1 ∧
      Still (s.setPhase .startIssued) (start s).2 := by
  obtain ⟨evs, hf, hs, hp, _⟩ := poll_spec lreadSr1_isRead startAcked ((lwriteStart s).setPhase .startIssued)
  exact ⟨_, ((OpFrame.record s rfl rfl).trans (.setPhase _ _)).trans hf, ⟨evs, rfl, hp⟩,
    hs.of_eq rfl rfl rfl rfl rfl rfl⟩

/-- `stop` (R92): `PHASE` is `Idle` at its end. -/
theorem stop_spec (s : State) :
    ∃ evs, OpFrame s (stop s).2 evs ∧ Stopped s.budget.toNat evs (stop s).1 ∧
      Still ((s.setPhase .stopIssued).setPhase .idle) (stop s).2 := by
  obtain ⟨evs, hf, hs, hp, _⟩ := poll_spec lreadSr2_isRead busIdle ((lwriteStop s).setPhase .stopIssued)
  refine ⟨.wStop :: evs, ?_, ⟨evs, rfl, hp⟩, ?_⟩
  · simpa [stop] using (((OpFrame.record s (e := .wStop) rfl rfl).trans (.setPhase _ .stopIssued)).trans hf).trans (.setPhase _ .idle)
  · refine ⟨rfl, ?_, hs.byteidx, hs.fail, hs.acken, hs.rxbuf⟩
    simp only [stop, State.setPhase_dbgLog, State.setPhase_phase, hs.phase, hs.dbgLog]
    rfl

/-- The acknowledge-failure check. -/
theorem ackCheck_spec (s : State) :
    ∃ evs, OpFrame s (ackCheck s).2 evs ∧ Checked evs (ackCheck s).1 ∧ Still s (ackCheck s).2 := by
  have hf := OpFrame.read s (lreadSr1_isRead.one (lreadSr1 s).1)
  have hs : Still s (lreadSr1 s).2 := ⟨rfl, rfl, rfl, rfl, rfl, rfl⟩
  rw [← lreadSr1_isRead.state] at hf
  unfold ackCheck
  by_cases h : (lreadSr1 s).1.af = true
  · simp only [h, if_true]
    exact ⟨_, hf.trans (.record _ rfl rfl), ⟨_, .inr ⟨h, rfl, rfl⟩⟩, hs.trans ⟨rfl, rfl, rfl, rfl, rfl, rfl⟩⟩
  · simp only [h]
    exact ⟨_, hf, ⟨_, .inl ⟨by simpa using h, rfl, rfl⟩⟩, hs⟩

/-- Two operations of which the second runs only after `Ok`. -/
theorem onOk_spec {s : State} {p : Result × State} {f : State → Result × State} {P Q : Events → Result → Prop}
    (hp : ∃ evs, OpFrame s p.2 evs ∧ P evs p.1)
    (hf : p.1 = .ok → ∃ evs, OpFrame p.2 (f p.2).2 evs ∧ Q evs (f p.2).1) :
    ∃ evs, OpFrame s (onOk p f).2 evs ∧ Seq P Q evs (onOk p f).1 := by
  obtain ⟨e₁, hf₁, h₁⟩ := hp
  unfold onOk
  by_cases h : p.1 = .ok
  · obtain ⟨e₂, hf₂, h₂⟩ := hf h
    rw [if_pos h]
    exact ⟨_, hf₁.trans hf₂, .inr ⟨e₁, e₂, h ▸ h₁, h₂, rfl⟩⟩
  · rw [if_neg h]
    exact ⟨e₁, hf₁, .inl ⟨h, h₁⟩⟩

/-- `sendAddress` (R93): `PHASE` moves only on `Ok`. -/
theorem sendAddress_spec (addr : DevAddr) (dir : Direction) (s : State) :
    ∃ evs, OpFrame s (sendAddress addr dir s).2 evs ∧
      Addressed s.budget.toNat (addrByte addr dir) evs (sendAddress addr dir s).1 ∧
      Still (if (sendAddress addr dir s).1 = .ok then s.setPhase .addressSent else s) (sendAddress addr dir s).2 := by
  obtain ⟨e₁, hf₁, hs₁, hp₁, _⟩ := poll_spec lreadSr1_isRead addressDone (lwriteDr (addrByte addr dir) s)
  have hw : OpFrame s (lwriteDr (addrByte addr dir) s) [.wDr (addrByte addr dir)] := .record s rfl rfl
  unfold sendAddress
  generalize poll lreadSr1 addressDone (lwriteDr (addrByte addr dir) s) = p at *
  have hs₁ : Still s p.2 := hs₁.of_eq rfl rfl rfl rfl rfl rfl
  obtain ⟨r, u⟩ := p
  cases r
  case ok =>
    obtain ⟨e₂, hf₂, hc₂, hs₂⟩ := ackCheck_spec (lreadSr2 u).2
    have hclr : OpFrame u (lreadSr2 u).2 [.rSr2 (lreadSr2 u).1] := .read u rfl
    simp only [onOk, if_true]
    generalize ackCheck (lreadSr2 u).2 = q at *
    have hs₂ : Still s q.2 := hs₁.trans (hs₂.of_eq rfl rfl rfl rfl rfl rfl)
    obtain ⟨r, w⟩ := q
    have hg : ∀ r, Checked e₂ r → Addressed s.budget.toNat (addrByte addr dir)
        ([.wDr (addrByte addr dir)] ++ (e₁ ++ ([.rSr2 (lreadSr2 u).1] ++ e₂))) r := fun r hc =>
      .inr ⟨_, _, ⟨rfl, rfl⟩, .inr ⟨_, _, hp₁, .inr ⟨_, _, ⟨⟨_, rfl⟩, rfl⟩, hc, rfl⟩, rfl⟩, rfl⟩
    have hf := hw.trans (hf₁.trans (hclr.trans hf₂))
    by_cases hr : r = .ok
    · subst hr
      refine ⟨_, by simpa using hf.trans (.setPhase w .addressSent), hg _ hc₂, ?_⟩
      exact ⟨rfl, by simp [show w.phase = _ from hs₂.phase, show w.dbgLog = _ from hs₂.dbgLog], hs₂.byteidx, hs₂.fail, hs₂.acken, hs₂.rxbuf⟩
    · simp only [hr, if_false]
      exact ⟨_, hf, hg _ hc₂, hs₂⟩
  all_goals
    exact ⟨_, hw.trans hf₁, .inr ⟨_, _, ⟨rfl, rfl⟩, .inl ⟨by simp [onOk], hp₁⟩, rfl⟩, hs₁⟩

/-- `sendByte` (R94). -/
theorem sendByte_spec (v : Byte) (s : State) :
    ∃ evs, OpFrame s (sendByte v s).2 evs ∧ Sent s.budget.toNat v evs (sendByte v s).1 ∧
      Still (s.setPhase .dataPhase) (sendByte v s).2 := by
  obtain ⟨e₁, hf₁, hs₁, hp₁, _⟩ := poll_spec lreadSr1_isRead byteDone (lwriteDr v (s.setPhase .dataPhase))
  have hw : OpFrame s (lwriteDr v (s.setPhase .dataPhase)) [.wDr v] := (OpFrame.setPhase s _).trans (.record _ rfl rfl)
  unfold sendByte
  generalize poll lreadSr1 byteDone (lwriteDr v (s.setPhase .dataPhase)) = p at *
  have hs₁ : Still (s.setPhase .dataPhase) p.2 := hs₁.of_eq rfl rfl rfl rfl rfl rfl
  obtain ⟨r, u⟩ := p
  cases r
  case ok =>
    obtain ⟨e₂, hf₂, hc₂, hs₂⟩ := ackCheck_spec u
    exact ⟨_, hw.trans (hf₁.trans hf₂), .inr ⟨_, _, ⟨rfl, rfl⟩, .inr ⟨_, _, hp₁, hc₂, rfl⟩, rfl⟩, hs₁.trans hs₂⟩
  all_goals
    exact ⟨_, hw.trans hf₁, .inr ⟨_, _, ⟨rfl, rfl⟩, .inl ⟨by simp [onOk], hp₁⟩, rfl⟩, hs₁⟩

/-- What `receiveByte(ack)` answers, as the grammar says it. -/
def ReceivedOr (budget : Nat) (ack : Bool) (evs : Events) : Except Result Byte → Prop
  | .ok v    => Received budget ack evs v
  | .error r => NotReceived budget ack evs r

/-- `receiveByte` (R95): `ACKEN` takes the operand. -/
theorem receiveByte_spec (ack : Bool) (s : State) :
    ∃ evs, OpFrame s (receiveByte ack s).2 evs ∧ ReceivedOr s.budget.toNat ack evs (receiveByte ack s).1 ∧
      Still ((s.setPhase .dataPhase).setAcken ack) (receiveByte ack s).2 := by
  obtain ⟨e₁, hf₁, hs₁, hp₁, _⟩ :=
    poll_spec lreadSr1_isRead byteReceived ((lwriteAck ack (s.setPhase .dataPhase)).setAcken ack)
  have hw : OpFrame s ((lwriteAck ack (s.setPhase .dataPhase)).setAcken ack) [.wAck ack] :=
    (OpFrame.setPhase s _).trans (.ack_write _ ack)
  unfold receiveByte
  generalize poll lreadSr1 byteReceived ((lwriteAck ack (s.setPhase .dataPhase)).setAcken ack) = p at *
  have hs₁ : Still ((s.setPhase .dataPhase).setAcken ack) p.2 := hs₁.of_eq rfl rfl rfl rfl rfl rfl
  obtain ⟨r, u⟩ := p
  by_cases hr : r = .ok
  · subst hr
    exact ⟨_, (hw.trans hf₁).trans (.read u rfl), ⟨e₁, hp₁, rfl⟩, hs₁.trans ⟨rfl, rfl, rfl, rfl, rfl, rfl⟩⟩
  · simp only [hr, if_false]
    exact ⟨_, hw.trans hf₁, ⟨hr, e₁, hp₁, rfl⟩, hs₁⟩

end Sys2Proof.Machine
end

