-- ==== Sys2Proof/Laws/Passes.lean ====
section
/-! SUPPORT. One lemma per loop and per pass that says everything it can do. -/

namespace Sys2Proof.Machine

open Sys2Proof Sys2Proof.Trace

/-- `PHASE` and the port after `n` data bytes have been begun: `DataPhase` from the first on. -/
def afterData (s : State) (n : Nat) : State := if n = 0 then s else s.setPhase .dataPhase

/-- `BYTEIDX + 1` does not wrap below the largest length (spec/40_primitives.md R97). -/
theorem byteidx_succ {i : Len} (h : i.toNat + 1 < 8192) : (i + 1).toNat = i.toNat + 1 := by
  rw [BitVec.toNat_add]
  exact Nat.mod_eq_of_lt h

/-- The data bytes of a write pass (R98): `bytes` are what `b` answers, as long as `TXBUF` stands. -/
theorem sendBytes_spec (b : Nat → State → Byte) (bytes : List Byte) (s : State)
    (hlen : s.byteidx.toNat + bytes.length < 8192)
    (hb : ∀ j (hj : j < bytes.length) (u : State), u.txbuf = s.txbuf → u.epoch = s.epoch →
      b (s.byteidx.toNat + j) u = bytes[j]) :
    ∃ evs k, OpFrame s (sendBytes b bytes.length s).2 evs ∧
      SentAll s.budget.toNat bytes evs (sendBytes b bytes.length s).1 k ∧
      (sendBytes b bytes.length s).2.byteidx.toNat = s.byteidx.toNat + k ∧
      Still ((afterData s bytes.length).setByteidx (sendBytes b bytes.length s).2.byteidx)
        (sendBytes b bytes.length s).2 := by
  induction bytes generalizing s with
  | nil => exact ⟨[], 0, .of_eq rfl, .done, rfl, ⟨rfl, rfl, rfl, rfl, rfl, rfl⟩⟩
  | cons v vs ih =>
    have hv : b s.byteidx.toNat s = v := hb 0 (by simp) s rfl rfl
    obtain ⟨e₁, hf₁, h₁, hs₁⟩ := sendByte_spec v s
    simp only [List.length_cons, sendBytes, hv]
    generalize sendByte v s = p at *
    obtain ⟨r, u⟩ := p
    by_cases hr : r = .ok
    · subst hr
      simp only [onOk, if_true]
      simp only [List.length_cons] at hlen
      have hbi : u.byteidx = s.byteidx := hs₁.byteidx
      have hf : OpFrame s (u.setByteidx (u.byteidx + 1)) e₁ := by
        simpa using hf₁.trans (.setByteidx u (u.byteidx + 1))
      have hidx : (u.setByteidx (u.byteidx + 1)).byteidx.toNat = s.byteidx.toNat + 1 := by
        rw [State.setByteidx_byteidx, hbi]; exact byteidx_succ (by omega)
      have hst : Still ((s.setPhase .dataPhase).setByteidx (u.setByteidx (u.byteidx + 1)).byteidx)
          (u.setByteidx (u.byteidx + 1)) :=
        ⟨hs₁.phase, hs₁.dbgLog, rfl, hs₁.fail, hs₁.acken, hs₁.rxbuf⟩
      generalize u.setByteidx (u.byteidx + 1) = w at *
      obtain ⟨e₂, k, hf₂, h₂, hk, hs₂⟩ := ih w (by omega) fun j hj w' ht he => by
        have := hb (j + 1) (by simpa using hj) w' (ht.trans hf.txbuf) (he.trans hf.epoch)
        rwa [show s.byteidx.toNat + (j + 1) = w.byteidx.toNat + j by omega] at this
      refine ⟨_, k + 1, hf.trans hf₂, .more h₁ (hf.budget ▸ h₂), by omega, ?_⟩
      have hph : w.phase = .dataPhase := hst.phase
      have hdb : w.dbgLog = (s.setPhase .dataPhase).dbgLog := hst.dbgLog
      constructor
      · rw [hs₂.phase]; unfold afterData; split <;> simp [hph]
      · rw [hs₂.dbgLog]; unfold afterData; split <;> simp [hph, hdb]
      · rfl
      · rw [hs₂.fail]; unfold afterData; split <;> exact hst.fail
      · rw [hs₂.acken]; unfold afterData; split <;> exact hst.acken
      · rw [hs₂.rxbuf]; unfold afterData; split <;> exact hst.rxbuf
    · simp only [onOk, hr, if_false]
      exact ⟨e₁, 0, hf₁, .failed h₁ hr, by rw [hs₁.byteidx]; rfl, hs₁.phase, hs₁.dbgLog, rfl, hs₁.fail, hs₁.acken, hs₁.rxbuf⟩

/-- `RXBUF` after the bytes `got` were stored from index `i` on. -/
def Memory.storeFrom (m : Memory) : (i : Nat) → (got : List Byte) → Memory
  | _, [] => m
  | i, v :: got => Memory.storeFrom (m.store i v) (i + 1) got

theorem Memory.lookup_storeFrom (m : Memory) (i j : Nat) (got : List Byte) :
    (m.storeFrom i got).lookup j = if h : i ≤ j ∧ j < i + got.length then some got[j - i] else m.lookup j := by
  induction got generalizing m i with
  | nil => simp [storeFrom]
  | cons v got ih =>
    rw [storeFrom, ih, Memory.lookup_store]
    by_cases hj : j = i
    · subst hj; simp
    · by_cases h : i + 1 ≤ j ∧ j < i + 1 + got.length
      · have h' : i ≤ j ∧ j < i + (v :: got).length := by simp; omega
        rw [dif_pos h, dif_pos h']
        simp [show j - i = (j - (i + 1)) + 1 by omega]
      · have h' : ¬(i ≤ j ∧ j < i + (v :: got).length) := by simp; omega
        rw [dif_neg h, dif_neg h', if_neg hj]

theorem Memory.wf_storeFrom {m : Memory} {i : Nat} {got : List Byte} (h : m.wf = true) (hi : i + got.length ≤ bufDepth) :
    (m.storeFrom i got).wf = true := by
  induction got generalizing m i with
  | nil => exact h
  | cons v got ih =>
    simp only [List.length_cons] at hi
    exact ih (wf_store v h (by omega)) (by omega)

/-- `RXBUF` of a delivery after the bytes `got` were received from index `i` on. -/
def Delivery.stored : Delivery → Memory → Nat → List Byte → Memory
  | .data, m, _, _    => m
  | .rxbuf, m, i, got => m.storeFrom i got

theorem Delivery.put_frame (d : Delivery) (i : Nat) (v : Byte) (s : State) : OpFrame s (d.put i v s) [] := by
  cases d <;> exact .of_eq rfl

/-- The bytes of a read pass of `n` (R99). -/
theorem receiveBytes_spec (d : Delivery) (n left : Nat) (last : Byte) (s : State)
    (hn : s.byteidx.toNat + left = n) (hlen : n < 8192) :
    ∃ evs got, OpFrame s (receiveBytes d.put n left last s).2.2 evs ∧
      ReceivedAll s.budget.toNat left evs (receiveBytes d.put n left last s).1 got ∧
      (receiveBytes d.put n left last s).2.1 = got.getLastD last ∧
      (receiveBytes d.put n left last s).2.2.byteidx.toNat = s.byteidx.toNat + got.length ∧
      (receiveBytes d.put n left last s).2.2.rxbuf = d.stored s.rxbuf s.byteidx.toNat got ∧
      (receiveBytes d.put n left last s).2.2.fail = s.fail ∧
      (receiveBytes d.put n left last s).2.2.phase = (afterData s left).phase ∧
      (receiveBytes d.put n left last s).2.2.dbgLog = (afterData s left).dbgLog ∧
      (receiveBytes d.put n left last s).2.2.acken = if left = 0 then s.acken else decide (got.length + 1 < left) := by
  induction left generalizing s last with
  | zero =>
    exact ⟨[], [], .of_eq rfl, .done, rfl, rfl, by cases d <;> rfl, rfl, rfl, rfl, rfl⟩
  | succ left ih =>
    have hack : ackFor n s.byteidx.toNat = decide (left ≠ 0) := by
      unfold ackFor; congr 1; simp; omega
    obtain ⟨e₁, hf₁, h₁, hs₁⟩ := receiveByte_spec (decide (left ≠ 0)) s
    simp only [receiveBytes, hack]
    generalize receiveByte (decide (left ≠ 0)) s = p at *
    obtain ⟨x, u⟩ := p
    cases x with
    | error r =>
      have hbi : u.byteidx = s.byteidx := hs₁.byteidx
      exact ⟨e₁, [], hf₁, .failed h₁, rfl, by simp [hbi], by cases d <;> exact hs₁.rxbuf, hs₁.fail,
        hs₁.phase, hs₁.dbgLog, by rw [hs₁.acken]; simp [Nat.pos_iff_ne_zero]⟩
    | ok v =>
      have hbi : u.byteidx = s.byteidx := hs₁.byteidx
      have hrx : u.rxbuf = s.rxbuf := hs₁.rxbuf
      have hf : OpFrame s ((d.put u.byteidx.toNat v u).setByteidx (u.byteidx + 1)) e₁ := by
        simpa using (hf₁.trans (d.put_frame u.byteidx.toNat v u)).trans (.setByteidx _ (u.byteidx + 1))
      have hidx : ((d.put u.byteidx.toNat v u).setByteidx (u.byteidx + 1)).byteidx.toNat = s.byteidx.toNat + 1 := by
        rw [State.setByteidx_byteidx, hbi]; exact byteidx_succ (by omega)
      have hph : ((d.put u.byteidx.toNat v u).setByteidx (u.byteidx + 1)).phase = .dataPhase := by
        cases d <;> exact hs₁.phase
      have hdb : ((d.put u.byteidx.toNat v u).setByteidx (u.byteidx + 1)).dbgLog = (s.setPhase .dataPhase).dbgLog := by
        cases d <;> exact hs₁.dbgLog
      have hfa : ((d.put u.byteidx.toNat v u).setByteidx (u.byteidx + 1)).fail = s.fail := by
        cases d <;> exact hs₁.fail
      have hac : ((d.put u.byteidx.toNat v u).setByteidx (u.byteidx + 1)).acken = decide (left ≠ 0) := by
        cases d <;> exact hs₁.acken
      have hst : ∀ got, d.stored ((d.put u.byteidx.toNat v u).setByteidx (u.byteidx + 1)).rxbuf (s.byteidx.toNat + 1) got =
          d.stored s.rxbuf s.byteidx.toNat (v :: got) := by
        intro got; cases d <;> simp [Delivery.stored, Delivery.put, Memory.storeFrom, hbi, hrx]
      dsimp only
      generalize (d.put u.byteidx.toNat v u).setByteidx (u.byteidx + 1) = w at *
      obtain ⟨e₂, got, hf₂, h₂, hl, hi, hr, hfl, hp, hd, ha⟩ := ih v w (by omega)
      refine ⟨_, v :: got, hf.trans hf₂, .more h₁ (hf.budget ▸ h₂), ?_, ?_, ?_, ?_, ?_, ?_, ?_⟩
      · rw [hl]; cases got <;> rfl
      · rw [hi, hidx, List.length_cons]; omega
      · rw [hr, hidx, hst]
      · rw [hfl, hfa]
      · rw [hp]; unfold afterData; split <;> simp [hph]
      · rw [hd]; unfold afterData; split <;> simp [hph, hdb]
      · rw [ha]; by_cases h0 : left = 0 <;> simp [h0, hac]

/-- The address phase of a pass (R98, R99): `PHASE` is `StartIssued`, or `AddressSent` if it succeeded. -/
theorem openPass_spec (dev : DevAddr) (dir : Direction) (s : State) :
    ∃ evs, OpFrame s (openPass dev dir s).2 evs ∧
      Seq (Started s.budget.toNat) (Addressed s.budget.toNat (addrByte dev dir)) evs (openPass dev dir s).1 ∧
      Still ((if (openPass dev dir s).1 = .ok then (s.setPhase .startIssued).setPhase .addressSent
        else s.setPhase .startIssued).setByteidx 0) (openPass dev dir s).2 := by
  obtain ⟨e₁, hf₁, h₁, hs₁⟩ := start_spec s
  unfold openPass
  generalize start s = p at *
  obtain ⟨r, u⟩ := p
  by_cases hr : r = .ok
  · subst hr
    obtain ⟨e₂, hf₂, h₂, hs₂⟩ := sendAddress_spec dev dir u
    simp only [onOk, if_true]
    rw [show u.budget = s.budget from hf₁.budget] at h₂
    refine ⟨_, by simpa using (hf₁.trans hf₂).trans (.setByteidx _ 0), .inr ⟨e₁, e₂, h₁, h₂, rfl⟩, ?_⟩
    have hph : u.phase = .startIssued := hs₁.phase
    have hdb : u.dbgLog = (s.setPhase .startIssued).dbgLog := hs₁.dbgLog
    have hfa : u.fail = s.fail := hs₁.fail
    have hac : u.acken = s.acken := hs₁.acken
    have hrx : u.rxbuf = s.rxbuf := hs₁.rxbuf
    generalize sendAddress dev dir u = q at *
    split at hs₂ <;> rename_i hq <;> simp only [hq, if_true, if_false] <;>
      exact ⟨by simp [hs₂.phase, hph], by simp [hs₂.dbgLog, hph, hdb], rfl, by simp [hs₂.fail, hfa],
        by simp [hs₂.acken, hac], by simp [hs₂.rxbuf, hrx]⟩
  · simp only [onOk, hr, if_false]
    exact ⟨e₁, by simpa using hf₁.trans (.setByteidx u 0), .inl ⟨hr, h₁⟩,
      ⟨hs₁.phase, hs₁.dbgLog, rfl, hs₁.fail, hs₁.acken, hs₁.rxbuf⟩⟩

/-- The end of a pass (R136, R137): the stop is made, `FAIL` keeps the first failure. -/
theorem endPass_spec (r : Result) (byte : Byte) (s : State) :
    ∃ evs, OpFrame s (endPass r byte s).s evs ∧ Stopped s.budget.toNat evs (endPass r byte s).stop ∧
      (endPass r byte s).r = r ∧ (endPass r byte s).byte = byte ∧
      (endPass r byte s).s.fail = firstFailure (firstFailure s.fail r) (endPass r byte s).stop ∧
      (endPass r byte s).s.phase = .idle ∧
      (endPass r byte s).s.dbgLog = ((s.setPhase .stopIssued).setPhase .idle).dbgLog ∧
      (endPass r byte s).s.byteidx = s.byteidx ∧ (endPass r byte s).s.acken = s.acken ∧
      (endPass r byte s).s.rxbuf = s.rxbuf := by
  obtain ⟨evs, hf, h, hs⟩ := stop_spec (s.noteFailure r)
  refine ⟨evs, ?_, h, rfl, rfl, ?_, hs.phase, hs.dbgLog, hs.byteidx, hs.acken, hs.rxbuf⟩
  · simpa [endPass] using ((OpFrame.noteFailure s r).trans hf).trans (.noteFailure _ (stop (s.noteFailure r)).1)
  · simp only [endPass, State.noteFailure_fail]
    rw [hs.fail]
    rfl

theorem addrByte_eq (dev : DevAddr) (dir : Direction) : addrByte dev dir = dev ++ dir.bit := by
  revert dev; cases dir <;> decide

/-- `WritePass` (R98). -/
theorem writePass_spec (dev : DevAddr) (b : Nat → State → Byte) (bytes : List Byte) (s : State)
    (hne : bytes ≠ []) (hlen : bytes.length < 8192) (hfail : s.fail = .ok)
    (hb : ∀ j (hj : j < bytes.length) (u : State), u.txbuf = s.txbuf → u.epoch = s.epoch → b j u = bytes[j]) :
    ∃ evs sent port, OpFrame s (writePass dev bytes.length b s).s evs ∧
      WritePass s.budget.toNat dev bytes evs (writePass dev bytes.length b s).r (writePass dev bytes.length b s).stop sent port ∧
      (writePass dev bytes.length b s).s.phase = .idle ∧
      (s.phase = .idle → (writePass dev bytes.length b s).s.dbgLog = s.dbgLog ++ port) ∧
      (writePass dev bytes.length b s).s.byteidx.toNat = sent ∧
      (writePass dev bytes.length b s).s.fail =
        firstFailure (writePass dev bytes.length b s).r (writePass dev bytes.length b s).stop ∧
      (writePass dev bytes.length b s).s.acken = s.acken ∧
      (writePass dev bytes.length b s).s.rxbuf = s.rxbuf := by
  obtain ⟨e₁, hf₁, h₁, hs₁⟩ := openPass_spec dev .write s
  rw [addrByte_eq] at h₁
  unfold writePass
  generalize openPass dev .write s = p at *
  obtain ⟨r, u⟩ := p
  by_cases hr : r = .ok
  · subst hr
    simp only [onOk, if_true] at hs₁ ⊢
    have h0 : u.byteidx = 0 := hs₁.byteidx
    obtain ⟨e₂, k, hf₂, h₂, hk, hs₂⟩ := sendBytes_spec b bytes u (by simpa [h0] using hlen) (by
      intro j hj w ht he
      simpa [h0] using hb j hj w (ht.trans hf₁.txbuf) (he.trans hf₁.epoch))
    rw [show u.budget = s.budget from hf₁.budget] at h₂
    have had : afterData u bytes.length = u.setPhase .dataPhase := if_neg (by simpa using hne)
    rw [had] at hs₂
    generalize sendBytes b bytes.length u = q at *
    obtain ⟨r, w⟩ := q
    obtain ⟨e₃, hf₃, h₃, hr', _, hfl, hp, hd, hi, ha, hx⟩ := endPass_spec r 0 w
    rw [show w.budget = s.budget from hf₂.budget.trans hf₁.budget] at h₃
    refine ⟨_, k, [1, 2, 3, 4, 0], (hf₁.trans hf₂).trans hf₃, ?_, hp, ?_, ?_, ?_, ?_, ?_⟩
    · exact ⟨_, _, .inr ⟨_, _, h₁, hr' ▸ h₂, rfl, rfl⟩, h₃, rfl⟩
    · intro hidle
      rw [hd]
      simp [show w.phase = _ from hs₂.phase, show w.dbgLog = _ from hs₂.dbgLog, show u.phase = _ from hs₁.phase,
        show u.dbgLog = _ from hs₁.dbgLog, hidle, Phase.dbg]
    · rw [hi, hk, h0]; simp
    · rw [hfl, show w.fail = s.fail from hs₂.fail.trans hs₁.fail, hfail, hr']; rfl
    · rw [ha]; exact hs₂.acken.trans hs₁.acken
    · rw [hx]; exact hs₂.rxbuf.trans hs₁.rxbuf
  · simp only [onOk, hr, if_false] at hs₁ ⊢
    obtain ⟨e₃, hf₃, h₃, hr', _, hfl, hp, hd, hi, ha, hx⟩ := endPass_spec r 0 u
    rw [show u.budget = s.budget from hf₁.budget] at h₃
    refine ⟨_, 0, [1, 4, 0], hf₁.trans hf₃, ?_, hp, ?_, ?_, ?_, ?_, ?_⟩
    · exact ⟨_, _, .inl ⟨hr' ▸ hr, hr' ▸ h₁, rfl, rfl⟩, h₃, rfl⟩
    · intro hidle
      rw [hd]
      simp [show u.phase = _ from hs₁.phase, show u.dbgLog = _ from hs₁.dbgLog, hidle, Phase.dbg]
    · rw [hi, show u.byteidx = 0 from hs₁.byteidx]; rfl
    · rw [hfl, show u.fail = s.fail from hs₁.fail, hfail, hr']; rfl
    · rw [ha]; exact hs₁.acken
    · rw [hx]; exact hs₁.rxbuf

/-- `ReadPass` (R99) of at least one byte. -/
theorem readPass_spec (dev : DevAddr) (d : Delivery) (n : Nat) (s : State)
    (hne : n ≠ 0) (hlen : n < 8192) (hfail : s.fail = .ok) :
    ∃ evs got port, OpFrame s (readPass dev n d.put s).s evs ∧
      ReadPass s.budget.toNat dev n evs (readPass dev n d.put s).r (readPass dev n d.put s).stop got port ∧
      (readPass dev n d.put s).byte = got.getLastD 0 ∧
      (readPass dev n d.put s).s.phase = .idle ∧
      (s.phase = .idle → (readPass dev n d.put s).s.dbgLog = s.dbgLog ++ port) ∧
      (readPass dev n d.put s).s.byteidx.toNat = got.length ∧
      (readPass dev n d.put s).s.fail = firstFailure (readPass dev n d.put s).r (readPass dev n d.put s).stop ∧
      (readPass dev n d.put s).s.acken = (if port = [1, 4, 0] then s.acken else decide (got.length + 1 < n)) ∧
      (readPass dev n d.put s).s.rxbuf = d.stored s.rxbuf 0 got := by
  obtain ⟨e₁, hf₁, h₁, hs₁⟩ := openPass_spec dev .read s
  rw [addrByte_eq] at h₁
  unfold readPass
  generalize openPass dev .read s = p at *
  obtain ⟨r, u⟩ := p
  by_cases hr : r = .ok
  · subst hr
    simp only [if_true] at hs₁ ⊢
    have h0 : u.byteidx = 0 := hs₁.byteidx
    obtain ⟨e₂, got, hf₂, h₂, hl, hk, hx₂, hfl₂, hp₂, hd₂, ha₂⟩ := receiveBytes_spec d n n 0 u (by simp [h0]) hlen
    rw [show u.budget = s.budget from hf₁.budget] at h₂
    have had : afterData u n = u.setPhase .dataPhase := if_neg hne
    rw [had] at hp₂ hd₂
    rw [if_neg hne] at ha₂
    generalize receiveBytes d.put n n 0 u = q at *
    obtain ⟨r, last, w⟩ := q
    obtain ⟨e₃, hf₃, h₃, hr', hy, hfl, hp, hd, hi, ha, hx⟩ := endPass_spec r last w
    rw [show w.budget = s.budget from hf₂.budget.trans hf₁.budget] at h₃
    refine ⟨_, got, [1, 2, 3, 4, 0], (hf₁.trans hf₂).trans hf₃, ?_, ?_, hp, ?_, ?_, ?_, ?_, ?_⟩
    · exact ⟨_, _, .inr ⟨_, _, h₁, hr' ▸ h₂, rfl, rfl⟩, h₃, rfl⟩
    · rw [hy]; exact hl
    · intro hidle
      rw [hd]
      simp [show w.phase = _ from hp₂, show w.dbgLog = _ from hd₂, show u.phase = _ from hs₁.phase,
        show u.dbgLog = _ from hs₁.dbgLog, hidle, Phase.dbg]
    · rw [hi, hk, h0]; simp
    · rw [hfl, show w.fail = s.fail from hfl₂.trans hs₁.fail, hfail, hr']; rfl
    · rw [ha]; simpa using ha₂
    · rw [hx, hx₂, h0, show u.rxbuf = s.rxbuf from hs₁.rxbuf]; rfl
  · simp only [hr, if_false] at hs₁ ⊢
    obtain ⟨e₃, hf₃, h₃, hr', hy, hfl, hp, hd, hi, ha, hx⟩ := endPass_spec r 0 u
    rw [show u.budget = s.budget from hf₁.budget] at h₃
    refine ⟨_, [], [1, 4, 0], hf₁.trans hf₃, ?_, hy, hp, ?_, ?_, ?_, ?_, ?_⟩
    · exact ⟨_, _, .inl ⟨hr' ▸ hr, hr' ▸ h₁, rfl, rfl⟩, h₃, rfl⟩
    · intro hidle
      rw [hd]
      simp [show u.phase = _ from hs₁.phase, show u.dbgLog = _ from hs₁.dbgLog, hidle, Phase.dbg]
    · rw [hi, show u.byteidx = 0 from hs₁.byteidx]; rfl
    · rw [hfl, show u.fail = s.fail from hs₁.fail, hfail, hr']; rfl
    · rw [ha]; simpa using hs₁.acken
    · rw [hx, show u.rxbuf = s.rxbuf from hs₁.rxbuf]; cases d <;> rfl

end Sys2Proof.Machine
end

