-- ==== Sys2Proof/Laws/Commands.lean ====
section
/-! SUPPORT. One lemma per command body that says everything it can do, and what the grammar says of results. -/

namespace Sys2Proof.Machine

open Sys2Proof Sys2Proof.Trace

/-- States are equal when their fields are. -/
theorem State.ext_fields {s t : State} (h1 : s.cmd = t.cmd) (h2 : s.result = t.result) (h3 : s.budget = t.budget)
    (h4 : s.ctrl = t.ctrl) (h5 : s.txbuf = t.txbuf) (h6 : s.rxbuf = t.rxbuf) (h7 : s.phase = t.phase)
    (h8 : s.byteidx = t.byteidx) (h9 : s.pollcnt = t.pollcnt) (h10 : s.fail = t.fail) (h11 : s.acken = t.acken)
    (h12 : s.history = t.history) (h13 : s.dbgLog = t.dbgLog) (h14 : s.base = t.base)
    (h15 : s.hostRead = t.hostRead) (h16 : s.inputs = t.inputs) (h17 : s.answers = t.answers)
    (h18 : s.epoch = t.epoch) : s = t := by
  cases s; cases t; simp_all

/-- What an operation's frame says of a command that then latches a result. -/
theorem commandFrame_of {s u : State} {evs port} (r : ResultReg) (h : OpFrame (s.setFail .ok) u evs)
    (hp : u.phase = .idle) (hd : u.dbgLog = s.dbgLog ++ port) : CommandFrame s (u.setResult r) evs port := by
  apply State.ext_fields <;> simp [h.cmd, h.budget, h.ctrl, h.txbuf, h.base, h.hostRead, h.inputs, h.epoch,
      h.history, h.answers, h.ack, hp, hd]

theorem latched_eq (r st : Result) (d : Byte) (n : Len) : latched r st d n =
    if r = .ok ∧ st = .ok then ⟨true, n, d, .ok⟩ else ⟨true, 0, 0, if r = .ok then st else r⟩ := by
  cases r <;> cases st <;> rfl

theorem latched_code (r st : Result) (d : Byte) (n : Len) : (latched r st d n).code = firstFailure r st := by
  cases r <;> cases st <;> rfl

/-- The body of a write command: one write pass, its result and its frame (R98, R101). -/
theorem writeBody_spec (dev : DevAddr) (bytes : List Byte) (b : Nat → State → Byte) (count : Len) (s : State)
    (hne : bytes ≠ []) (hlen : bytes.length < 8192) (hidle : s.phase = .idle)
    (hb : ∀ j (hj : j < bytes.length) (u : State), u.txbuf = s.txbuf → u.epoch = s.epoch → b j u = bytes[j]) :
    ∃ t evs r st sent port, writeBody dev bytes.length b count (s.setFail .ok) = t ∧
      WritePass s.budget.toNat dev bytes evs r st sent port ∧ CommandFrame s t evs port ∧
      t.result = (if r = .ok ∧ st = .ok then ⟨true, count, 0, .ok⟩ else ⟨true, 0, 0, if r = .ok then st else r⟩) ∧
      t.acken = s.acken ∧ t.rxbuf = s.rxbuf ∧ t.byteidx.toNat = sent ∧ t.fail = t.result.code := by
  obtain ⟨evs, sent, port, hf, hw, hp, hd, hi, hfl, ha, hx⟩ := writePass_spec dev b bytes
      (s.setFail .ok) hne hlen rfl (by simpa using hb)
  refine ⟨_, evs, _, _, sent, port, rfl, hw, commandFrame_of _ hf hp (hd hidle), ?_, ha, hx, hi, ?_⟩
  · simp [writeBody, finish, latched_eq]
  · simp [writeBody, finish, latched_code, hfl]

theorem receivedAll_length {B left evs r got} (h : ReceivedAll B left evs r got) : 
    got.length ≤ left ∧ (r = .ok → got.length = left) := by
  induction h with
  | done => simp
  | failed h => exact ⟨Nat.zero_le _, fun e => absurd e h.1⟩
  | more _ _ ih => simp; omega

theorem readPass_got {B dev n evs r st got port} (h : ReadPass B dev n evs r st got port) : 
    got.length ≤ n ∧ (r = .ok → got.length = n ∧ port = [1,2,3,4,0]) := by
  obtain ⟨_, _, ⟨hr, _, rfl, _⟩ | ⟨_, _, _, h, _, hp⟩, _⟩ := h
  · exact ⟨Nat.zero_le _, fun e => absurd e hr⟩
  · exact ⟨(receivedAll_length h).1, fun e => ⟨(receivedAll_length h).2 e, hp⟩⟩

/-- The body of a raw read: one read pass, its result and its frame (R99, R101). -/
theorem readBody_spec (dev : DevAddr) (n : Len) (d : Delivery) (s : State) (hne : n ≠ 0) (hf : s.fail = .ok) :
    ∃ t evs r st got port u, readBody dev n d s = t ∧ t = u.setResult t.result ∧ OpFrame s u evs ∧
      ReadPass s.budget.toNat dev n.toNat evs r st got port ∧
      t.result = (if r = .ok ∧ st = .ok then ⟨true, n, d.dataOf (got.getLastD 0), .ok⟩
        else ⟨true, 0, 0, if r = .ok then st else r⟩) ∧
      u.phase = .idle ∧ (s.phase = .idle → u.dbgLog = s.dbgLog ++ port) ∧
      t.acken = (if port = [1, 4, 0] then s.acken else decide (got.length + 1 < n.toNat)) ∧
      t.rxbuf = d.stored s.rxbuf 0 got ∧ t.byteidx.toNat = got.length ∧ t.fail = t.result.code := by
  have h0 : n.toNat ≠ 0 := fun e => hne (by apply BitVec.eq_of_toNat_eq; simpa using e)
  obtain ⟨evs, got, port, hf, hr, hb, hp, hd, hi, hfl, ha, hx⟩ := readPass_spec dev d n.toNat s h0 n.isLt hf
  refine ⟨_, evs, _, _, got, port, _, rfl, rfl, hf, hr, ?_, hp, hd, ha, hx, hi, ?_⟩
  · simp [readBody, finish, latched_eq, hb]
  · simp [readBody, finish, latched_code, hfl]

theorem acken_after_last {n : Nat} {port : List (BitVec 3)} {got : List Byte} {a : Bool}
    (hp : port = [1,2,3,4,0]) (hl : got.length = n) : (if port = [1, 4, 0] then a else decide (got.length + 1 < n)) = false := by
  subst hp hl; simp

theorem rxByte_of_stored (m : State) (t : State) (got : List Byte) (he : t.epoch = m.epoch)
    (h : t.rxbuf = m.rxbuf.storeFrom 0 got) (j : Nat) :
    t.rxByte j = if h : j < got.length then got[j] else m.rxByte j := by
  simp only [State.rxByte, h, Memory.lookup_storeFrom, he]
  by_cases hj : j < got.length <;> simp [hj]

theorem sentAll_ok {B bytes evs r k} (h : SentAll B bytes evs r k) (hr : r = .ok) : k = bytes.length := by
  induction h with
  | done => rfl
  | failed _ h => exact absurd hr h
  | more _ _ ih => simp [ih hr]

theorem writePass_ok {B dev bytes evs st k port} (h : WritePass B dev bytes evs .ok st k port) :
    k = bytes.length ∧ port = [1,2,3,4,0] := by
  obtain ⟨_, _, ⟨hr, _⟩ | ⟨_, _, _, h, _, hp⟩, _⟩ := h
  · exact absurd rfl hr
  · exact ⟨sentAll_ok h rfl, hp⟩

/-- The body of a register read: two passes, the second only after `Ok` (R120, R121). -/
theorem registerReadBody_spec (dev : DevAddr) (reg : Byte) (n : Len) (d : Delivery) (s : State) (hne : n ≠ 0)
    (hidle : s.phase = .idle) (hf : s.fail = .ok) :
    ∃ t evs r st got idx port u, registerReadBody dev reg n d s = t ∧ t = u.setResult t.result ∧ OpFrame s u evs ∧
      RegisterRead s.budget.toNat dev reg n.toNat evs r st got idx port ∧
      t.result = (if r = .ok ∧ st = .ok then ⟨true, n, d.dataOf (got.getLastD 0), .ok⟩
        else ⟨true, 0, 0, if r = .ok then st else r⟩) ∧
      u.phase = .idle ∧ u.dbgLog = s.dbgLog ++ port ∧
      (r = .ok ∧ st = .ok → t.acken = false) ∧
      t.rxbuf = d.stored s.rxbuf 0 got ∧ t.byteidx.toNat = idx ∧ t.fail = t.result.code := by
  obtain ⟨evs, sent, port, hf, hw, hp, hd, hi, hfl, ha, hx⟩ := writePass_spec dev (oneByte reg) [reg] s
      (by simp) (by simp) hf (by
      intro j hj u _ _
      have : j = 0 := by simp at hj; omega
      subst this; rfl)
  simp only [List.length_singleton] at hf hw hp hd hi hfl ha hx
  unfold registerReadBody
  generalize writePass dev 1 (oneByte reg) s = p at *
  obtain ⟨r, st, byte, w⟩ := p
  simp only at hf hw hp hd hi hfl ha hx
  by_cases hk : r = .ok ∧ st = .ok
  · obtain ⟨rfl, rfl⟩ := hk
    obtain ⟨rfl, rfl⟩ := writePass_ok hw
    obtain ⟨t, e2, r2, st2, got, port2, u, h1, h2, h3, h4, h5, h6, h7, h8, h9, h10, h11⟩ :=
        readBody_spec dev n d w hne hfl
    refine ⟨t, evs ++ e2, r2, st2, got, got.length, [1,2,3,4,0] ++ port2, u, by simpa using h1, h2,
        hf.trans h3, .inr ⟨_, _, _, _, hw, ?_, rfl, rfl, rfl⟩, h5, h6, ?_, ?_, ?_, h10, h11⟩
    · rw [hf.budget] at h4; exact h4
    · rw [h7 hp, hd hidle, List.append_assoc]
    · intro ho
      obtain ⟨hl, hp⟩ := (readPass_got h4).2 ho.1
      rw [h8]; exact acken_after_last hp hl
    · rw [h9, hx]
  · rw [if_neg hk]
    refine ⟨_, evs, r, st, [], sent, port, w, rfl, rfl, hf, .inl ⟨hk, hw, rfl⟩, ?_, hp, hd hidle,
        fun h => absurd h hk, ?_, hi, ?_⟩
    · simp [finish, latched_eq, hk]
    · show w.rxbuf = _; rw [hx]; cases d <;> rfl
    · simp [finish, latched_code, hfl]

theorem registerRead_got {B dev reg n evs r st got idx port} (h : RegisterRead B dev reg n evs r st got idx port) :
    got.length ≤ n ∧ (r = .ok ∧ st = .ok → got.length = n) := by
  rcases h with ⟨hk, _, rfl⟩ | ⟨_, _, _, _, _, h, _⟩
  · exact ⟨Nat.zero_le _, fun h => absurd h hk⟩
  · exact ⟨(readPass_got h).1, fun ho => ((readPass_got h).2 ho.1).1⟩

end Sys2Proof.Machine
end

