-- ==== Sys2Proof/Laws/Encoding.lean ====
section
/-! SUPPORT. The laws of the fields of a command word: fields to word and back, and the opcode numbers. -/

namespace Sys2Proof

/-- An appended vector as a number. -/
theorem bitVec_append_toNat {m n : Nat} (x : BitVec m) (y : BitVec n) :
    (x ++ y).toNat = x.toNat * 2 ^ n + y.toNat := by
  rw [BitVec.toNat_append, ← Nat.shiftLeft_add_eq_or_of_lt y.isLt, Nat.shiftLeft_eq]

/-- A word as a number, from its fields (spec/30_encoding.md R70). -/
theorem CommandWord.toWord_toNat (c : CommandWord) :
    c.toWord.toNat = ((c.op.toNat * 2 ^ 7 + c.dev.toNat) * 2 ^ 8 + c.reg.toNat) * 2 ^ 13 + c.imm.toNat := by
  show (c.op ++ c.dev ++ c.reg ++ c.imm : BitVec (4 + 7 + 8 + 13)).toNat = _
  rw [bitVec_append_toNat, bitVec_append_toNat, bitVec_append_toNat]

/-- The fields of a word as numbers. -/
theorem CommandWord.ofWord_toNat (w : Word) :
    (CommandWord.ofWord w).op.toNat = w.toNat / 2 ^ 28 % 2 ^ 4 ∧
    (CommandWord.ofWord w).dev.toNat = w.toNat / 2 ^ 21 % 2 ^ 7 ∧
    (CommandWord.ofWord w).reg.toNat = w.toNat / 2 ^ 13 % 2 ^ 8 ∧
    (CommandWord.ofWord w).imm.toNat = w.toNat % 2 ^ 13 := by
  simp [CommandWord.ofWord, BitVec.extractLsb'_toNat, Nat.shiftRight_eq_div_pow]

theorem CommandWord.ofWord_toWord (c : CommandWord) : CommandWord.ofWord c.toWord = c := by
  have h := CommandWord.ofWord_toNat c.toWord
  rw [CommandWord.toWord_toNat] at h
  have h1 := c.op.isLt; have h2 := c.dev.isLt; have h3 := c.reg.isLt; have h4 := c.imm.isLt
  generalize CommandWord.ofWord c.toWord = d at h
  obtain ⟨o, de, r, i⟩ := d
  obtain ⟨o', de', r', i'⟩ := c
  simp only at h h1 h2 h3 h4
  simp only [CommandWord.mk.injEq]
  refine ⟨?_, ?_, ?_, ?_⟩ <;> apply BitVec.eq_of_toNat_eq <;> omega

theorem CommandWord.toWord_ofWord (w : Word) : (CommandWord.ofWord w).toWord = w := by
  apply BitVec.eq_of_toNat_eq
  rw [CommandWord.toWord_toNat]
  have h := CommandWord.ofWord_toNat w
  have hw := w.isLt
  omega

/-- `VAL` below five zero bits: what an immediate byte is and is checked for. -/
theorem val_append (v : Byte) :
    (0#5 ++ v : Len).extractLsb' 0 8 = v ∧ (0#5 ++ v : Len).extractLsb' 8 5 = 0 := by
  revert v; decide

theorem append_val (i : Len) (h : i.extractLsb' 8 5 = 0) : (0#5 ++ i.extractLsb' 0 8 : Len) = i := by
  apply BitVec.eq_of_toNat_eq
  have h' := congrArg BitVec.toNat h
  have := i.isLt
  show (0#5 ++ i.extractLsb' 0 8 : BitVec (5+8)).toNat = _
  rw [bitVec_append_toNat]
  simp [BitVec.extractLsb'_toNat, Nat.shiftRight_eq_div_pow] at *
  omega

theorem Opcode.ofBits_bits (op : Opcode) : Opcode.ofBits op.bits = some op := by cases op <;> rfl
theorem Opcode.bits_of_ofBits {b : BitVec 4} {op : Opcode} (h : Opcode.ofBits b = some op) : op.bits = b := by
  revert op b; decide

/-- The fields of a command are its opcode's, well-formed, and name it. -/
theorem Instr.fields_ok (i : Instr) :
    i.fields.op = i.opcode.bits ∧ i.fields.wellFormed i.opcode = true ∧ i.fields.instr i.opcode = i := by
  cases i <;> simp [Instr.fields, Instr.opcode, CommandWord.wellFormed, CommandWord.instr,
      CommandWord.immIsByte, CommandWord.val] <;> exact val_append _ |>.symm

/-- Well-formed fields are those of the command they name. -/
theorem CommandWord.instr_fields (c : CommandWord) (op : Opcode) (h : c.op = op.bits)
    (hw : c.wellFormed op = true) : (c.instr op).fields = c := by
  obtain ⟨o, d, r, i⟩ := c
  cases op <;> simp [CommandWord.wellFormed, CommandWord.immIsByte] at hw h ⊢ <;>
    simp [CommandWord.instr, Instr.fields, CommandWord.val, h, hw, append_val]

/-- A match under a mask, bit by bit. -/
theorem mask_eq_iff (w m p : Word) : w &&& m = p ↔ ∀ i < 32, (w.getLsbD i && m.getLsbD i) = p.getLsbD i := by
  constructor
  · rintro rfl i hi; simp
  · intro h; apply BitVec.eq_of_getLsbD_eq; intro i hi; simpa using h i hi

/-- A field's value, bit by bit. -/
theorem extractLsb_eq_iff {k : Nat} (w : Word) (lo : Nat) (v : BitVec k) :
    w.extractLsb' lo k = v ↔ ∀ i < k, w.getLsbD (lo + i) = v.getLsbD i := by
  constructor
  · rintro rfl i hi; simp [hi]
  · intro h; apply BitVec.eq_of_getLsbD_eq; intro i hi; simpa [hi] using h i hi

end Sys2Proof
end

