-- ==== Sys2Proof/Laws/PerInstr.lean ====
section
/-! SUPPORT. The statements made of every command, one lemma per constructor. -/

namespace Sys2Proof.Laws.EncodedWordIsWellFormed

open Sys2Proof

/-- The word of a command is well-formed for its opcode and carries the opcode's number (spec/30_encoding.md R73). -/
def Statement (i : Instr) : Prop :=
  (CommandWord.ofWord (encode i)).op = i.opcode.bits ∧ (CommandWord.ofWord (encode i)).wellFormed i.opcode = true

/-- Shared by the constructors: the fields of the word are the command's. -/
theorem of_fields (i : Instr) : Statement i := by
  rw [Statement, encode, CommandWord.ofWord_toWord]
  exact ⟨(Instr.fields_ok i).1, (Instr.fields_ok i).2.1⟩

theorem wreg (dev : DevAddr) (reg : Byte) (val : Byte) : Statement (.wreg dev reg val) := of_fields _
theorem wbuf (dev : DevAddr) (n : Len) : Statement (.wbuf dev n) := of_fields _
theorem rreg (dev : DevAddr) (reg : Byte) : Statement (.rreg dev reg) := of_fields _
theorem rbuf (dev : DevAddr) (reg : Byte) (n : Len) : Statement (.rbuf dev reg n) := of_fields _
theorem wraw (dev : DevAddr) (val : Byte) : Statement (.wraw dev val) := of_fields _
theorem rraw (dev : DevAddr) : Statement (.rraw dev) := of_fields _
theorem rrawb (dev : DevAddr) (n : Len) : Statement (.rrawb dev n) := of_fields _

end Sys2Proof.Laws.EncodedWordIsWellFormed
end

