-- ==== Sys2Proof/Laws/Scripted.lean ====
section
/-! SUPPORT. The bounded poll when the environment's answers are pending: how many it takes and what it leaves. -/

namespace Sys2Proof.Machine

open Sys2Proof Sys2Proof.Trace

/-- A line read answers `part` of the next answer and records it as `ev`. -/
structure IsPart {α : Type} (lread : State → α × State) (ev : α → LineEvent) (part : LineAnswer → α) : Prop where
  eq : ∀ s, lread s = (part s.nextAnswer, s.dropAnswer.record (ev (part s.nextAnswer)))

theorem lreadSr1_isPart : IsPart lreadSr1 .rSr1 (·.sr1) := ⟨fun _ => rfl⟩
theorem lreadSr2_isPart : IsPart lreadSr2 .rSr2 (·.busy) := ⟨fun _ => rfl⟩
theorem lreadDr_isPart : IsPart lreadDr .rDr (·.dr) := ⟨fun _ => rfl⟩

variable {α : Type} {lread : State → α × State} {ev : α → LineEvent} {part : LineAnswer → α}

/-- Pending answers that do not satisfy the predicate are sampled one after the other. -/
theorem pollLoop_scripted (hr : IsPart lread ev part) (pred : α → Bool) (bad : List LineAnswer)
    (hbad : ∀ a ∈ bad, pred (part a) = false) (k : Nat) (s : State) (tl : List LineAnswer)
    (h : s.answers = bad ++ tl) :
    pollLoop lread pred (bad.length + k) s = pollLoop lread pred k
      { s with
        answers := tl
        history := s.history ++ bad.map (ev ∘ part)
        pollcnt := s.pollcnt + BitVec.ofNat 32 bad.length } := by
  induction bad generalizing s with
  | nil => simp at h; simp [← h]
  | cons a bad ih =>
    have hn : s.nextAnswer = a := State.nextAnswer_cons h
    simp only [List.length_cons, Nat.add_right_comm _ 1 k, pollLoop, hr.eq, hn, hbad a (by simp)]
    simp only [Bool.false_eq_true, if_false]
    rw [ih (fun a ha => hbad a (by simp [ha])) _ (by simp [h])]
    congr 1
    simp [State.setPollcnt, State.record, State.dropAnswer]
    rw [BitVec.add_assoc, BitVec.add_comm 1#32, BitVec.ofNat_add]

/-- A poll whose pending answers satisfy the predicate within the budget. -/
theorem poll_scripted_ok (hr : IsPart lread ev part) (pred : α → Bool) (bad : List LineAnswer) (good : LineAnswer)
    (hbad : ∀ a ∈ bad, pred (part a) = false) (hg : pred (part good) = true) (s : State) (rest : List LineAnswer)
    (h : s.answers = bad ++ good :: rest) (hlt : bad.length < s.budget.toNat) :
    poll lread pred s = (.ok, { s with
      answers := rest
      history := s.history ++ (bad.map (ev ∘ part) ++ [ev (part good)])
      pollcnt := BitVec.ofNat 32 (bad.length + 1) }) := by
  obtain ⟨k, hk⟩ : ∃ k, s.budget.toNat = bad.length + (k + 1) := ⟨s.budget.toNat - bad.length - 1, by omega⟩
  rw [poll, hk, pollLoop_scripted hr pred bad hbad (k + 1) (s.setPollcnt 0) _ h]
  simp only [pollLoop, hr.eq, State.nextAnswer, hg, if_true]
  simp [State.setPollcnt, State.record, State.dropAnswer, BitVec.ofNat_add]

/-- A poll whose pending answers use the budget up. -/
theorem poll_scripted_timeout (hr : IsPart lread ev part) (pred : α → Bool) (bad : List LineAnswer)
    (hbad : ∀ a ∈ bad, pred (part a) = false) (s : State) (rest : List LineAnswer)
    (h : s.answers = bad ++ rest) (hlt : bad.length = s.budget.toNat) :
    poll lread pred s = (.timeout, { s with
      answers := rest
      history := s.history ++ bad.map (ev ∘ part)
      pollcnt := s.budget }) := by
  rw [poll, ← hlt, show bad.length = bad.length + 0 from rfl, pollLoop_scripted hr pred bad hbad 0 (s.setPollcnt 0) _ h]
  simp [pollLoop, State.setPollcnt, hlt]

end Sys2Proof.Machine
end

