-- ==== Sys2Proof/Tests/Slice0.lean ====
section
/-! SUPPORT. The model's own tests, their expected results taken from the rules and vectors of spec/95_test_vectors.md,
and for every obligation with hypotheses a named witness that meets them. -/

namespace Sys2Proof.Tests

open Sys2Proof Sys2Proof.Machine Sys2Proof.Trace

/-! Helpers. -/

def fNone : Sr1 := ⟨false, false, false, false, false⟩
def fSb   : Sr1 := ⟨true, false, false, false, false⟩
def fAddr : Sr1 := ⟨false, true, false, false, false⟩
def fBtc  : Sr1 := ⟨false, false, true, false, false⟩
def fRxne : Sr1 := ⟨false, false, false, true, false⟩
def fAf   : Sr1 := ⟨false, false, false, false, true⟩

/-- An enabled block whose environment answers what the history records. -/
def ready (budget : Word) (h : List LineEvent) : State :=
  { State.reset with ctrl := ⟨true, false⟩, budget := budget, answers := script h }

/-- One step on a `CMD` write made the history `h`, showed `port`, left `RESULT` and took every answer. -/
def ran (s : State) (w : Word) (h : List LineEvent) (result : Word) (port : List (BitVec 3)) : Bool :=
  match step { s with inputs := [.memWrite 0 4 w] } with
  | .next t => t.history == h && t.result.word == result && t.dbgLog == 0 :: port && t.answers == [] && t.cmd == w
  | .fault _ | .refused _ => false

/-- The outcome is a next state that satisfies `p`. -/
def ends (o : Host.Outcome State Fault Refusal) (p : State → Bool) : Bool :=
  match o with
  | .next t => p t
  | .fault _ | .refused _ => false

/-- What one host access after reset reads, none when it is refused. -/
def readsAfter (s : State) (i : Input) : Option Word :=
  match step { s with inputs := [i] } with
  | .next t => t.hostRead
  | .fault _ | .refused _ => none

def refuses (s : State) (i : Input) : Bool :=
  match step { s with inputs := [i] } with
  | .refused (.undefinedHostAccess _ _) => true
  | _ => false

/-! WellFormed: each check refuses an ill-formed word (vectors X23 to X30), and `RBUF` has none (X12). -/

theorem smoke_wreg_imm : decode 0x178201A5 = .error (.notWellFormed .wreg) := by decide
theorem smoke_wbuf_reg : decode 0x27802004 = .error (.notWellFormed .wbuf) := by decide
theorem smoke_rreg_imm : decode 0x37820001 = .error (.notWellFormed .rreg) := by decide
theorem smoke_rbuf_none : decode 0x4FFFFFFF = .ok (.rbuf 0x7F 0xFF 8191) := by decide
theorem smoke_wraw_reg : decode 0x578020AF = .error (.notWellFormed .wraw) := by decide
theorem smoke_wraw_imm : decode 0x57800100 = .error (.notWellFormed .wraw) := by decide
theorem smoke_rraw_reg : decode 0x67802000 = .error (.notWellFormed .rraw) := by decide
theorem smoke_rraw_imm : decode 0x67800001 = .error (.notWellFormed .rraw) := by decide
theorem smoke_rrawb_reg : decode 0x77802002 = .error (.notWellFormed .rrawb) := by decide

/-! Decoding and encoding (vectors X1 to X22). -/

theorem test_decode_reserved_0 : decode 0x00000000 = .error (.reservedOpcode 0x0) := by decide
theorem test_decode_reserved_8 : decode 0x80000000 = .error (.reservedOpcode 0x8) := by decide
theorem test_decode_reserved_F : decode 0xFFFFFFFF = .error (.reservedOpcode 0xF) := by decide
theorem test_decode_wreg : decode 0x1FFFE0FF = .ok (.wreg 0x7F 0xFF 0xFF) := by decide
theorem test_decode_wbuf : decode 0x2FE01FFF = .ok (.wbuf 0x7F 8191) := by decide
theorem test_decode_rreg : decode 0x3D0EA000 = .ok (.rreg 0x68 0x75) := by decide
theorem test_decode_rbuf : decode 0x4D07600E = .ok (.rbuf 0x68 0x3B 14) := by decide
theorem test_decode_wraw : decode 0x578000AF = .ok (.wraw 0x3C 0xAF) := by decide
theorem test_decode_rraw : decode 0x6A000000 = .ok (.rraw 0x50) := by decide
theorem test_decode_rrawb : decode 0x7A000010 = .ok (.rrawb 0x50 16) := by decide
theorem test_encode_rbuf : encode (.rbuf 0x3C 0x10 3) = 0x47820003 := by decide
theorem test_tableWord : decodeTableWord 32 0x67800000 = some (.rraw 0x3C) ∧ decodeTableWord 32 0 = none := by decide

/-! Commands (vectors V5 to V36), one step each; a history `v<n>` is that of the vector V<n>. -/

/-- A list of events, its type said first. -/
abbrev events (h : List LineEvent) : List LineEvent := h

/-- The acknowledged address phase of the vectors, of the peer 0x3C. -/
def opened (b : Byte) : List LineEvent := [.wStart, .rSr1 fSb, .wDr b, .rSr1 fAddr, .rSr2 true, .rSr1 fNone]

def v8 : List LineEvent :=
  opened 0x78 ++ events [.wDr 0x10, .rSr1 fBtc, .rSr1 fNone, .wDr 0xA5, .rSr1 fBtc, .rSr1 fAf, .wAfClr, .wStop, .rSr2 false]

theorem test_wreg_nack_on_val :
    ran (ready 4 v8) 0x178200A5 v8 0x80000002 [1, 2, 3, 4, 0] = true := by decide

def v10 : List LineEvent :=
  opened 0x78 ++ events [.wDr 0x10, .rSr1 fBtc, .rSr1 fNone, .wDr 0xA5, .rSr1 fBtc, .rSr1 fNone, .wStop, .rSr2 true,
  .rSr2 true]

theorem test_wreg_stop_timeout :
    ran (ready 2 v10) 0x178200A5 v10 0x80000001 [1, 2, 3, 4, 0] = true := by decide

def v16 : List LineEvent :=
  opened 0x78 ++ events [.wDr 0x00, .rSr1 fBtc, .rSr1 fNone, .wDr 0xB3, .rSr1 fBtc, .rSr1 fNone, .wDr 0x02, .rSr1 fBtc,
  .rSr1 fNone, .wDr 0x10, .rSr1 fBtc, .rSr1 fNone, .wStop, .rSr2 false]

theorem test_wbuf_order :
    ran { ready 4 v16 with txbuf := [(0, 0x00), (1, 0xB3), (2, 0x02), (3, 0x10)] } 0x27800004 v16 0x80040000
      [1, 2, 3, 4, 0] = true := by decide

theorem test_wbuf_zero_length : ran (ready 4 []) 0x27800000 [] 0x80000003 [] = true := by decide

def v20 : List LineEvent :=
  opened 0x78 ++ events [.wDr 0x10, .rSr1 fBtc, .rSr1 fNone, .wStop, .rSr2 false] ++
  opened 0x79 ++ events [.wAck false, .rSr1 fRxne, .rDr 0x5A, .wStop, .rSr2 false]

theorem test_rreg_data :
    ran (ready 4 v20) 0x37820000 v20 0x80015A00 [1, 2, 3, 4, 0, 1, 2, 3, 4, 0] = true := by decide

def v22 : List LineEvent :=
  opened 0x78 ++ events [.wDr 0x10, .rSr1 fBtc, .rSr1 fNone, .wStop, .rSr2 true, .rSr2 true]

theorem test_rreg_no_second_pass :
    ran (ready 2 v22) 0x37820000 v22 0x80000001 [1, 2, 3, 4, 0] = true := by decide

/-- The history of vector V27: the second byte never arrives. -/
def v27 : List LineEvent := opened 0x78 ++ events [.wDr 0x10, .rSr1 fBtc, .rSr1 fNone, .wStop, .rSr2 false] ++ opened 0x79 ++
  events [.wAck true, .rSr1 fRxne, .rDr 0x11, .wAck true, .rSr1 fNone, .rSr1 fNone, .wStop, .rSr2 false]

theorem test_rbuf_timeout : ran (ready 2 v27) 0x47820003 v27 0x80000001 [1, 2, 3, 4, 0, 1, 2, 3, 4, 0] = true := by decide

theorem test_rbuf_keeps_what_came : ends (exec (.rbuf 0x3C 0x10 3) (ready 2 v27)) (fun t =>
    t.rxbuf == [(0, 0x11)] && t.acken && t.byteidx == 1 && t.fail == .timeout) = true := by decide

def v33 : List LineEvent :=
  [.wStart, .rSr1 fNone, .rSr1 fSb, .wDr 0x78, .rSr1 fNone, .rSr1 fNone, .rSr1 fAddr, .rSr2 true, .rSr1 fNone,
  .wDr 0xAF, .rSr1 fBtc, .rSr1 fNone, .wStop, .rSr2 true, .rSr2 false]

theorem test_wraw_slow :
    ran (ready 3 v33) 0x578000AF v33 0x80010000 [1, 2, 3, 4, 0] = true := by decide

def v34 : List LineEvent :=
  [.wStart, .rSr1 fSb, .wDr 0x78, .rSr1 fAf, .rSr2 true, .rSr1 fNone, .wDr 0xAF, .rSr1 fBtc, .rSr1 fNone,
  .wStop, .rSr2 false]

theorem test_wraw_check_decides :
    ran (ready 4 v34) 0x578000AF v34 0x80010000 [1, 2, 3, 4, 0] = true := by decide

def v29 : List LineEvent :=
  opened 0x79 ++ events [.wAck false, .rSr1 fRxne, .rDr 0x5A, .wStop, .rSr2 false]

theorem test_rraw_data :
    ran (ready 4 v29) 0x67800000 v29 0x80015A00 [1, 2, 3, 4, 0] = true := by decide

def v36 : List LineEvent :=
  opened 0x79 ++ events [.wAck false, .rSr1 fNone, .wStop, .rSr2 false]

theorem test_rraw_timeout :
    ran (ready 1 v36) 0x67800000 v36 0x80000001 [1, 2, 3, 4, 0] = true := by decide

/-- The history of vector V30. -/
def v30 : List LineEvent := opened 0x79 ++ events [.wAck true, .rSr1 fRxne, .rDr 0x11, .wAck false, .rSr1 fRxne, .rDr 0x22,
  .wStop, .rSr2 false]

theorem test_rrawb : ran (ready 4 v30) 0x77800002 v30 0x80020000 [1, 2, 3, 4, 0] = true := by decide

theorem test_rrawb_fills : ends (exec (.rrawb 0x3C 2) (ready 4 v30)) (fun t =>
    t.rxbuf == [(0, 0x11), (1, 0x22)] && !t.acken) = true := by decide

/-! The primitives alone (vectors V4m, V4r). -/

theorem test_sendByte_nack_in_poll_sample :
    (sendByte 0xAF (ready 2 [.rSr1 ⟨false, false, true, false, true⟩, .rSr1 fAf])).1 = .nack ∧
    (sendByte 0xAF (ready 2 [.rSr1 ⟨false, false, true, false, true⟩, .rSr1 fAf])).2.history =
      [.wDr 0xAF, .rSr1 ⟨false, false, true, false, true⟩, .rSr1 fAf, .wAfClr] := by decide

theorem test_receiveByte_ignores_af :
    (match receiveByte false (ready 2 [.rSr1 ⟨false, false, false, true, true⟩, .rDr 0x5A]) with
    | (.ok v, t) => v == 0x5A && t.history == [.wAck false, .rSr1 ⟨false, false, false, true, true⟩, .rDr 0x5A]
    | (.error _, _) => false) = true := by decide

/-! The host interface (vectors M1 to M10), reset, and how a program comes to run. -/

theorem test_registers_after_reset : readsAfter State.reset (.memRead 0x0 4) = some 0 ∧
    readsAfter State.reset (.memRead 0x4 4) = some 0 ∧ readsAfter State.reset (.memRead 0x8 4) = some 0 ∧
    readsAfter State.reset (.memRead 0xC 4) = some 0 := by decide

theorem test_ctrl_reserved_bits : ends (step { State.reset with inputs := [.memWrite 0xC 4 0xFFFFFFFF] }) (fun t =>
    t.ctrl.word == 3) = true := by decide

theorem test_result_write_ignored :
    step { ready 4 [] with inputs := [.memWrite 0x4 4 0x12345678] } = .next (ready 4 []) := by rfl

theorem test_txbuf_last_byte :
    readsAfter { State.reset with txbuf := [(8191, 0xCD)] } (.memRead 0x3FFF 1) = some 0xCD ∧
    ends (step { State.reset with inputs := [.memWrite 0x3FFF 1 0xCD] }) (fun t => t.txbuf == [(8191, 0xCD)]) = true := by
  decide

theorem test_rxbuf_write_ignored :
    ends (step { State.reset with inputs := [.memWrite 0x4000 1 0xEE] }) (fun t => t.rxbuf == []) = true := by decide

theorem test_undefined_accesses : refuses State.reset (.memRead 0x10 4) = true ∧
    refuses State.reset (.memWrite 0x2 4 0) = true ∧
    refuses State.reset (.memRead 0x4 1) = true ∧ refuses State.reset (.memRead 0x2000 4) = true := by decide

theorem test_reset_input :
    ends (step { ready 9 [] with inputs := [.reset], phase := .dataPhase, acken := true, history := v30 }) (fun t =>
      t.budget == 0 && !t.ctrl.en && t.phase == .idle && !t.acken && t.history == []) = true := by decide

/-- From reset the first command runs, and `CTRL.EN = 0` ends it `Error` (vector M2, program P5). -/
theorem test_first_command_after_reset : ends (step (State.reset.withFetchWord 32 0x178200A5)) (fun t =>
    t.cmd == 0x178200A5 && t.result.word == 0x80000003 && t.history == []) = true := by decide

/-! The line contract and the wire trace. -/

/-- The histories A and B of program P4. -/
def p4a : List LineEvent := opened 0x78 ++ events [.wDr 0xAF, .rSr1 fAf, .rSr1 fAf, .wStop, .rSr2 false]
def p4b : List LineEvent := [.wStart, .rSr1 ⟨true, false, false, false, true⟩, .wDr 0x78, .rSr1
  ⟨false, true, false, false, true⟩, .rSr2 true, .rSr1 fAf, .wAfClr, .wStop, .rSr2 false]

theorem test_p4_respects_the_contract : (LC1 (p4a ++ p4b) && LC2 (p4a ++ p4b) && LC3 (p4a ++ p4b) && LC4 (p4a ++ p4b) &&
    LC5 (p4a ++ p4b) && LC6 (p4a ++ p4b) && LC7 (p4a ++ p4b)) = true := by decide

/-- The state that the first command of P4 leaves, as far as its second goes by it. -/
def p4s : State := { ready 2 p4b with history := p4a }

theorem test_p4_spurious_nack : ends (exec (.wraw 0x3C 0xAF) p4s) (fun t =>
    t.history == p4a ++ p4b && t.result.word == 0x80000002) = true := by decide

/-- The history of vector V34 breaks LC3: `AF` was answered 1, then 0, and nothing cleared it between. -/
theorem test_v34_breaks_LC3 : LC3 [.wStart, .rSr1 fSb, .wDr 0x78, .rSr1 fAf, .rSr2 true, .rSr1 fNone] = false := by decide

theorem test_wire_trace : wireTrace v30 = some [.s, .t 0x79 true, .r 0x11 true, .r 0x22 false, .p] ∧
    wireTrace v27 = none := by decide

/-! Witnesses: for every obligation with hypotheses a state and operands that meet them, clause by clause. -/

/-- The last sample of a budget of 2 satisfies the poll; a budget of 2, and of 0, runs out. -/
theorem witness_StartAndStopFollowTheirAnswers :
    ((ready 2 [.rSr1 fNone, .rSr1 fSb]).answers = [⟨fNone, false, 0⟩] ++ ⟨fSb, false, 0⟩ :: [] ∧
      [(⟨fNone, false, 0⟩ : LineAnswer)].length < (2 : Word).toNat ∧ fNone.sb = false ∧ fSb.sb = true) ∧
    ((ready 2 [.rSr1 fNone, .rSr1 fNone]).answers = [⟨fNone, false, 0⟩, ⟨fNone, false, 0⟩] ++ [] ∧
      [(⟨fNone, false, 0⟩ : LineAnswer), ⟨fNone, false, 0⟩].length = (2 : Word).toNat) ∧
    ((ready 0 []).answers = [] ++ [] ∧ ([] : List LineAnswer).length = (0 : Word).toNat) ∧
    ((ready 2 [.rSr2 true, .rSr2 false]).answers = [⟨fNone, true, 0⟩] ++ ⟨fNone, false, 0⟩ :: []) ∧
    ((ready 1 [.rSr2 true]).answers = [⟨fNone, true, 0⟩] ++ [] ∧
      [(⟨fNone, true, 0⟩ : LineAnswer)].length = (1 : Word).toNat) := by decide

theorem witness_SendAddressDecidesOnTheCheck :
    (∀ a ∈ [(⟨fSb, true, 7⟩ : LineAnswer)], a.sr1.addr = false ∧ a.sr1.af = false) ∧
    ((ready 2 [.rSr1 fSb, .rSr1 fAddr, .rSr2 true, .rSr1 fNone]).answers =
      [⟨fSb, false, 0⟩] ++ ⟨fAddr, false, 0⟩ :: ⟨fNone, true, 0⟩ :: ⟨fNone, false, 0⟩ :: [] ∧ 1 < (2 : Word).toNat ∧
      (fAddr.addr = true ∨ fAddr.af = true) ∧ fNone.af = false) ∧
    ((ready 1 [.rSr1 fAf, .rSr2 true, .rSr1 fAf]).answers =
      [] ++ ⟨fAf, false, 0⟩ :: ⟨fNone, true, 0⟩ :: ⟨fAf, false, 0⟩ :: [] ∧ 0 < (1 : Word).toNat ∧
      (fAf.addr = true ∨ fAf.af = true) ∧ fAf.af = true) ∧
    ((ready 1 [.rSr1 fSb]).answers = [⟨fSb, false, 0⟩] ++ [] ∧ 1 = (1 : Word).toNat) := by decide

theorem witness_SendByteChecksAfterThePoll :
    ((ready 1 [.rSr1 fBtc, .rSr1 fAf]).answers = [] ++ ⟨fBtc, false, 0⟩ :: ⟨fAf, false, 0⟩ :: [] ∧
      0 < (1 : Word).toNat ∧ fBtc.btc = true) ∧
    ((ready 1 [.rSr1 fAf]).answers = [⟨fAf, false, 0⟩] ++ [] ∧ fAf.btc = false ∧ 1 = (1 : Word).toNat) := by decide

theorem witness_ReceiveByteTakesTheAnsweredByte :
    ((ready 1 [.rSr1 fRxne, .rDr 0x5A]).answers = [] ++ ⟨fRxne, false, 0⟩ :: ⟨fNone, false, 0x5A⟩ :: [] ∧
      0 < (1 : Word).toNat ∧ fRxne.rxne = true) ∧
    ((ready 1 [.rSr1 fNone]).answers = [⟨fNone, false, 0⟩] ++ [] ∧ fNone.rxne = false ∧ 1 = (1 : Word).toNat) := by decide

/-- For the seven command statements, `WregIsOneWritePass` to `RrawbFillsTheBufferInOrder`: a disabled block, an enabled
idle one, and the lengths 0, 1 and 8191. -/
theorem witness_commands : State.reset.ctrl.en = false ∧ (ready 4 v30).ctrl.en = true ∧ (ready 4 v30).phase = .idle ∧
    (0 : Len) = 0 ∧ (1 : Len) ≠ 0 ∧ (8191 : Len) ≠ 0 := by decide

theorem witness_EncodeOfDecodeIsTheWord : decode 0x178200A5 = .ok (.wreg 0x3C 0x10 0xA5) := by decide

theorem witness_DecoderAcceptsTheTablePatterns : (⟨.rbuf, 0x40000000, 0xF0000000⟩ : OpRow) ∈ opcodeRows ∧
    (⟨.rbuf, 0x40000000, 0xF0000000⟩ : OpRow).accepts 0x4FFFFFFF = true := by decide

/-- For the four `…CompleteUnderThePromptOracle` (one `Completes`): the budget of one sample suffices;
lengths 1 and 2. -/
theorem witness_completions :
    (ready 1 []).ctrl.en = true ∧ (ready 1 []).budget ≠ 0 ∧ (ready 1 []).phase = .idle ∧
    (ready 1 (promptWrite 0x3C [0x10, 0xA5])).answers = script (promptWrite 0x3C [0x10, 0xA5]) ++ [] ∧
    (ready 1 (promptWrite 0x3C [0xAF])).answers = script (promptWrite 0x3C [0xAF]) ++ [] ∧
    [(0x40 : Byte)] = (List.range (1 : Len).toNat).map ({ State.reset with txbuf := [(0, 0x40)] }).txByte ∧
    (ready 1 (promptWrite 0x3C [0x10] ++ promptRead 0x3C [0x5A])).answers =
      script (promptWrite 0x3C [0x10] ++ promptRead 0x3C [0x5A]) ++ [] ∧
    (ready 1 (promptRead 0x3C [0x11, 0x22])).answers = script (promptRead 0x3C [0x11, 0x22]) ++ [] ∧
    [(0x11 : Byte), 0x22].length = (2 : Len).toNat ∧ [(0x5A : Byte)].length = (1 : Len).toNat ∧ (2 : Len) ≠ 0 := by decide

/-- For the statements about every command, or every admitted one, that answers a next state:
`ErrorIsDecidedAtAdmissionOnly`, `EveryAdmittedCommandEndsWithAStop`, `StartsAndStopsArePaired`,
`CommandsLeaveTheHostsRegisters`, `OnlyBufferReadsWriteRxbuf`, `AckenIsWrittenByReadsOnly`,
`WorkingRegistersCarryNothingOver`, `FastIsReadByNoRule`, `EarlierResultHasNoEffect`,
`HistoryIsTheScriptOfTheOracle`, `PollCountStaysWithinTheBudget`, `FailHoldsTheFirstFailure`. -/
theorem witness_admitted : admitted (.rbuf 0x3C 0x10 3) (ready 2 v27) ∧
    ∃ t, exec (.rbuf 0x3C 0x10 3) (ready 2 v27) = .next t := ⟨⟨rfl, rfl⟩, _, rfl⟩

theorem witness_RejectedCommandsChangeOnlyResult : ¬admitted (.rraw 0x3C) State.reset ∧
    ¬admitted (.wbuf 0x3C 0) (ready 4 []) :=
  ⟨fun h => absurd h.1 (by decide), fun h => absurd h.2 (by decide)⟩

/-- The bound is met: a write whose last byte is not acknowledged makes the one event more. -/
theorem witness_EveryCommandIsBounded : ends (exec (.wreg 0x3C 0x10 0xA5) (ready 1 v8)) (fun t =>
    t.history.length == pollsOf (.wreg 0x3C 0x10 0xA5) * (1 : Word).toNat + nonSamplesOf (.wreg 0x3C 0x10 0xA5) + 1) = true := by
  decide

theorem witness_ZeroBudgetTimesOutWithoutASample : admitted (.rrawb 0x3C 1) (ready 0 []) ∧ (ready 0 []).budget = 0 ∧
    (ready 0 []).phase = .idle := ⟨⟨rfl, rfl⟩, rfl, rfl⟩

/-- The environment of a peer that does not acknowledge its address. -/
def nacked : State := ready 1 [.rSr1 fSb, .rSr1 fAf, .rSr2 true, .rSr1 fAf, .rSr2 false]

theorem witness_AddressNackEndsEveryCommand :
    admitted (.rreg 0x3C 0x10) nacked ∧ nacked.budget ≠ 0 ∧ nacked.phase = .idle ∧
    nacked.answers = script [.rSr1 fSb, .rSr1 fAf, .rSr2 true, .rSr1 fAf, .rSr2 false] ++ [] :=
  ⟨⟨rfl, rfl⟩, by decide, rfl, rfl⟩

theorem witness_StaleAcknowledgeFailureBlocksOk : admitted (.wraw 0x3C 0xAF) p4s ∧ (trackOf p4s.history).afSeen = true ∧
    ∃ t, exec (.wraw 0x3C 0xAF) p4s = .next t ∧ LC3 t.history = true := ⟨⟨rfl, rfl⟩, by decide, _, rfl, by decide⟩

/-- Both pairs of reads run, and end `Ok`. -/
def regAnswered : State := ready 1 (promptWrite 0x3C [0x10] ++ promptRead 0x3C [0x5A])
def rawAnswered : State := ready 1 (promptRead 0x3C [0x5A])

theorem witness_OneByteFormsMakeTheSameAccesses :
    (ends (exec (.rreg 0x3C 0x10) regAnswered) (fun t => t.result.code == .ok) &&
      ends (exec (.rbuf 0x3C 0x10 1) regAnswered) (fun t => t.result.code == .ok) &&
      ends (exec (.rraw 0x3C) rawAnswered) (fun t => t.result.code == .ok) &&
      ends (exec (.rrawb 0x3C 1) rawAnswered) (fun t => t.result.code == .ok)) = true := by decide

/-- The block about to take one input. -/
def facing (i : Input) : State := { State.reset with inputs := [i] }

theorem witness_StepRunsTheDecodedCommand :
    (facing (.memWrite 0 4 0x67800000)).inputs = .memWrite State.reset.base 4 0x67800000 :: [] ∧
    decode 0x67800000 = .ok (.rraw 0x3C) := by decide

theorem witness_HostReadsTheRegisters : ∀ offset ∈ [0x0, 0x4, 0x8, 0xC],
    (facing (.memRead offset 4)).inputs = .memRead (State.reset.base + offset) 4 :: [] := by decide

theorem witness_HostReadsTheBuffers : ∀ k ∈ [0, 8191], k < 8192 ∧
    (facing (.memRead (0x2000 + k) 1)).inputs = .memRead (State.reset.base + 0x2000 + k) 1 :: [] ∧
    (facing (.memRead (0x4000 + k) 1)).inputs = .memRead (State.reset.base + 0x4000 + k) 1 :: [] := by decide

theorem witness_HostWritesTheRegisters : ∀ offset ∈ [0x4, 0x8, 0xC],
    (facing (.memWrite offset 4 7)).inputs = .memWrite (State.reset.base + offset) 4 7 :: [] := by decide

theorem witness_HostWritesTheBuffers : ∀ k ∈ [0, 8191], k < 8192 ∧ State.reset.txbuf.wf = true ∧
    (facing (.memWrite (0x2000 + k) 1 0xAB)).inputs =
      .memWrite (State.reset.base + 0x2000 + k) 1 ((0xAB : Byte).setWidth 32) :: [] ∧
    (facing (.memWrite (0x4000 + k) 1 0xAB)).inputs =
      .memWrite (State.reset.base + 0x4000 + k) 1 ((0xAB : Byte).setWidth 32) :: [] := by decide

theorem witness_WaitingBlockDoesNothing : State.reset.inputs = [] := rfl

theorem witness_ResetInputResetsTheEngine : (facing .reset).inputs = .reset :: [] := rfl

/-- A reserved opcode at both ends of each range, and a must-be-zero field that is not zero. -/
theorem witness_InvalidWordEndsErrorWithoutLineAccess :
    (facing (.memWrite 0 4 0x77802002)).inputs = .memWrite State.reset.base 4 0x77802002 :: [] ∧
    (0x00000000#32).extractLsb' 28 4 = 0#4 ∧ 0x8#4 ≤ (0x80000000#32).extractLsb' 28 4 ∧
    0x8#4 ≤ (0xFFFFFFFF#32).extractLsb' 28 4 ∧
    (⟨.rrawb, 0x70000000, 0xF01FE000⟩ : OpRow) ∈ opcodeRows ∧ (0x77802002#32).extractLsb' 28 4 = Opcode.rrawb.bits ∧
    0x77802002#32 &&& 0xF01FE000 ≠ 0x70000000 := by decide

/-- Undefined accesses beside every window: a byte at a register, a word in a window, the first byte past
the last window, the last before the first. -/
theorem witness_UndefinedHostAccessIsRefused :
    (∀ p ∈ [((0x4 : Nat), 1), (0x2000, 4), (0x6000, 1), (0x1FFF, 1), (0x10, 4), (0x2, 4), (0x0, 2)],
      ¬(p.2 = 4 ∧ (p.1 = 0 ∨ p.1 = 0x4 ∨ p.1 = 0x8 ∨ p.1 = 0xC)) ∧ ¬(p.2 = 1 ∧ 0x2000 ≤ p.1 ∧ p.1 ≤ 0x5FFF)) := by decide

/-- An enabled block about to run the command of vector V27. -/
def v27Next : State := { ready 2 v27 with inputs := [.memWrite 0 4 0x47820003] }

theorem witness_EveryStepKeepsTheInvariant : v27Next.Inv ∧ ends (step v27Next) (fun t => t.rxbuf == [(0, 0x11)]) = true :=
  ⟨⟨by decide, by decide, rfl, by decide, by decide, by decide, by decide, by decide⟩, by decide⟩

end Sys2Proof.Tests
end

/-! What every command is: admission, then one of three bodies. -/

namespace Sys2Proof.Machine

open Sys2Proof Sys2Proof.Trace

/-- The body that each command runs once it is admitted (spec/41_write_commands.md, spec/42_read_commands.md). -/
def bodyOf : Instr → State → State
  | .wreg dev reg val => writeBody dev 2 (wregByte reg val) 2
  | .wbuf dev n       => writeBody dev n.toNat txBufByte n
  | .rreg dev reg     => registerReadBody dev reg 1 .data
  | .rbuf dev reg n   => registerReadBody dev reg n .rxbuf
  | .wraw dev val     => writeBody dev 1 (oneByte val) 1
  | .rraw dev         => readBody dev 1 .data
  | .rrawb dev n      => readBody dev n .rxbuf

theorem exec_eq_command (i : Instr) (s : State) : exec i s = command (!zeroLength i) (bodyOf i) s := by
  cases i <;> rfl

theorem exec_of_admitted {i : Instr} {s : State} (h : admitted i s) : exec i s = .next (bodyOf i (s.setFail .ok)) := by
  obtain ⟨hen, hlen⟩ := h
  simp [exec_eq_command, command, hen, hlen]

theorem exec_of_not_admitted {i : Instr} {s : State} (h : ¬admitted i s) : exec i s = .next (reject s) := by
  have hcond : ¬(s.ctrl.en && !zeroLength i) = true := by simpa [admitted] using h
  rw [exec_eq_command, command, if_neg hcond]

/-- `b` answers the bytes `bytes` in order, as long as `TXBUF` stands. -/
def Sends (b : Nat → State → Byte) (bytes : List Byte) (s : State) : Prop :=
  ∀ j (hj : j < bytes.length) (u : State), u.txbuf = s.txbuf → u.epoch = s.epoch → b j u = bytes[j]

theorem wregByte_sends (reg val : Byte) (s : State) : Sends (wregByte reg val) [reg, val] s := by
  intro j hj u _ _
  match j, hj with
  | 0, _ => rfl
  | 1, _ => rfl

theorem oneByte_sends (v : Byte) (s : State) : Sends (oneByte v) [v] s := by
  intro j hj u _ _
  obtain rfl : j = 0 := by simpa using hj
  rfl

theorem txBufByte_sends (n : Nat) (s : State) : Sends txBufByte ((List.range n).map s.txByte) s := by
  intro j hj u ht he
  simp [txBufByte, State.txByte, ht, he]

/-- The three forms of a command's body, with what is true of the operands of an admitted command. -/
inductive BodyForm (i : Instr) (s : State) : (State → State) → Prop
  /-- one write pass of at least one byte (R98) -/
  | write (dev : DevAddr) (bytes : List Byte) (b : Nat → State → Byte) (hdir : isRead i = false)
      (hne : bytes ≠ []) (hlen : bytes.length < 8192) (hsends : Sends b bytes s) :
      BodyForm i s (writeBody dev bytes.length b (okCount i))
  /-- one read pass (R99) -/
  | rawRead (dev : DevAddr) (dest : Delivery) (hdir : isRead i = true)
      (hdest : writesRxbuf i = false → dest = .data) (hne : okCount i ≠ 0) :
      BodyForm i s (readBody dev (okCount i) dest)
  /-- a write pass of a register address, then a read pass (R120, R121) -/
  | registerRead (dev : DevAddr) (reg : Byte) (dest : Delivery) (hdir : isRead i = true)
      (hdest : writesRxbuf i = false → dest = .data) (hne : okCount i ≠ 0) :
      BodyForm i s (registerReadBody dev reg (okCount i) dest)

theorem bodyOf_form {i : Instr} (h : zeroLength i = false) (s : State) : BodyForm i s (bodyOf i) := by
  cases i with
  | wreg dev reg val => exact .write dev [reg, val] _ rfl (by simp) (by simp) (wregByte_sends reg val s)
  | wraw dev val => exact .write dev [val] _ rfl (by simp) (by simp) (oneByte_sends val s)
  | wbuf dev n =>
    have hn : n.toNat ≠ 0 := by simpa [zeroLength, BitVec.toNat_eq] using h
    have hform := BodyForm.write (i := .wbuf dev n) dev ((List.range n.toNat).map s.txByte) txBufByte rfl
      (by simpa using hn) (by simpa using n.isLt) (txBufByte_sends n.toNat s)
    rwa [List.length_map, List.length_range] at hform
  | rreg dev reg => exact .registerRead dev reg .data rfl (fun _ => rfl) (show (1 : Len) ≠ 0 by decide)
  | rraw dev => exact .rawRead dev .data rfl (fun _ => rfl) (show (1 : Len) ≠ 0 by decide)
  | rbuf dev reg n => exact .registerRead dev reg .rxbuf rfl nofun (show n ≠ 0 by simpa [zeroLength] using h)
  | rrawb dev n => exact .rawRead dev .rxbuf rfl nofun (show n ≠ 0 by simpa [zeroLength] using h)

/-- Everything a command can do: it is rejected, or it runs a body of one of the three forms. -/
theorem exec_cases {i : Instr} {s t : State} (h : exec i s = .next t) :
    (¬admitted i s ∧ t = reject s) ∨
    (admitted i s ∧ BodyForm i (s.setFail .ok) (bodyOf i) ∧ t = bodyOf i (s.setFail .ok)) := by
  by_cases ha : admitted i s
  · rw [exec_of_admitted ha] at h
    exact .inr ⟨ha, bodyOf_form ha.2 _, by cases h; rfl⟩
  · rw [exec_of_not_admitted ha] at h
    exact .inl ⟨ha, by cases h; rfl⟩

theorem firstFailure_eq_ok {r st : Result} : firstFailure r st = .ok ↔ r = .ok ∧ st = .ok := by
  unfold firstFailure
  split
  · next hr => simp [hr]
  · next hr => simp [hr]

/-- A register read goes on as a raw read, or ends after its write pass with a failure (R120, R121). -/
theorem registerReadBody_cases (dev : DevAddr) (reg : Byte) (n : Len) (dest : Delivery) (s : State)
    (p : PassEnd) (hp : writePass dev 1 (oneByte reg) s = p) :
    (firstFailure p.r p.stop = .ok ∧ registerReadBody dev reg n dest s = readBody dev n dest p.s) ∨
    (firstFailure p.r p.stop ≠ .ok ∧ registerReadBody dev reg n dest s = finish p.r p.stop 0 0 p.s) := by
  subst hp
  simp only [registerReadBody, ← firstFailure_eq_ok]
  exact (em _).imp (fun h => ⟨h, if_pos h⟩) (fun h => ⟨h, if_neg h⟩)

end Sys2Proof.Machine

/-! What the history grammar says of the order of accesses, of the stop and of the port. -/

namespace Sys2Proof.Machine

open Sys2Proof Sys2Proof.Trace

/-- The events stand where they may stand, whatever access came before them (spec/93_implementation_defined.md U8,
spec/60_exceptions.md R132). -/
def OrderedAfterAny (evs : List LineEvent) : Prop := ∀ before, orderedFrom before evs = true

theorem orderedFrom_append {before : Option LineEvent} {e₁ e₂ : List LineEvent} (h₁ : orderedFrom before e₁ = true)
    (h₂ : OrderedAfterAny e₂) : orderedFrom before (e₁ ++ e₂) = true := by
  induction e₁ generalizing before with
  | nil => exact h₂ before
  | cons e e₁ ih =>
    simp only [orderedFrom, Bool.and_eq_true] at h₁
    simp [orderedFrom, h₁.1, ih h₁.2]

theorem OrderedAfterAny.append {e₁ e₂ : List LineEvent} (h₁ : OrderedAfterAny e₁) (h₂ : OrderedAfterAny e₂) :
    OrderedAfterAny (e₁ ++ e₂) :=
  fun before => orderedFrom_append (h₁ before) h₂

/-- Events that are neither `R_DR` nor `W_AFCLR` may stand anywhere. -/
theorem orderedAfterAny_of_free {evs : List LineEvent} (h : ∀ e ∈ evs, ∀ before, mayFollow before e = true) :
    OrderedAfterAny evs := by
  induction evs with
  | nil => exact fun _ => rfl
  | cons e evs ih =>
    intro before
    rw [orderedFrom, h e (by simp) before, ih (fun e' he' => h e' (by simp [he']))]
    rfl

theorem orderedAfterAny_samples {α : Type} {ev : α → LineEvent} (hev : ∀ v before, mayFollow before (ev v) = true)
    (vs : List α) : OrderedAfterAny (vs.map ev) := by
  refine orderedAfterAny_of_free fun e he before => ?_
  obtain ⟨v, _, rfl⟩ := List.mem_map.1 he
  exact hev v before

theorem orderedAfterAny_cons_of_free {e : LineEvent} {evs : List LineEvent}
    (he : ∀ before, mayFollow before e = true) (h : OrderedAfterAny evs) : OrderedAfterAny (e :: evs) := by
  intro before
  rw [orderedFrom, he, h]
  rfl

theorem polled_ordered {α : Type} {ev : α → LineEvent} {pred : α → Bool} {n : Nat} {evs : List LineEvent} {r : Result}
    (hev : ∀ v before, mayFollow before (ev v) = true) (h : Polled ev pred n evs r) : OrderedAfterAny evs := by
  obtain ⟨vs, rfl, _⟩ := h
  exact orderedAfterAny_samples hev vs

theorem seq_ordered {P Q : Events → Result → Prop} {evs : Events} {r : Result}
    (hP : ∀ {evs r}, P evs r → OrderedAfterAny evs) (hQ : ∀ {evs r}, Q evs r → OrderedAfterAny evs)
    (h : Seq P Q evs r) : OrderedAfterAny evs := by
  obtain ⟨_, h⟩ | ⟨e₁, e₂, h₁, h₂, rfl⟩ := h
  · exact hP h
  · exact (hP h₁).append (hQ h₂)

theorem wrote_ordered {v : Byte} {evs : Events} {r : Result} (h : Wrote v evs r) : OrderedAfterAny evs := by
  obtain ⟨rfl, _⟩ := h
  exact fun _ => rfl

theorem cleared_ordered {evs : Events} {r : Result} (h : Cleared evs r) : OrderedAfterAny evs := by
  obtain ⟨⟨_, rfl⟩, _⟩ := h
  exact fun _ => rfl

/-- The check clears `AF` directly after it read `AF = 1`. -/
theorem checked_ordered {evs : Events} {r : Result} (h : Checked evs r) : OrderedAfterAny evs := by
  obtain ⟨f, ⟨_, rfl, _⟩ | ⟨haf, rfl, _⟩⟩ := h
  · exact fun _ => rfl
  · exact fun _ => by simp [orderedFrom, mayFollow, haf]

theorem started_ordered {budget : Nat} {evs : Events} {r : Result} (h : Started budget evs r) :
    OrderedAfterAny evs := by
  obtain ⟨p, rfl, hp⟩ := h
  exact orderedAfterAny_cons_of_free (fun _ => rfl) (polled_ordered (fun _ _ => rfl) hp)

theorem stopped_ordered {budget : Nat} {evs : Events} {r : Result} (h : Stopped budget evs r) :
    OrderedAfterAny evs := by
  obtain ⟨p, rfl, hp⟩ := h
  exact orderedAfterAny_cons_of_free (fun _ => rfl) (polled_ordered (fun _ _ => rfl) hp)

theorem opened_ordered {budget : Nat} {dev : DevAddr} {dir : BitVec 1} {evs : Events} {r : Result}
    (h : Opened budget dev dir evs r) : OrderedAfterAny evs :=
  seq_ordered started_ordered (seq_ordered wrote_ordered
    (seq_ordered (polled_ordered fun _ _ => rfl) (seq_ordered cleared_ordered checked_ordered))) h

theorem sent_ordered {budget : Nat} {v : Byte} {evs : Events} {r : Result} (h : Sent budget v evs r) :
    OrderedAfterAny evs :=
  seq_ordered wrote_ordered (seq_ordered (polled_ordered fun _ _ => rfl) checked_ordered) h

/-- `DR` is read directly after the sample that found `RXNE = 1`. -/
theorem received_ordered {budget : Nat} {ack : Bool} {evs : Events} {v : Byte} (h : Received budget ack evs v) :
    OrderedAfterAny evs := by
  obtain ⟨_, ⟨vs, rfl, ⟨_, bad, good, rfl, _, _, hgood⟩ | ⟨hr, _⟩⟩, rfl⟩ := h
  · have hread : OrderedAfterAny [.rSr1 good, .rDr v] := fun _ => by simp [orderedFrom, mayFollow, hgood]
    have hbad : OrderedAfterAny (bad.map .rSr1) := orderedAfterAny_samples (fun _ _ => rfl) bad
    simpa using orderedAfterAny_cons_of_free (e := .wAck ack) (fun _ => rfl) (hbad.append hread)
  · cases hr

theorem notReceived_ordered {budget : Nat} {ack : Bool} {evs : Events} {r : Result}
    (h : NotReceived budget ack evs r) : OrderedAfterAny evs := by
  obtain ⟨_, p, hp, rfl⟩ := h
  exact orderedAfterAny_cons_of_free (fun _ => rfl) (polled_ordered (fun _ _ => rfl) hp)

theorem sentAll_ordered {budget : Nat} {bytes : List Byte} {evs : Events} {r : Result} {sent : Nat}
    (h : SentAll budget bytes evs r sent) : OrderedAfterAny evs := by
  induction h with
  | done => exact fun _ => rfl
  | failed h _ => exact sent_ordered h
  | more h _ ih => exact (sent_ordered h).append ih

theorem receivedAll_ordered {budget left : Nat} {evs : Events} {r : Result} {got : List Byte}
    (h : ReceivedAll budget left evs r got) : OrderedAfterAny evs := by
  induction h with
  | done => exact fun _ => rfl
  | failed h => exact notReceived_ordered h
  | more h _ ih => exact (received_ordered h).append ih

/-- After the events no transaction is open, whatever came before them (spec/60_exceptions.md R137). -/
def EndsStopped (evs : List LineEvent) : Prop := ∀ h, midTransaction (h ++ evs) = false

theorem stopped_endsStopped {budget : Nat} {evs : Events} {r : Result} (h : Stopped budget evs r) :
    EndsStopped evs := by
  obtain ⟨_, rfl, bs, rfl, _⟩ := h
  intro h
  simp [midTransaction, List.foldl_map, List.foldl_fixed]

theorem EndsStopped.append_left {e₂ : List LineEvent} (h : EndsStopped e₂) (e₁ : List LineEvent) :
    EndsStopped (e₁ ++ e₂) := by
  intro h₀
  rw [← List.append_assoc]
  exact h _

/-- `dbg_phase` goes from `Idle` back to `Idle` along the arrows (spec/10_state.md R14). -/
def PortRound (port : List (BitVec 3)) : Prop :=
  followsArrows (Phase.idle.dbg :: port) = true ∧ (Phase.idle.dbg :: port).getLast? = some Phase.idle.dbg

theorem followsArrows_append {l port : List (BitVec 3)} {a : BitVec 3} (hl : followsArrows l = true)
    (hlast : l.getLast? = some a) (hp : followsArrows (a :: port) = true) : followsArrows (l ++ port) = true := by
  induction l with
  | nil => cases hlast
  | cons b l ih =>
    cases l with
    | nil =>
      obtain rfl : b = a := by simpa using hlast
      exact hp
    | cons c l =>
      simp only [followsArrows, Bool.and_eq_true] at hl
      have htail := ih hl.2 (by simpa using hlast)
      simp only [List.cons_append, followsArrows, hl.1, Bool.true_and]
      exact htail

/-- What a pass adds to the history and to the port. -/
structure PassTrace (evs : List LineEvent) (port : List (BitVec 3)) : Prop where
  ordered : OrderedAfterAny evs
  stopped : EndsStopped evs
  port    : PortRound port

theorem portRound_notOpened : PortRound [1, 4, 0] := ⟨by decide, by decide⟩

theorem portRound_opened : PortRound [1, 2, 3, 4, 0] := ⟨by decide, by decide⟩

theorem PassTrace.of_stopped {budget : Nat} {e₁ e₂ : Events} {st : Result} {port : List (BitVec 3)}
    (h₁ : OrderedAfterAny e₁) (h₂ : Stopped budget e₂ st) (hport : PortRound port) : PassTrace (e₁ ++ e₂) port :=
  ⟨h₁.append (stopped_ordered h₂), (stopped_endsStopped h₂).append_left e₁, hport⟩

theorem writePass_trace {budget : Nat} {dev : DevAddr} {bytes : List Byte} {evs : Events} {r st : Result} {sent : Nat}
    {port : List (BitVec 3)} (h : WritePass budget dev bytes evs r st sent port) : PassTrace evs port := by
  obtain ⟨_, _, ⟨_, hopen, _, rfl⟩ | ⟨_, _, hopen, hsent, rfl, rfl⟩, hstop, rfl⟩ := h
  · exact .of_stopped (opened_ordered hopen) hstop portRound_notOpened
  · exact .of_stopped ((opened_ordered hopen).append (sentAll_ordered hsent)) hstop portRound_opened

theorem readPass_trace {budget : Nat} {dev : DevAddr} {n : Nat} {evs : Events} {r st : Result} {got : List Byte}
    {port : List (BitVec 3)} (h : ReadPass budget dev n evs r st got port) : PassTrace evs port := by
  obtain ⟨_, _, ⟨_, hopen, _, rfl⟩ | ⟨_, _, hopen, hrecv, rfl, rfl⟩, hstop, rfl⟩ := h
  · exact .of_stopped (opened_ordered hopen) hstop portRound_notOpened
  · exact .of_stopped ((opened_ordered hopen).append (receivedAll_ordered hrecv)) hstop portRound_opened

end Sys2Proof.Machine

/-! The host's map of the block, and what a step is by its input. -/

namespace Sys2Proof.Machine

open Sys2Proof Sys2Proof.Trace

@[simp] theorem hostTarget_base_add (base offset n : Nat) : hostTarget base (base + offset) n = hostMap offset n := by
  simp [hostTarget]

theorem hostMap_txWindow {k : Nat} (h : k < 8192) : hostMap (0x2000 + k) 1 = some (.txbuf k) := by
  simp [hostMap, show 8192 + k < 16384 by omega]

theorem hostMap_rxWindow {k : Nat} (h : k < 8192) : hostMap (0x4000 + k) 1 = some (.rxbuf k) := by
  simp [hostMap, show ¬16384 + k < 16384 by omega, show 16384 + k < 24576 by omega]

theorem hostMap_txbuf_lt {offset n i : Nat} (h : hostMap offset n = some (.txbuf i)) : i < bufDepth := by
  unfold hostMap at h
  split_ifs at h with _ _ _ _ _ _ hwin
  all_goals simp only [Option.some.injEq, HostTarget.txbuf.injEq, reduceCtorEq] at h
  subst h
  exact Nat.sub_lt_left_of_lt_add hwin.1 hwin.2

/-- No access reaches beyond `TXBUF`. -/
theorem hostTarget_txbuf_lt {base addr n i : Nat} (h : hostTarget base addr n = some (.txbuf i)) : i < bufDepth := by
  unfold hostTarget at h
  split at h
  · exact hostMap_txbuf_lt h
  · cases h

@[simp] theorem readTarget_setInputs (s : State) (is : List Input) (tgt : HostTarget) :
    readTarget (s.setInputs is) tgt = readTarget s tgt := by
  cases tgt <;> rfl

theorem step_nil {s : State} (h : s.inputs = []) : step s = .next s := by
  simp [step, h]

theorem step_cons {s : State} {i : Input} {rest : List Input} (h : s.inputs = i :: rest) :
    step s = deliver i (s.setInputs rest) := by
  simp [step, h]

theorem step_memRead {s : State} {addr n : Nat} {rest : List Input} {tgt : HostTarget}
    (h : s.inputs = .memRead addr n :: rest) (ht : hostTarget s.base addr n = some tgt) :
    step s = .next ((s.setInputs rest).setHostRead (readTarget s tgt)) := by
  simp [step_cons h, deliver, memRead, ht]

theorem step_memWrite {s : State} {addr n : Nat} {v : Word} {rest : List Input} {tgt : HostTarget}
    (h : s.inputs = .memWrite addr n v :: rest) (ht : hostTarget s.base addr n = some tgt) :
    step s = writeTarget (s.setInputs rest) v tgt := by
  simp [step_cons h, deliver, memWrite, ht]

theorem step_reset {s : State} {rest : List Input} (h : s.inputs = .reset :: rest) :
    step s = .next (resetInput (s.setInputs rest)) := by
  simp [step_cons h, deliver]

theorem memRead_cases {addr n : Nat} {s t : State} (h : memRead addr n s = .next t) :
    ∃ v, t = s.setHostRead v := by
  unfold memRead at h
  split at h
  · cases h; exact ⟨_, rfl⟩
  · cases h

theorem memWrite_cases {addr n : Nat} {v : Word} {s t : State} (h : memWrite addr n v s = .next t) :
    ∃ tgt, hostTarget s.base addr n = some tgt ∧ writeTarget s v tgt = .next t := by
  unfold memWrite at h
  split at h
  · exact ⟨_, ‹_›, h⟩
  · cases h

theorem issue_cases {w : Word} {s t : State} (h : issue w s = .next t) :
    (∃ i, decode w = .ok i ∧ exec i (s.setCmd w) = .next t) ∨ t = reject (s.setCmd w) := by
  unfold issue at h
  split at h
  · exact .inl ⟨_, ‹_›, h⟩
  · cases h; exact .inr rfl

end Sys2Proof.Machine

/-! The invariant: what keeps it, from the register writes up to the step. -/

namespace Sys2Proof.Machine

open Sys2Proof Sys2Proof.Trace

/-- The invariant looks at the buffers, `PHASE`, the port, the history and `RESULT` only. -/
theorem State.Inv.of_eq {s t : State} (h : s.Inv) (htx : t.txbuf = s.txbuf) (hrx : t.rxbuf = s.rxbuf)
    (hphase : t.phase = s.phase) (hport : t.dbgLog = s.dbgLog) (hhist : t.history = s.history)
    (hresult : t.result = s.result) : t.Inv where
  txbufWf := htx ▸ h.txbufWf
  rxbufWf := hrx ▸ h.rxbufWf
  phaseIdle := hphase.trans h.phaseIdle
  portShowsPhase := by rw [hport, hphase, h.portShowsPhase]
  portFollowsArrows := hport ▸ h.portFollowsArrows
  stopped := hhist ▸ h.stopped
  ordered := hhist ▸ h.ordered
  resultSound := hresult ▸ h.resultSound

theorem State.Inv.setInputs {s : State} (h : s.Inv) (is : List Input) : (s.setInputs is).Inv :=
  h.of_eq rfl rfl rfl rfl rfl rfl

theorem State.Inv.setHostRead {s : State} (h : s.Inv) (v : Word) : (s.setHostRead v).Inv :=
  h.of_eq rfl rfl rfl rfl rfl rfl

theorem State.Inv.setCmd {s : State} (h : s.Inv) (w : Word) : (s.setCmd w).Inv :=
  h.of_eq rfl rfl rfl rfl rfl rfl

theorem State.Inv.setBudget {s : State} (h : s.Inv) (v : Word) : (s.setBudget v).Inv :=
  h.of_eq rfl rfl rfl rfl rfl rfl

theorem State.Inv.setCtrl {s : State} (h : s.Inv) (c : Ctrl) : (s.setCtrl c).Inv :=
  h.of_eq rfl rfl rfl rfl rfl rfl

theorem State.Inv.setFail {s : State} (h : s.Inv) (r : Result) : (s.setFail r).Inv :=
  h.of_eq rfl rfl rfl rfl rfl rfl

theorem State.Inv.setTxByte {s : State} (h : s.Inv) {i : Nat} (v : Byte) (hi : i < bufDepth) : (s.setTxByte i v).Inv :=
  { h with txbufWf := Memory.wf_store v h.txbufWf hi }

theorem State.Inv.setResult {s : State} (h : s.Inv) {r : ResultReg} (hr : r.sound = true) : (s.setResult r).Inv :=
  { h with resultSound := hr }

theorem latched_sound (r st : Result) (data : Byte) (count : Len) : (latched r st data count).sound = true := by
  unfold latched
  split <;> simp [ResultReg.sound]

theorem State.Inv.finish {s : State} (h : s.Inv) (r st : Result) (data : Byte) (count : Len) :
    (finish r st data count s).Inv :=
  h.setResult (latched_sound r st data count)

theorem State.Inv.reject {s : State} (h : s.Inv) : (reject s).Inv := h.finish _ _ _ _

theorem inv_reset : State.reset.Inv :=
  ⟨by decide, by decide, rfl, rfl, by decide, by decide, by decide, by decide⟩

theorem inv_resetInput (s : State) : (resetInput s).Inv := inv_reset.of_eq rfl rfl rfl rfl rfl rfl

/-- A pass keeps the invariant. -/
theorem State.Inv.of_pass {s u : State} {evs : List LineEvent} {port : List (BitVec 3)} (h : s.Inv)
    (hframe : OpFrame s u evs) (htrace : PassTrace evs port) (hphase : u.phase = .idle)
    (hport : u.dbgLog = s.dbgLog ++ port) (hrx : u.rxbuf.wf = true) : u.Inv where
  txbufWf := hframe.txbuf ▸ h.txbufWf
  rxbufWf := hrx
  phaseIdle := hphase
  portShowsPhase := by
    have hlast := h.portShowsPhase
    rw [h.phaseIdle] at hlast
    rw [hport, hphase, List.getLast?_append, hlast, ← htrace.port.2, List.getLast?_cons]
    cases port.getLast? <;> rfl
  portFollowsArrows := by
    rw [hport]
    exact followsArrows_append h.portFollowsArrows (h.phaseIdle ▸ h.portShowsPhase) htrace.port.1
  stopped := by rw [hframe.history]; exact htrace.stopped _
  ordered := by rw [hframe.history]; exact orderedFrom_append h.ordered htrace.ordered
  resultSound := hframe.result ▸ h.resultSound

theorem Delivery.stored_wf (d : Delivery) {m : Memory} {got : List Byte} (h : m.wf = true)
    (hlen : got.length ≤ bufDepth) : (d.stored m 0 got).wf = true := by
  cases d
  · exact h
  · exact Memory.wf_storeFrom h (by omega)

theorem State.Inv.writePass {s : State} (h : s.Inv) (dev : DevAddr) {b : Nat → State → Byte} {bytes : List Byte}
    (hne : bytes ≠ []) (hlen : bytes.length < 8192) (hfail : s.fail = .ok) (hb : Sends b bytes s) :
    (writePass dev bytes.length b s).s.Inv := by
  obtain ⟨evs, sent, port, hframe, hw, hphase, hport, _, _, _, hrx⟩ := writePass_spec dev b bytes s hne hlen hfail hb
  exact h.of_pass hframe (writePass_trace hw) hphase (hport h.phaseIdle) (hrx ▸ h.rxbufWf)

theorem State.Inv.readPass {s : State} (h : s.Inv) (dev : DevAddr) (d : Delivery) {n : Nat} (hne : n ≠ 0)
    (hlen : n < 8192) (hfail : s.fail = .ok) : (readPass dev n d.put s).s.Inv := by
  obtain ⟨evs, got, port, hframe, hr, _, hphase, hport, _, _, _, hrx⟩ := readPass_spec dev d n s hne hlen hfail
  have hgot : got.length ≤ bufDepth := (readPass_got hr).1.trans hlen.le
  exact h.of_pass hframe (readPass_trace hr) hphase (hport h.phaseIdle) (hrx ▸ d.stored_wf h.rxbufWf hgot)

theorem State.Inv.readBody {s : State} (h : s.Inv) (dev : DevAddr) {n : Len} (d : Delivery) (hne : n ≠ 0)
    (hfail : s.fail = .ok) : (readBody dev n d s).Inv := by
  have hn : n.toNat ≠ 0 := by simpa [BitVec.toNat_eq] using hne
  exact (h.readPass dev d hn n.isLt hfail).finish _ _ _ _

theorem State.Inv.registerReadBody {s : State} (h : s.Inv) (dev : DevAddr) (reg : Byte) {n : Len} (d : Delivery)
    (hne : n ≠ 0) (hfail : s.fail = .ok) : (registerReadBody dev reg n d s).Inv := by
  have hinv := h.writePass dev (b := oneByte reg) (bytes := [reg]) (by simp) (by simp) hfail (oneByte_sends reg s)
  obtain ⟨_, _, _, _, _, _, _, _, hfl, _⟩ :=
    writePass_spec dev (oneByte reg) [reg] s (by simp) (by simp) hfail (oneByte_sends reg s)
  obtain ⟨hok, hbody⟩ | ⟨_, hbody⟩ := registerReadBody_cases dev reg n d s _ rfl
  · rw [hbody]
    exact hinv.readBody dev d hne (hfl.trans hok)
  · rw [hbody]
    exact hinv.finish _ _ _ _

theorem State.Inv.body {i : Instr} {s : State} {body : State → State} (h : s.Inv) (hfail : s.fail = .ok)
    (hform : BodyForm i s body) : (body s).Inv := by
  cases hform with
  | write dev bytes b _ hne hlen hsends => exact (h.writePass dev hne hlen hfail hsends).finish _ _ _ _
  | rawRead dev dest _ _ hne => exact h.readBody dev dest hne hfail
  | registerRead dev reg dest _ _ hne => exact h.registerReadBody dev reg dest hne hfail

theorem State.Inv.exec {i : Instr} {s t : State} (h : s.Inv) (he : exec i s = .next t) : t.Inv := by
  obtain ⟨_, rfl⟩ | ⟨_, hform, rfl⟩ := exec_cases he
  · exact h.reject
  · exact (h.setFail .ok).body rfl hform

theorem State.Inv.writeTarget {base addr n : Nat} {v : Word} {tgt : HostTarget} {s t : State} (h : s.Inv)
    (ht : hostTarget base addr n = some tgt) (hw : writeTarget s v tgt = .next t) : t.Inv := by
  cases tgt with
  | cmd =>
    obtain ⟨i, _, he⟩ | rfl := issue_cases hw
    · exact (h.setCmd v).exec he
    · exact (h.setCmd v).reject
  | result => cases hw; exact h
  | budget => cases hw; exact h.setBudget v
  | ctrl => cases hw; exact h.setCtrl _
  | txbuf i => cases hw; exact h.setTxByte _ (hostTarget_txbuf_lt ht)
  | rxbuf i => cases hw; exact h

theorem State.Inv.deliver {i : Input} {s t : State} (h : s.Inv) (hd : deliver i s = .next t) : t.Inv := by
  cases i with
  | memRead addr n =>
    obtain ⟨v, rfl⟩ := memRead_cases hd
    exact h.setHostRead v
  | memWrite addr n v =>
    obtain ⟨tgt, ht, hw⟩ := memWrite_cases hd
    exact h.writeTarget ht hw
  | reset => cases hd; exact inv_resetInput s

/-- Settles O56: after reset no buffer byte is listed, the history is empty and the port has shown `Idle` only. -/
theorem resetMeetsTheInvariant : Obligations.ResetMeetsTheInvariant := inv_reset

/-- Settles O57, by the input that the step takes; a command keeps the invariant because each of its passes does. -/
theorem everyStepKeepsTheInvariant : Obligations.EveryStepKeepsTheInvariant := by
  intro s t h hstep
  cases hin : s.inputs with
  | nil =>
    rw [step_nil hin] at hstep
    cases hstep
    exact h
  | cons i rest =>
    rw [step_cons hin] at hstep
    exact (h.setInputs rest).deliver hstep

end Sys2Proof.Machine

/-! What a command leaves behind, whatever `PHASE` it starts in: its frame, `FAIL`, `ACKEN` and `RXBUF`. -/

namespace Sys2Proof.Machine

open Sys2Proof Sys2Proof.Trace

/-- What the body of the admitted command `i` leaves. -/
structure BodyEnd (i : Instr) (s t : State) : Prop where
  frame      : ∃ u evs, OpFrame s u evs ∧ t = u.setResult t.result
  fail       : t.fail = t.result.code
  ackenWrite : isRead i = false → t.acken = s.acken
  ackenRead  : isRead i = true → t.result.code = .ok → t.acken = false
  rxbuf      : ∃ (dest : Delivery) (got : List Byte), t.rxbuf = dest.stored s.rxbuf 0 got ∧
    got.length ≤ (okCount i).toNat ∧ (writesRxbuf i = false → dest = .data)

theorem writeBody_end {i : Instr} {s : State} (dev : DevAddr) {bytes : List Byte} {b : Nat → State → Byte}
    (hdir : isRead i = false) (hne : bytes ≠ []) (hlen : bytes.length < 8192) (hsends : Sends b bytes s)
    (hfail : s.fail = .ok) : BodyEnd i s (writeBody dev bytes.length b (okCount i) s) := by
  obtain ⟨evs, sent, port, hframe, _, _, _, _, hfl, hack, hrx⟩ := writePass_spec dev b bytes s hne hlen hfail hsends
  exact ⟨⟨_, evs, hframe, rfl⟩, hfl.trans (latched_code _ _ _ _).symm, fun _ => hack, fun h => by simp [hdir] at h,
    .data, [], hrx, Nat.zero_le _, fun _ => rfl⟩

theorem readBody_end {i : Instr} {s : State} (dev : DevAddr) {dest : Delivery} (hdir : isRead i = true)
    (hdest : writesRxbuf i = false → dest = .data) (hne : okCount i ≠ 0) (hfail : s.fail = .ok) :
    BodyEnd i s (readBody dev (okCount i) dest s) := by
  obtain ⟨_, evs, r, st, got, port, u, rfl, hlatch, hframe, hpass, hres, _, _, hack, hrx, _, hfl⟩ :=
    readBody_spec dev (okCount i) dest s hne hfail
  obtain ⟨hgot, hgotOk⟩ := readPass_got hpass
  refine ⟨⟨u, evs, hframe, hlatch⟩, hfl, fun h => by simp [hdir] at h, fun _ hok => ?_, dest, got, hrx, hgot, hdest⟩
  rw [hres, ← latched_eq, latched_code, firstFailure_eq_ok] at hok
  obtain ⟨hlen, hport⟩ := hgotOk hok.1
  rw [hack, acken_after_last hport hlen]

/-- The read of a register read goes on from where its write pass ended. -/
theorem BodyEnd.after_pass {i : Instr} {s w t : State} {evs : List LineEvent} (h : BodyEnd i w t)
    (hframe : OpFrame s w evs) (hack : w.acken = s.acken) (hrx : w.rxbuf = s.rxbuf) : BodyEnd i s t := by
  obtain ⟨⟨u, evs', hframe', hlatch⟩, hfail, hackw, hackr, hrxt⟩ := h
  exact ⟨⟨u, _, hframe.trans hframe', hlatch⟩, hfail, fun hi => (hackw hi).trans hack, hackr, hrx ▸ hrxt⟩

theorem registerReadBody_end {i : Instr} {s : State} (dev : DevAddr) (reg : Byte) {dest : Delivery}
    (hdir : isRead i = true) (hdest : writesRxbuf i = false → dest = .data) (hne : okCount i ≠ 0)
    (hfail : s.fail = .ok) : BodyEnd i s (registerReadBody dev reg (okCount i) dest s) := by
  obtain ⟨evs, sent, port, hframe, _, _, _, _, hfl, hack, hrx⟩ :=
    writePass_spec dev (oneByte reg) [reg] s (by simp) (by simp) hfail (oneByte_sends reg s)
  obtain ⟨hok, hbody⟩ | ⟨hbad, hbody⟩ := registerReadBody_cases dev reg (okCount i) dest s _ rfl
  · rw [hbody]
    exact (readBody_end dev hdir hdest hne (hfl.trans hok)).after_pass hframe hack hrx
  · rw [hbody]
    refine ⟨⟨_, evs, hframe, rfl⟩, hfl.trans (latched_code _ _ _ _).symm, fun _ => hack, fun _ hok => ?_,
      .data, [], hrx, Nat.zero_le _, fun _ => rfl⟩
    exact absurd ((latched_code _ _ _ _).symm.trans hok) hbad

theorem BodyForm.ends {i : Instr} {s : State} {body : State → State} (h : BodyForm i s body) (hfail : s.fail = .ok) :
    BodyEnd i s (body s) := by
  cases h with
  | write dev bytes b hdir hne hlen hsends => exact writeBody_end dev hdir hne hlen hsends hfail
  | rawRead dev dest hdir hdest hne => exact readBody_end dev hdir hdest hne hfail
  | registerRead dev reg dest hdir hdest hne => exact registerReadBody_end dev reg hdir hdest hne hfail

/-- A command is rejected, or its body ends as `BodyEnd` says. -/
theorem exec_end {i : Instr} {s t : State} (h : exec i s = .next t) :
    (¬admitted i s ∧ t = s.setResult ⟨true, 0, 0, .error⟩) ∨ (admitted i s ∧ BodyEnd i (s.setFail .ok) t) := by
  obtain ⟨ha, rfl⟩ | ⟨ha, hform, rfl⟩ := exec_cases h
  · exact .inl ⟨ha, rfl⟩
  · exact .inr ⟨ha, hform.ends rfl⟩

/-- A byte that no received byte was stored at reads as before. -/
theorem Delivery.lookup_stored_above (dest : Delivery) (m : Memory) {got : List Byte} {j : Nat} (h : got.length ≤ j) :
    (dest.stored m 0 got).lookup j = m.lookup j := by
  cases dest
  · rfl
  · exact (Memory.lookup_storeFrom m 0 j got).trans (dif_neg (by omega))

/-- The registers that only the host writes, the inputs and the parameters, before and after a command. -/
theorem exec_frame {i : Instr} {s t : State} (h : exec i s = .next t) :
    ∃ u evs, OpFrame s u evs ∧ t = u.setResult t.result := by
  obtain ⟨_, rfl⟩ | ⟨_, hend⟩ := exec_end h
  · exact ⟨s, [], .of_eq rfl, rfl⟩
  · obtain ⟨u, evs, hframe, hlatch⟩ := hend.frame
    exact ⟨u, [] ++ evs, (OpFrame.setFail s .ok).trans hframe, hlatch⟩

/-- Settles O33: every command is a sequence of framed operations, then the result latch. -/
theorem commandsLeaveTheHostsRegisters : Obligations.CommandsLeaveTheHostsRegisters := by
  intro i s t h
  obtain ⟨u, evs, hframe, hlatch⟩ := exec_frame h
  rw [hlatch]
  refine ⟨hframe.cmd, hframe.budget, hframe.ctrl, hframe.txbuf, fun j => ?_, hframe.base, hframe.hostRead,
    hframe.inputs, hframe.epoch⟩
  simp [State.txByte, hframe.txbuf, hframe.epoch]

/-- Settles O34: `RXBUF` holds what it held with the received bytes stored from index 0 on. -/
theorem onlyBufferReadsWriteRxbuf : Obligations.OnlyBufferReadsWriteRxbuf := by
  intro i s t h
  have hepoch : t.epoch = s.epoch := by
    obtain ⟨u, evs, hframe, hlatch⟩ := exec_frame h
    rw [hlatch]
    exact hframe.epoch
  obtain ⟨_, rfl⟩ | ⟨_, hend⟩ := exec_end h
  · exact ⟨fun _ => rfl, fun _ _ => rfl⟩
  · obtain ⟨dest, got, hrx, hlen, hdest⟩ := hend.rxbuf
    refine ⟨fun hi => ?_, fun j hj => ?_⟩
    · obtain rfl := hdest hi
      exact hrx
    · simp [State.rxByte, hrx, hepoch, dest.lookup_stored_above _ (hlen.trans hj)]

/-- Settles O35: the last `receiveByte` of a read that ends `Ok` is told not to acknowledge. -/
theorem ackenIsWrittenByReadsOnly : Obligations.AckenIsWrittenByReadsOnly := by
  intro i s t h
  obtain ⟨_, rfl⟩ | ⟨_, hend⟩ := exec_end h
  · exact ⟨fun _ => rfl, fun _ hok => by cases hok⟩
  · exact ⟨hend.ackenWrite, hend.ackenRead⟩

/-- Settles O36: `FAIL` and `RESULT.CODE` are both the first failure of the last pass that was made. -/
theorem failHoldsTheFirstFailure : Obligations.FailHoldsTheFirstFailure := by
  intro i s t ha h
  obtain ⟨hna, _⟩ | ⟨_, hend⟩ := exec_end h
  · exact absurd ha hna
  · exact hend.fail

end Sys2Proof.Machine

/-! Changes of state that a command does not see: each operation does the same before and after the change. -/

namespace Sys2Proof.Machine

open Sys2Proof Sys2Proof.Trace

/-- The operation answers the same, and keeps the change `g`. -/
def Ignores {α : Type} (g : State → State) (op : State → α × State) : Prop := ∀ s, op (g s) = ((op s).1, g (op s).2)

/-- The change `g` concerns nothing that the line operations read or write. -/
structure UnseenByLine (g : State → State) : Prop where
  budget     : ∀ s, (g s).budget = s.budget
  pollcnt    : ∀ s, (g s).pollcnt = s.pollcnt
  nextAnswer : ∀ s, (g s).nextAnswer = s.nextAnswer
  dropAnswer : Function.Commute State.dropAnswer g
  record     : ∀ e, Function.Commute (State.record · e) g
  setPollcnt : ∀ v, Function.Commute (State.setPollcnt · v) g
  setPhase   : ∀ p, Function.Commute (State.setPhase · p) g
  setAcken   : ∀ b, Function.Commute (State.setAcken · b) g

/-- The change `g` concerns nothing that a command reads or writes, but for `RESULT`, after whose latch the
change `g'` of it is left. -/
structure Unseen (g g' : State → State) : Prop extends UnseenByLine g where
  enabled    : ∀ s, (g s).ctrl.en = s.ctrl.en
  byteidx    : ∀ s, (g s).byteidx = s.byteidx
  fail       : ∀ s, (g s).fail = s.fail
  txByte     : ∀ s i, (g s).txByte i = s.txByte i
  setByteidx : ∀ v, Function.Commute (State.setByteidx · v) g
  setFail    : ∀ r, Function.Commute (State.setFail · r) g
  putRxbuf   : ∀ i v, Function.Commute (putRxbuf i v) g
  latch      : ∀ r s, (g s).setResult r = g' (s.setResult r)

variable {g g' : State → State} {α : Type}

/-! What composes. -/

theorem Ignores.comp {op : State → α × State} {upd : State → State} (h : Ignores g op) (hu : Function.Commute upd g) :
    Ignores g (fun s => op (upd s)) :=
  fun s => (congrArg op (hu s)).trans (h (upd s))

theorem Ignores.onOk {op f : State → Result × State} (h : Ignores g op) (hf : Ignores g f) :
    Ignores g (fun s => onOk (op s) f) := by
  intro s
  by_cases hok : (op s).1 = .ok
  · simp [Machine.onOk, h s, hok, hf (op s).2]
  · simp [Machine.onOk, h s, hok]

theorem Ignores.update {op : State → α × State} {upd : State → State} (h : Ignores g op) (hu : Function.Commute upd g) :
    Ignores g (fun s => ((op s).1, upd (op s).2)) := by
  intro s
  simp [h s, hu (op s).2]

/-! The line reads and the primitives. -/

section Line

variable (hg : UnseenByLine g)
include hg

theorem ignores_lreadSr1 : Ignores g lreadSr1 := by
  intro s
  simp only [lreadSr1, hg.nextAnswer, hg.dropAnswer s, hg.record _ s.dropAnswer]

theorem ignores_lreadSr2 : Ignores g lreadSr2 := by
  intro s
  simp only [lreadSr2, hg.nextAnswer, hg.dropAnswer s, hg.record _ s.dropAnswer]

theorem ignores_lreadDr : Ignores g lreadDr := by
  intro s
  simp only [lreadDr, hg.nextAnswer, hg.dropAnswer s, hg.record _ s.dropAnswer]

theorem ignores_pollLoop {lread : State → α × State} (hl : Ignores g lread) (pred : α → Bool) (left : Nat) :
    Ignores g (pollLoop lread pred left) := by
  induction left with
  | zero => exact fun _ => rfl
  | succ left ih =>
    intro s
    simp only [pollLoop, hl s, hg.pollcnt, hg.setPollcnt _ (lread s).2]
    by_cases hp : pred (lread s).1 = true
    · simp [hp]
    · simp [hp, ih _]

theorem ignores_poll {lread : State → α × State} (hl : Ignores g lread) (pred : α → Bool) :
    Ignores g (poll lread pred) := by
  intro s
  simp only [poll, hg.budget, hg.setPollcnt 0 s]
  exact ignores_pollLoop hg hl pred _ _

theorem ignores_start : Ignores g start :=
  (ignores_poll hg (ignores_lreadSr1 hg) startAcked).comp ((hg.setPhase .startIssued).comp_left (hg.record .wStart))

theorem ignores_stop : Ignores g stop :=
  ((ignores_poll hg (ignores_lreadSr2 hg) busIdle).comp
    ((hg.setPhase .stopIssued).comp_left (hg.record .wStop))).update (hg.setPhase .idle)

theorem ignores_ackCheck : Ignores g ackCheck := by
  intro s
  by_cases haf : (lreadSr1 s).1.af = true
  · simp [ackCheck, ignores_lreadSr1 hg s, haf, lwriteAfClr, hg.record .wAfClr (lreadSr1 s).2]
  · simp [ackCheck, ignores_lreadSr1 hg s, haf]

theorem ignores_sendAddress (addr : DevAddr) (dir : Direction) : Ignores g (sendAddress addr dir) := by
  have hclear : Function.Commute (fun s => (lreadSr2 s).2) g := fun s => congrArg Prod.snd (ignores_lreadSr2 hg s)
  have hmove : Ignores g (fun s => (Result.ok, s.setPhase .addressSent)) := fun s => by
    simp only [hg.setPhase .addressSent s]
  exact ((ignores_poll hg (ignores_lreadSr1 hg) addressDone).comp (hg.record (.wDr (addrByte addr dir)))).onOk
    (((ignores_ackCheck hg).comp hclear).onOk hmove)

theorem ignores_sendByte (v : Byte) : Ignores g (sendByte v) :=
  ((ignores_poll hg (ignores_lreadSr1 hg) byteDone).comp
    ((hg.record (.wDr v)).comp_left (hg.setPhase .dataPhase))).onOk (ignores_ackCheck hg)

theorem ignores_receiveByte (ack : Bool) : Ignores g (receiveByte ack) := by
  have hpoll := (ignores_poll hg (ignores_lreadSr1 hg) byteReceived).comp
    ((hg.setAcken ack).comp_left ((hg.record (.wAck ack)).comp_left (hg.setPhase .dataPhase)))
  intro s
  have hs := hpoll s
  simp only [Function.comp_apply] at hs
  by_cases hp : (poll lreadSr1 byteReceived (((s.setPhase .dataPhase).record (.wAck ack)).setAcken ack)).1 = .ok
  · simp [receiveByte, lwriteAck, hs, hp, ignores_lreadDr hg _]
  · simp [receiveByte, lwriteAck, hs, hp]

theorem ignores_startThenAddress (dev : DevAddr) (dir : Direction) :
    Ignores g (fun s => onOk (start s) (sendAddress dev dir)) :=
  (ignores_start hg).onOk (ignores_sendAddress hg dev dir)

end Line

/-! The passes and the bodies. -/

section Command

variable (hg : Unseen g g')
include hg

theorem Unseen.noteFailure (r : Result) : Function.Commute (State.noteFailure · r) g := by
  intro s
  simp only [State.noteFailure, hg.fail]
  exact hg.setFail _ s

theorem Unseen.put (dest : Delivery) (i : Nat) (v : Byte) : Function.Commute (dest.put i v) g := by
  cases dest
  · exact fun _ => rfl
  · exact hg.putRxbuf i v

theorem ignores_openPass (dev : DevAddr) (dir : Direction) : Ignores g (openPass dev dir) :=
  (ignores_startThenAddress hg.toUnseenByLine dev dir).update (hg.setByteidx 0)

theorem ignores_sendBytes {b : Nat → State → Byte} (hb : ∀ i s, b i (g s) = b i s) (left : Nat) :
    Ignores g (sendBytes b left) := by
  induction left with
  | zero => exact fun _ => rfl
  | succ left ih =>
    have hnext : Ignores g (fun s => sendBytes b left (s.setByteidx (s.byteidx + 1))) := fun s => by
      simp only [hg.byteidx, hg.setByteidx _ s, ih _]
    intro s
    simp only [sendBytes, hg.byteidx, hb]
    exact (ignores_sendByte hg.toUnseenByLine (b s.byteidx.toNat s)).onOk hnext s

theorem ignores_receiveBytes (dest : Delivery) (n left : Nat) (last : Byte) (s : State) :
    receiveBytes dest.put n left last (g s) =
      ((receiveBytes dest.put n left last s).1, (receiveBytes dest.put n left last s).2.1,
        g (receiveBytes dest.put n left last s).2.2) := by
  induction left generalizing last s with
  | zero => rfl
  | succ left ih =>
    simp only [receiveBytes, hg.byteidx, ignores_receiveByte hg.toUnseenByLine _ s]
    generalize receiveByte (ackFor n s.byteidx.toNat) s = p
    obtain ⟨_ | v, u⟩ := p
    · rfl
    · simp only [hg.byteidx, hg.put dest _ v u, hg.setByteidx _ (dest.put _ v u), ih]

theorem endPass_unseen (r : Result) (byte : Byte) (s : State) :
    endPass r byte (g s) = { endPass r byte s with s := g (endPass r byte s).s } := by
  simp only [endPass, hg.noteFailure r s, ignores_stop hg.toUnseenByLine _, hg.noteFailure _ (stop _).2]

theorem writePass_unseen (dev : DevAddr) (k : Nat) {b : Nat → State → Byte} (hb : ∀ i s, b i (g s) = b i s)
    (s : State) :
    writePass dev k b (g s) = { writePass dev k b s with s := g (writePass dev k b s).s } := by
  simp only [writePass, (ignores_openPass hg dev .write).onOk (ignores_sendBytes hg hb k) s, endPass_unseen hg]

theorem readPass_unseen (dev : DevAddr) (n : Nat) (dest : Delivery) (s : State) :
    readPass dev n dest.put (g s) = { readPass dev n dest.put s with s := g (readPass dev n dest.put s).s } := by
  simp only [readPass, ignores_openPass hg dev .read s]
  split
  · simp only [ignores_receiveBytes hg, endPass_unseen hg]
  · exact endPass_unseen hg _ _ _

theorem finish_unseen (r st : Result) (data : Byte) (count : Len) (s : State) :
    finish r st data count (g s) = g' (finish r st data count s) :=
  hg.latch _ s

theorem writeBody_unseen (dev : DevAddr) (k : Nat) {b : Nat → State → Byte} (hb : ∀ i s, b i (g s) = b i s)
    (count : Len) (s : State) : writeBody dev k b count (g s) = g' (writeBody dev k b count s) := by
  simp only [writeBody, writePass_unseen hg dev k hb, finish_unseen hg]

theorem readBody_unseen (dev : DevAddr) (n : Len) (dest : Delivery) (s : State) :
    readBody dev n dest (g s) = g' (readBody dev n dest s) := by
  simp only [readBody, readPass_unseen hg, finish_unseen hg]

theorem registerReadBody_unseen (dev : DevAddr) (reg : Byte) (n : Len) (dest : Delivery) (s : State) :
    registerReadBody dev reg n dest (g s) = g' (registerReadBody dev reg n dest s) := by
  simp only [registerReadBody, writePass_unseen hg dev 1 (b := oneByte reg) (fun _ _ => rfl)]
  split
  · exact readBody_unseen hg dev n dest _
  · exact finish_unseen hg _ _ _ _ _

theorem bodyOf_unseen (i : Instr) (s : State) : bodyOf i (g s) = g' (bodyOf i s) := by
  cases i with
  | wreg dev reg val => exact writeBody_unseen hg dev 2 (b := wregByte reg val) (fun _ _ => rfl) 2 s
  | wraw dev val => exact writeBody_unseen hg dev 1 (b := oneByte val) (fun _ _ => rfl) 1 s
  | wbuf dev n => exact writeBody_unseen hg dev n.toNat (b := txBufByte) (fun i s => hg.txByte s i) n s
  | rreg dev reg => exact registerReadBody_unseen hg dev reg 1 .data s
  | rbuf dev reg n => exact registerReadBody_unseen hg dev reg n .rxbuf s
  | rraw dev => exact readBody_unseen hg dev 1 .data s
  | rrawb dev n => exact readBody_unseen hg dev n .rxbuf s

/-- A command does the same before and after a change that it does not see. -/
theorem exec_unseen {i : Instr} {s t : State} (h : exec i s = .next t) : exec i (g s) = .next (g' t) := by
  have hadm : admitted i (g s) ↔ admitted i s := by rw [admitted, hg.enabled, admitted]
  obtain ⟨ha, rfl⟩ | ⟨ha, _, rfl⟩ := exec_cases h
  · rw [exec_of_not_admitted (mt hadm.1 ha), reject, finish_unseen hg, reject]
  · rw [exec_of_admitted (hadm.2 ha), ← bodyOf_unseen hg]
    exact congrArg (fun u => Host.Outcome.next (bodyOf i u)) (hg.setFail .ok s)

end Command

/-! The changes that no command sees. -/

/-- `CTRL.FAST <- f`. -/
def State.setFast (f : Bool) (s : State) : State := s.setCtrl { s.ctrl with fast := f }

/-- No operation reads `FAST` (spec/10_state.md R23). -/
theorem unseen_setFast (f : Bool) : Unseen (State.setFast f) (State.setFast f) where
  budget _ := rfl
  pollcnt _ := rfl
  nextAnswer _ := rfl
  dropAnswer _ := rfl
  record _ _ := rfl
  setPollcnt _ _ := rfl
  setPhase _ _ := rfl
  setAcken _ _ := rfl
  enabled _ := rfl
  byteidx _ := rfl
  fail _ := rfl
  txByte _ _ := rfl
  setByteidx _ _ := rfl
  setFail _ _ := rfl
  putRxbuf _ _ _ := rfl
  latch _ _ := rfl

/-- No operation reads `CMD` or `RESULT`, and `Finish` overwrites `RESULT` (spec/40_primitives.md R101). -/
theorem unseen_setResult_setCmd (r : ResultReg) (w : Word) :
    Unseen (fun s => (s.setResult r).setCmd w) (State.setCmd · w) where
  budget _ := rfl
  pollcnt _ := rfl
  nextAnswer _ := rfl
  dropAnswer _ := rfl
  record _ _ := rfl
  setPollcnt _ _ := rfl
  setPhase _ _ := rfl
  setAcken _ _ := rfl
  enabled _ := rfl
  byteidx _ := rfl
  fail _ := rfl
  txByte _ _ := rfl
  setByteidx _ _ := rfl
  setFail _ _ := rfl
  putRxbuf _ _ _ := rfl
  latch _ _ := rfl

/-- No line operation reads `BYTEIDX`. -/
theorem unseenByLine_setByteidx (idx : Len) : UnseenByLine (State.setByteidx · idx) where
  budget _ := rfl
  pollcnt _ := rfl
  nextAnswer _ := rfl
  dropAnswer _ := rfl
  record _ _ := rfl
  setPollcnt _ _ := rfl
  setPhase _ _ := rfl
  setAcken _ _ := rfl

/-- A poll begins with `POLLCNT <- 0` (spec/40_primitives.md R90). -/
theorem poll_setPollcnt {lread : State → α × State} (pred : α → Bool) (s : State) (cnt : Word) :
    poll lread pred (s.setPollcnt cnt) = poll lread pred s := rfl

theorem start_setPollcnt (s : State) (cnt : Word) : start (s.setPollcnt cnt) = start s :=
  poll_setPollcnt startAcked ((lwriteStart s).setPhase .startIssued) cnt

/-- The address phase of a pass sets `POLLCNT` and `BYTEIDX` before it reads them (spec/10_state.md R15). -/
theorem openPass_setWorking (dev : DevAddr) (dir : Direction) (s : State) (idx : Len) (cnt : Word) :
    openPass dev dir ((s.setByteidx idx).setPollcnt cnt) = openPass dev dir s := by
  have hidx := ignores_startThenAddress (unseenByLine_setByteidx idx) dev dir s
  simp only at hidx
  simp only [openPass, start_setPollcnt, hidx]
  rfl

theorem writePass_setWorking (dev : DevAddr) (k : Nat) (b : Nat → State → Byte) (s : State) (idx : Len) (cnt : Word) :
    writePass dev k b ((s.setByteidx idx).setPollcnt cnt) = writePass dev k b s := by
  unfold writePass
  rw [openPass_setWorking]

theorem readPass_setWorking (dev : DevAddr) (n : Nat) (put : Nat → Byte → State → State) (s : State) (idx : Len)
    (cnt : Word) : readPass dev n put ((s.setByteidx idx).setPollcnt cnt) = readPass dev n put s := by
  unfold readPass
  rw [openPass_setWorking]

/-- Every body begins with the address phase of a pass. -/
theorem bodyOf_setWorking (i : Instr) (s : State) (idx : Len) (cnt : Word) :
    bodyOf i ((s.setByteidx idx).setPollcnt cnt) = bodyOf i s := by
  cases i with
  | wreg | wbuf | wraw => simp only [bodyOf, writeBody, writePass_setWorking]
  | rraw | rrawb => simp only [bodyOf, readBody, readPass_setWorking]
  | rreg | rbuf =>
    simp only [bodyOf]
    unfold registerReadBody
    rw [writePass_setWorking]

/-- Settles O37: admission sets `FAIL`, and the first pass sets `POLLCNT` and `BYTEIDX`, before any is read. -/
theorem workingRegistersCarryNothingOver : Obligations.WorkingRegistersCarryNothingOver := by
  intro i s idx cnt fail ha
  rw [exec_of_admitted ha, exec_of_admitted (s := { s with byteidx := idx, pollcnt := cnt, fail := fail }) ha]
  exact congrArg Host.Outcome.next (bodyOf_setWorking i (s.setFail .ok) idx cnt)

/-- Settles O38: a change of `FAST` is a change that no command sees. -/
theorem fastIsReadByNoRule : Obligations.FastIsReadByNoRule :=
  fun _ _ _ f h => exec_unseen (unseen_setFast f) h

/-- Settles O39: a change of `RESULT` and `CMD` is not seen, and `Finish` leaves only that of `CMD`. -/
theorem earlierResultHasNoEffect : Obligations.EarlierResultHasNoEffect :=
  fun _ _ r w _ h => exec_unseen (unseen_setResult_setCmd r w) h

end Sys2Proof.Machine

/-! The result word, the host's accesses and reset. -/

namespace Sys2Proof.Machine

open Sys2Proof Sys2Proof.Trace

/-! Fields of an appended vector. -/

theorem extractLsb'_append_low {v w : Nat} (hi : BitVec v) (lo : BitVec w) : (hi ++ lo).extractLsb' 0 w = lo := by
  simp [BitVec.extractLsb'_append_eq_of_add_le]

theorem extractLsb'_append_skip {v w : Nat} (hi : BitVec v) (lo : BitVec w) (start len : Nat) :
    (hi ++ lo).extractLsb' (start + w) len = hi.extractLsb' start len := by
  simp [BitVec.extractLsb'_append_eq_of_le]

/-- The fields of a vector appended as `RESULT` is, from the lowest up (spec/10_state.md R24). -/
theorem appended_fields (done : BitVec 1) (count : Len) (data : Byte) (code : BitVec 2) :
    (done ++ 0#2 ++ count ++ data ++ 0#6 ++ code).extractLsb' 0 2 = code ∧
    (done ++ 0#2 ++ count ++ data ++ 0#6 ++ code).extractLsb' 2 6 = 0 ∧
    (done ++ 0#2 ++ count ++ data ++ 0#6 ++ code).extractLsb' 8 8 = data ∧
    (done ++ 0#2 ++ count ++ data ++ 0#6 ++ code).extractLsb' 16 13 = count ∧
    (done ++ 0#2 ++ count ++ data ++ 0#6 ++ code).extractLsb' 29 2 = 0 ∧
    (done ++ 0#2 ++ count ++ data ++ 0#6 ++ code).extractLsb' 31 1 = done := by
  have skipCode (start len : Nat) := extractLsb'_append_skip (done ++ 0#2 ++ count ++ data ++ 0#6) code start len
  have skipLow (start len : Nat) :=
    (skipCode (start + 6) len).trans (extractLsb'_append_skip (done ++ 0#2 ++ count ++ data) 0#6 start len)
  have skipData (start len : Nat) :=
    (skipLow (start + 8) len).trans (extractLsb'_append_skip (done ++ 0#2 ++ count) data start len)
  have skipCount (start len : Nat) :=
    (skipData (start + 13) len).trans (extractLsb'_append_skip (done ++ 0#2) count start len)
  exact ⟨extractLsb'_append_low _ _, (skipCode 0 6).trans (extractLsb'_append_low _ _),
    (skipLow 0 8).trans (extractLsb'_append_low _ _), (skipData 0 13).trans (extractLsb'_append_low _ _),
    (skipCount 0 2).trans (extractLsb'_append_low _ _),
    (skipCount 2 1).trans ((extractLsb'_append_skip done 0#2 0 1).trans BitVec.extractLsb'_eq_self)⟩

theorem getLsbD_eq_of_extractLsb' {w : Word} {k : Nat} {b : Bool} (h : w.extractLsb' k 1 = BitVec.ofBool b) :
    w.getLsbD k = b := by
  simpa using (extractLsb_eq_iff w k _).1 h 0 (by simp)

/-- Settles O44: the word is appended from its fields. -/
theorem resultWordHoldsItsFields : Obligations.ResultWordHoldsItsFields := by
  intro r
  obtain ⟨hcode, hlow, hdata, hcount, hhigh, hdone⟩ :=
    appended_fields (BitVec.ofBool r.done) r.count r.data r.code.code
  refine ⟨getLsbD_eq_of_extractLsb' hdone, hhigh, hcount, hdata, hlow, hcode.trans ?_⟩
  cases r.code <;> rfl

theorem Ctrl.word_getLsbD (c : Ctrl) : ∀ i < 32,
    c.word.getLsbD i = (decide (i = 0) && c.en || decide (i = 1) && c.fast) := by
  obtain ⟨en, fast⟩ := c
  cases en <;> cases fast <;> decide

/-- `CTRL` keeps bits 1 and 0 of what the host writes (spec/10_state.md R23). -/
theorem Ctrl.ofWord_word (v : Word) : (Ctrl.ofWord v).word = v &&& 3 := by
  have hmask : ∀ i < 32, (3 : Word).getLsbD i = (decide (i = 0) || decide (i = 1)) := by decide
  refine ((mask_eq_iff v 3 _).2 fun i hi => ?_).symm
  rw [hmask i hi, Ctrl.word_getLsbD _ i hi]
  by_cases h0 : i = 0
  · simp [h0, Ctrl.ofWord]
  · by_cases h1 : i = 1
    · simp [h1, Ctrl.ofWord]
    · simp [h0, h1]

/-- Settles O47, by the register map at each offset. -/
theorem hostReadsTheRegisters : Obligations.HostReadsTheRegisters := by
  intro s offset rest h
  refine ⟨?_, ?_, ?_, ?_⟩ <;> rintro rfl <;> exact step_memRead h (hostTarget_base_add _ _ _)

/-- Settles O48, by the map of the two windows. -/
theorem hostReadsTheBuffers : Obligations.HostReadsTheBuffers := by
  intro s k rest hk
  refine ⟨fun h => ?_, fun h => ?_⟩
  · rw [Nat.add_assoc] at h
    exact step_memRead h ((hostTarget_base_add _ _ _).trans (hostMap_txWindow hk))
  · rw [Nat.add_assoc] at h
    exact step_memRead h ((hostTarget_base_add _ _ _).trans (hostMap_rxWindow hk))

/-- Settles O49, by the register map at each offset. -/
theorem hostWritesTheRegisters : Obligations.HostWritesTheRegisters := by
  intro s offset v rest h
  refine ⟨?_, ?_, ?_⟩
  · rintro rfl
    exact step_memWrite h (hostTarget_base_add _ _ _)
  · rintro rfl
    exact step_memWrite h (hostTarget_base_add _ _ _)
  · rintro rfl
    exact ⟨_, step_memWrite h (hostTarget_base_add _ _ _), rfl, rfl, rfl, Ctrl.ofWord_word v⟩

/-- Settles O50: the byte is stored in canonical form, by the laws of the buffers. -/
theorem hostWritesTheBuffers : Obligations.HostWritesTheBuffers := by
  intro s k v rest hk
  refine ⟨fun h => ?_, fun h => ?_⟩
  · rw [Nat.add_assoc] at h
    have hv : (v.setWidth 32).setWidth 8 = v := by simp
    refine ⟨(s.setInputs rest).setTxByte k v, ?_, rfl, fun j => State.setTxByte_txByte _ k j v,
      fun hwf => Memory.wf_store v hwf hk⟩
    rw [step_memWrite h ((hostTarget_base_add _ _ _).trans (hostMap_txWindow hk)), writeTarget, hv]
  · rw [Nat.add_assoc] at h
    exact step_memWrite h ((hostTarget_base_add _ _ _).trans (hostMap_rxWindow hk))

/-- Settles O54, field by field of `State.reset`. -/
theorem resetLeavesTheRegistersAtTheirValues : Obligations.ResetLeavesTheRegistersAtTheirValues :=
  ⟨rfl, rfl, rfl, rfl, rfl, rfl, rfl, rfl, rfl, rfl, rfl⟩

/-- Settles O55: the step is `resetInput`, in whose buffers no byte is listed. -/
theorem resetInputResetsTheEngine : Obligations.ResetInputResetsTheEngine := by
  intro s rest h
  exact ⟨_, step_reset h, rfl, rfl, rfl, rfl, rfl, rfl, rfl, rfl, rfl, rfl, rfl, fun _ => rfl, fun _ => rfl,
    rfl, rfl, rfl⟩

end Sys2Proof.Machine

/-! Where the machine stops: every command ends, and only an undefined host access is refused. -/

namespace Sys2Proof.Machine

open Sys2Proof Sys2Proof.Trace

/-! Every body ends with the result latch (spec/40_primitives.md R101). -/

@[simp] theorem latched_done (r st : Result) (data : Byte) (count : Len) : (latched r st data count).done = true := by
  unfold latched
  split <;> rfl

@[simp] theorem finish_done (r st : Result) (data : Byte) (count : Len) (s : State) :
    (finish r st data count s).result.done = true :=
  latched_done r st data count

theorem registerReadBody_done (dev : DevAddr) (reg : Byte) (n : Len) (dest : Delivery) (s : State) :
    (registerReadBody dev reg n dest s).result.done = true := by
  obtain ⟨_, hbody⟩ | ⟨_, hbody⟩ := registerReadBody_cases dev reg n dest s _ rfl
  · rw [hbody, readBody, finish_done]
  · rw [hbody, finish_done]

theorem bodyOf_done (i : Instr) (s : State) : (bodyOf i s).result.done = true := by
  cases i with
  | wreg | wbuf | wraw => simp only [bodyOf, writeBody, finish_done]
  | rraw | rrawb => simp only [bodyOf, readBody, finish_done]
  | rreg | rbuf => exact registerReadBody_done _ _ _ _ _

/-- Settles O24: a command is rejected or runs its body, and `DONE` is latched at the end of both. -/
theorem everyCommandEndsInANextState : Obligations.EveryCommandEndsInANextState := by
  intro i s
  by_cases ha : admitted i s
  · exact ⟨_, exec_of_admitted ha, bodyOf_done i _⟩
  · exact ⟨_, exec_of_not_admitted ha, finish_done _ _ _ _ _⟩

/-! What a host access reaches, and what it does when it reaches nothing. -/

/-- The map names the four registers as words and the two windows as bytes (spec/20_memory.md R40, R41). -/
theorem hostMap_cases {offset n : Nat} {tgt : HostTarget} (h : hostMap offset n = some tgt) :
    (n = 4 ∧ (offset = 0x0 ∨ offset = 0x4 ∨ offset = 0x8 ∨ offset = 0xC)) ∨
    (n = 1 ∧ 0x2000 ≤ offset ∧ offset < 0x6000) := by
  unfold hostMap at h
  split_ifs at h <;> omega

theorem hostTarget_eq_none {base addr n : Nat}
    (hreg : ¬(n = 4 ∧ (addr = base ∨ addr = base + 0x4 ∨ addr = base + 0x8 ∨ addr = base + 0xC)))
    (hwin : ¬(n = 1 ∧ base + 0x2000 ≤ addr ∧ addr ≤ base + 0x5FFF)) : hostTarget base addr n = none := by
  refine Option.eq_none_iff_forall_ne_some.2 fun tgt htgt => ?_
  by_cases hle : base ≤ addr
  · rw [hostTarget, if_pos hle] at htgt
    obtain ⟨hn, hoff⟩ | ⟨hn, hlo, hhi⟩ := hostMap_cases htgt
    · exact hreg ⟨hn, by omega⟩
    · exact hwin ⟨hn, by omega, by omega⟩
  · simp [hostTarget, hle] at htgt

theorem step_memRead_undefined {s : State} {addr n : Nat} {rest : List Input}
    (h : s.inputs = .memRead addr n :: rest) (ht : hostTarget s.base addr n = none) :
    step s = .refused (.undefinedHostAccess addr n) := by
  simp [step_cons h, deliver, memRead, ht]

theorem step_memWrite_undefined {s : State} {addr n : Nat} {v : Word} {rest : List Input}
    (h : s.inputs = .memWrite addr n v :: rest) (ht : hostTarget s.base addr n = none) :
    step s = .refused (.undefinedHostAccess addr n) := by
  simp [step_cons h, deliver, memWrite, ht]

theorem issue_ends (w : Word) (s : State) : ∃ t, issue w s = .next t := by
  unfold issue
  split
  · next i _ =>
    obtain ⟨t, ht, _⟩ := everyCommandEndsInANextState i (s.setCmd w)
    exact ⟨t, ht⟩
  · exact ⟨_, rfl⟩

/-- A write that reaches something ends in a next state. -/
theorem writeTarget_ends (s : State) (v : Word) (tgt : HostTarget) : ∃ t, writeTarget s v tgt = .next t := by
  cases tgt with
  | cmd => exact issue_ends v s
  | result | budget | ctrl | txbuf | rxbuf => exact ⟨_, rfl⟩

/-- Settles O45: the access reaches `CMD`, whose write issues the word. -/
theorem stepRunsTheDecodedCommand : Obligations.StepRunsTheDecodedCommand := by
  intro s w i rest h hdec
  rw [step_memWrite h (hostTarget_base_add s.base 0 4)]
  simp only [writeTarget, issue, hdec]
  rfl

/-- Settles O51: such an access reaches nothing. -/
theorem undefinedHostAccessIsRefused : Obligations.UndefinedHostAccessIsRefused := by
  intro s addr n v rest hreg hwin
  have hnone := hostTarget_eq_none hreg hwin
  exact ⟨fun h => step_memRead_undefined h hnone, fun h => step_memWrite_undefined h hnone⟩

/-- Settles O52, by the input that the step takes and by what the access reaches. -/
theorem onlyUndefinedAccessesStopTheMachine : Obligations.OnlyUndefinedAccessesStopTheMachine := by
  intro s
  cases hin : s.inputs with
  | nil => exact .inl ⟨s, step_nil hin⟩
  | cons i rest =>
    cases i with
    | memRead addr n =>
      cases ht : hostTarget s.base addr n with
      | some tgt => exact .inl ⟨_, step_memRead hin ht⟩
      | none => exact .inr ⟨addr, n, rest, step_memRead_undefined hin ht, .inl rfl⟩
    | memWrite addr n v =>
      cases ht : hostTarget s.base addr n with
      | some tgt =>
        obtain ⟨t, hw⟩ := writeTarget_ends (s.setInputs rest) v tgt
        exact .inl ⟨t, (step_memWrite hin ht).trans hw⟩
      | none => exact .inr ⟨addr, n, rest, step_memWrite_undefined hin ht, .inr ⟨v, rfl⟩⟩
    | reset => exact .inl ⟨_, step_reset hin⟩

end Sys2Proof.Machine

/-! What the prompt histories read as on the wire (spec/20_memory.md R58). -/

namespace Sys2Proof.Machine

open Sys2Proof Sys2Proof.Trace

/-- Read from the mode `m`, the events `h` leave the mode `m'` and put `ws` on the wire. -/
def ReadsAs (m : WireMode) (h : List LineEvent) (m' : WireMode) (ws : List WireEvent) : Prop :=
  ∀ rest, wireTraceFrom m (h ++ rest) = (wireTraceFrom m' rest).map (ws ++ ·)

theorem ReadsAs.nil (m : WireMode) : ReadsAs m [] m [] := by
  intro rest
  simp

theorem ReadsAs.append {m m' m'' : WireMode} {h h' : List LineEvent} {ws ws' : List WireEvent}
    (h₁ : ReadsAs m h m' ws) (h₂ : ReadsAs m' h' m'' ws') : ReadsAs m (h ++ h') m'' (ws ++ ws') := by
  intro rest
  rw [List.append_assoc, h₁, h₂, Option.map_map]
  congr 1
  funext l
  simp

/-- The trace of whole commands is what they read as. -/
theorem ReadsAs.wireTrace {h : List LineEvent} {ws : List WireEvent} (hr : ReadsAs .idle h .idle ws) :
    wireTrace h = some ws := by
  simpa [Machine.wireTrace, wireTraceFrom] using hr []

theorem readsAs_promptOpen (dev : DevAddr) (dir : BitVec 1) :
    ReadsAs .idle (promptOpen dev dir) .opened [.s, .t (dev ++ dir) true] := by
  intro rest
  simp [promptOpen, wireTraceFrom, WireMode.next, Function.comp_def]

theorem readsAs_promptSend (v : Byte) : ReadsAs .opened (promptSend v) .opened [.t v true] := by
  intro rest
  simp [promptSend, wireTraceFrom, WireMode.next, Function.comp_def]

theorem readsAs_promptStop : ReadsAs .opened promptStop .idle [.p] := by
  intro rest
  simp [promptStop, wireTraceFrom, WireMode.next, Function.comp_def]

theorem readsAs_received (ack : Bool) (v : Byte) :
    ReadsAs .opened [.wAck ack, .rSr1 ⟨false, false, false, true, false⟩, .rDr v] .opened [.r v ack] := by
  intro rest
  simp [wireTraceFrom, WireMode.next, Function.comp_def]

theorem readsAs_promptSends (bytes : List Byte) :
    ReadsAs .opened (bytes.flatMap promptSend) .opened (bytes.map (.t · true)) := by
  induction bytes with
  | nil => exact .nil _
  | cons v vs ih => exact (readsAs_promptSend v).append ih

/-- Every received byte is acknowledged but the last (spec/40_primitives.md R99). -/
theorem readsAs_promptReceive (bytes : List Byte) (last : Byte) :
    ReadsAs .opened (promptReceive (bytes ++ [last])) .opened (bytes.map (.r · true) ++ [.r last false]) := by
  induction bytes with
  | nil => exact readsAs_received false last
  | cons v vs ih =>
    have hack : decide (vs ++ [last] ≠ []) = true := by simp
    rw [List.cons_append, promptReceive, hack]
    exact (readsAs_received true v).append ih

theorem readsAs_promptWrite (dev : DevAddr) (bytes : List Byte) :
    ReadsAs .idle (promptWrite dev bytes) .idle (.s :: .t (dev ++ 0#1) true :: (bytes.map (.t · true) ++ [.p])) := by
  simpa [promptWrite] using ((readsAs_promptOpen dev 0).append (readsAs_promptSends bytes)).append readsAs_promptStop

theorem readsAs_promptRead (dev : DevAddr) (bytes : List Byte) (last : Byte) :
    ReadsAs .idle (promptRead dev (bytes ++ [last])) .idle
      (.s :: .t (dev ++ 1#1) true :: (bytes.map (.r · true) ++ [.r last false, .p])) := by
  simpa [promptRead] using ((readsAs_promptOpen dev 1).append (readsAs_promptReceive bytes last)).append readsAs_promptStop

/-- Settles O22: the passes are read one after the other, the bytes of each by induction. -/
theorem promptHistoriesReadAsTheSequencesOfTheSource :
    Obligations.PromptHistoriesReadAsTheSequencesOfTheSource := by
  intro dev bytes reg
  exact ⟨(readsAs_promptWrite dev bytes).wireTrace,
    fun last => ((readsAs_promptWrite dev [reg]).append (readsAs_promptRead dev bytes last)).wireTrace⟩

end Sys2Proof.Machine

/-! The prompt histories and the line contract (spec/20_memory.md R57). -/

namespace Sys2Proof.Machine

open Sys2Proof Sys2Proof.Trace

/-- The seven clauses of the line contract at one event. -/
def lineContract (k : Track) : LineEvent → Bool
  | .rSr1 f =>
    (!f.sb || k.startFresh) && (!f.addr || k.addressOut) && ((!k.afSeen || f.af) && (!f.af || k.drSinceClear)) &&
    (!f.btc || k.drInFrame) && (!f.rxne || (k.readAddress && (!k.took || k.ackedSince))) &&
    (k.wrote || f == ⟨false, false, false, false, false⟩)
  | .rSr2 busy => (!k.started || busy) && (k.wrote || !busy)
  | .wStart | .wStop | .wAck _ | .wDr _ | .wAfClr | .rDr _ => true

theorem holdsAlong_mono {c c' : Track → LineEvent → Bool} (hc : ∀ k e, c k e = true → c' k e = true) {k : Track}
    {h : List LineEvent} (hh : holdsAlong c k h = true) : holdsAlong c' k h = true := by
  induction h generalizing k with
  | nil => rfl
  | cons e h ih =>
    simp only [holdsAlong, Bool.and_eq_true] at hh ⊢
    exact ⟨hc k e hh.1, ih hh.2⟩

theorem holdsAlong_append (c : Track → LineEvent → Bool) (k : Track) (h h' : List LineEvent) :
    holdsAlong c k (h ++ h') = (holdsAlong c k h && holdsAlong c (h.foldl Track.next k) h') := by
  induction h generalizing k with
  | nil => rfl
  | cons e h ih => simp [holdsAlong, ih, Bool.and_assoc]

theorem clauses_of_lineContract {h : List LineEvent} (hh : holdsAlong lineContract .init h = true) :
    LC1 h = true ∧ LC2 h = true ∧ LC3 h = true ∧ LC4 h = true ∧ LC5 h = true ∧ LC6 h = true ∧ LC7 h = true := by
  have clause {c : Track → LineEvent → Bool} (hc : ∀ k e, lineContract k e = true → c k e = true) :
      holdsAlong c .init h = true := holdsAlong_mono hc hh
  refine ⟨clause ?_, clause ?_, clause ?_, clause ?_, clause ?_, clause ?_, clause ?_⟩
  all_goals
    intro k e he
    cases e with
    | rSr1 f | rSr2 busy => simp_all [lineContract]
    | wStart | wStop | wAck | wDr | wAfClr | rDr => rfl

/-- From every track that meets `P` the events keep the line contract, and leave a track that meets `Q`. -/
def KeepsContract (P : Track → Prop) (h : List LineEvent) (Q : Track → Prop) : Prop :=
  ∀ k, P k → holdsAlong lineContract k h = true ∧ Q (h.foldl Track.next k)

theorem KeepsContract.append {P Q R : Track → Prop} {h h' : List LineEvent} (h₁ : KeepsContract P h Q)
    (h₂ : KeepsContract Q h' R) : KeepsContract P (h ++ h') R := by
  intro k hk
  obtain ⟨hkeep, hq⟩ := h₁ k hk
  obtain ⟨hkeep', hr⟩ := h₂ _ hq
  rw [holdsAlong_append, hkeep, hkeep', List.foldl_append]
  exact ⟨rfl, hr⟩

theorem KeepsContract.weaken {P P' Q : Track → Prop} {h : List LineEvent} (hk : KeepsContract P h Q)
    (hp : ∀ k, P' k → P k) : KeepsContract P' h Q :=
  fun k hk' => hk k (hp k hk')

/-- No `AF` is left set, which LC3 would make the next sample answer. -/
def Track.Clear (k : Track) : Prop := k.afSeen = false

/-- Between passes: no `start()` is open, so that `BUSY` may be answered 0. -/
def Track.Quiet (k : Track) : Prop := k.Clear ∧ k.started = false

/-- After the address byte of a write: a further `W_DR` carries data. -/
def Track.Writing (k : Track) : Prop := k.Clear ∧ k.awaitsAddress = false

/-- After the address byte of a read, while the peer has a byte to send. -/
def Track.Reading (k : Track) : Prop := k.Clear ∧ k.readAddress = true ∧ (k.took = true → k.ackedSince = true)

theorem promptOpen_keepsContract (dev : DevAddr) (dir : BitVec 1) :
    KeepsContract Track.Quiet (promptOpen dev dir)
      (fun k => k.Writing ∧ k.readAddress = dir.getLsbD 0 ∧ k.took = false) := by
  rintro k ⟨hclear : k.afSeen = false, _⟩
  have hdir : (dev ++ dir : Byte).getLsbD 0 = dir.getLsbD 0 := by
    rw [BitVec.getLsbD_append, if_pos Nat.one_pos]
  refine ⟨?_, ?_, hdir, rfl⟩
  · simp [promptOpen, holdsAlong, lineContract, Track.next, hclear]
  · simp [promptOpen, Track.next, Track.Writing, Track.Clear, hclear]

theorem promptOpen_write_keepsContract (dev : DevAddr) : KeepsContract Track.Quiet (promptOpen dev 0) Track.Writing :=
  fun k hk => (promptOpen_keepsContract dev 0 k hk).imp_right And.left

theorem promptOpen_read_keepsContract (dev : DevAddr) : KeepsContract Track.Quiet (promptOpen dev 1) Track.Reading := by
  intro k hk
  obtain ⟨hkeep, ⟨hclear, _⟩, hdir, htook⟩ := promptOpen_keepsContract dev 1 k hk
  exact ⟨hkeep, hclear, hdir, fun h => by rw [htook] at h; cases h⟩

theorem promptSend_keepsContract (v : Byte) : KeepsContract Track.Writing (promptSend v) Track.Writing := by
  rintro k ⟨hclear : k.afSeen = false, haddr⟩
  simp [promptSend, holdsAlong, lineContract, Track.next, Track.Writing, Track.Clear, hclear, haddr]

theorem promptSends_keepsContract (bytes : List Byte) :
    KeepsContract Track.Writing (bytes.flatMap promptSend) Track.Writing := by
  induction bytes with
  | nil => exact fun k hk => ⟨rfl, hk⟩
  | cons v vs ih => exact (promptSend_keepsContract v).append ih

/-- An acknowledged byte lets the peer send another one. -/
theorem received_keepsContract (ack : Bool) (v : Byte) :
    KeepsContract Track.Reading [.wAck ack, .rSr1 ⟨false, false, false, true, false⟩, .rDr v]
      (fun k => k.Clear ∧ (ack = true → k.Reading)) := by
  rintro k ⟨hclear : k.afSeen = false, hread, hmore⟩
  cases htook : k.took <;>
    simp_all [holdsAlong, lineContract, Track.next, Track.Reading, Track.Clear]

theorem promptReceive_keepsContract (got : List Byte) :
    KeepsContract Track.Reading (promptReceive got) Track.Clear := by
  induction got with
  | nil => exact fun k hk => ⟨rfl, hk.1⟩
  | cons v vs ih =>
    refine (received_keepsContract _ v).append ?_
    by_cases hvs : vs = []
    · subst hvs
      exact fun k hk => ⟨rfl, hk.1⟩
    · exact ih.weaken fun k hk => hk.2 (by simpa using hvs)

theorem promptStop_keepsContract : KeepsContract Track.Clear promptStop Track.Quiet := by
  rintro k (hclear : k.afSeen = false)
  simp [promptStop, holdsAlong, lineContract, Track.next, Track.Quiet, Track.Clear, hclear]

theorem promptWrite_keepsContract (dev : DevAddr) (bytes : List Byte) :
    KeepsContract Track.Quiet (promptWrite dev bytes) Track.Quiet :=
  ((promptOpen_write_keepsContract dev).append (promptSends_keepsContract bytes)).append
    (promptStop_keepsContract.weaken fun _ hk => hk.1)

theorem promptRead_keepsContract (dev : DevAddr) (got : List Byte) :
    KeepsContract Track.Quiet (promptRead dev got) Track.Quiet :=
  ((promptOpen_read_keepsContract dev).append (promptReceive_keepsContract got)).append promptStop_keepsContract

/-- Settles O23: each pass begins and ends with no `AF` set and no `start()` open, and keeps the contract between. -/
theorem promptHistoriesKeepTheLineContract : Obligations.PromptHistoriesKeepTheLineContract := by
  intro dev bytes reg h hmem
  have hkeep : KeepsContract Track.Quiet h Track.Quiet := by
    simp only [List.mem_cons, List.not_mem_nil, or_false] at hmem
    obtain rfl | rfl | rfl := hmem
    · exact promptWrite_keepsContract dev bytes
    · exact promptRead_keepsContract dev bytes
    · exact (promptWrite_keepsContract dev [reg]).append (promptRead_keepsContract dev bytes)
  exact clauses_of_lineContract (hkeep .init ⟨rfl, rfl⟩).1

end Sys2Proof.Machine

/-! The history of a command is the script of its environment (spec/20_memory.md R46, R47): each operation, fed the
answers that its own events record, runs as before. -/

namespace Sys2Proof.Machine

open Sys2Proof Sys2Proof.Trace

/-- The pending answers (log entry 1). -/
def State.setAnswers (s : State) (as : List LineAnswer) : State := { s with answers := as }

/-- The operation appends events to the history; fed the answers that they record and any others after them, it
answers the same, ends in the same state, and leaves those others pending. -/
def Replays {α : Type} (op : State → α × State) : Prop :=
  ∀ s, ∃ evs, (op s).2.history = s.history ++ evs ∧
    ∀ rest, op (s.setAnswers (script evs ++ rest)) = ((op s).1, (op s).2.setAnswers rest)

variable {α β : Type}

/-! What composes. -/

theorem replays_pure (a : α) : Replays (fun s => (a, s)) :=
  fun _ => ⟨[], (List.append_nil _).symm, fun _ => rfl⟩

theorem Replays.bind {op : State → α × State} {f : α → State → β × State} (h : Replays op) (hf : ∀ a, Replays (f a)) :
    Replays (fun s => f (op s).1 (op s).2) := by
  intro s
  obtain ⟨e₁, hh₁, hr₁⟩ := h s
  obtain ⟨e₂, hh₂, hr₂⟩ := hf (op s).1 (op s).2
  refine ⟨e₁ ++ e₂, by rw [hh₂, hh₁, List.append_assoc], fun rest => ?_⟩
  simp only [script_append, List.append_assoc, hr₁, hr₂]

theorem replays_ite {c : Prop} [Decidable c] {f g : State → α × State} (hf : Replays f) (hg : Replays g) :
    Replays (fun s => if c then f s else g s) := by
  by_cases hc : c
  · simpa only [if_pos hc] using hf
  · simpa only [if_neg hc] using hg

/-- What is read of the state besides the pending answers may choose the operation. -/
theorem replays_reading {get : State → β} {f : β → State → α × State} (hget : ∀ s as, get (s.setAnswers as) = get s)
    (hf : ∀ b, Replays (f b)) : Replays (fun s => f (get s) s) := by
  intro s
  obtain ⟨evs, hhist, hrun⟩ := hf (get s) s
  exact ⟨evs, hhist, fun rest => by simp only [hget, hrun]⟩

/-- A register write neither appends an event nor looks at the pending answers. -/
structure RegisterWrite (upd : State → State) : Prop where
  history    : ∀ s, (upd s).history = s.history
  setAnswers : ∀ s as, upd (s.setAnswers as) = (upd s).setAnswers as

theorem RegisterWrite.replays {upd : State → State} (h : RegisterWrite upd) : Replays (fun s => ((), upd s)) :=
  fun s => ⟨[], by simp [h.history], fun rest => congrArg (Prod.mk ()) (h.setAnswers s rest)⟩

theorem Replays.after {op : State → α × State} {upd : State → State} (h : Replays op) (hu : RegisterWrite upd) :
    Replays (fun s => op (upd s)) :=
  hu.replays.bind fun _ => h

theorem Replays.andThen {op : State → α × State} {upd : State → State} (h : Replays op) (hu : RegisterWrite upd) :
    Replays (fun s => ((op s).1, upd (op s).2)) :=
  h.bind fun a => (replays_pure a).after hu

theorem registerWrite_setByteidx (v : Len) : RegisterWrite (State.setByteidx · v) := ⟨fun _ => rfl, fun _ _ => rfl⟩
theorem registerWrite_setPollcnt (v : Word) : RegisterWrite (State.setPollcnt · v) := ⟨fun _ => rfl, fun _ _ => rfl⟩
theorem registerWrite_setAcken (b : Bool) : RegisterWrite (State.setAcken · b) := ⟨fun _ => rfl, fun _ _ => rfl⟩
theorem registerWrite_setPhase (p : Phase) : RegisterWrite (State.setPhase · p) := ⟨fun _ => rfl, fun _ _ => rfl⟩
theorem registerWrite_noteFailure (r : Result) : RegisterWrite (State.noteFailure · r) :=
  ⟨fun _ => rfl, fun _ _ => rfl⟩
theorem registerWrite_finish (r st : Result) (data : Byte) (count : Len) : RegisterWrite (finish r st data count) :=
  ⟨fun _ => rfl, fun _ _ => rfl⟩

/-! The line accesses. -/

/-- A line write records an event that is no answer. -/
theorem replays_record {e : LineEvent} (he : script [e] = []) : Replays (fun s => ((), s.record e)) :=
  fun s => ⟨[e], rfl, fun rest => by rw [he]; rfl⟩

theorem Replays.afterRecord {op : State → α × State} (h : Replays op) {e : LineEvent} (he : script [e] = []) :
    Replays (fun s => op (s.record e)) :=
  (replays_record he).bind fun _ => h

theorem replays_lreadSr1 : Replays lreadSr1 := fun s => ⟨[.rSr1 s.nextAnswer.sr1], rfl, fun _ => rfl⟩
theorem replays_lreadSr2 : Replays lreadSr2 := fun s => ⟨[.rSr2 s.nextAnswer.busy], rfl, fun _ => rfl⟩
theorem replays_lreadDr : Replays lreadDr := fun s => ⟨[.rDr s.nextAnswer.dr], rfl, fun _ => rfl⟩

/-! The bounded poll and the primitives. -/

theorem replays_pollLoop {lread : State → α × State} (hl : Replays lread) (pred : α → Bool) (left : Nat) :
    Replays (pollLoop lread pred left) := by
  induction left with
  | zero => exact replays_pure _
  | succ left ih =>
    have hcount (v : α) := replays_reading (get := fun s => s.pollcnt + 1) (fun _ _ => rfl) fun cnt =>
      (replays_ite (c := pred v = true) (replays_pure Result.ok) ih).after (registerWrite_setPollcnt cnt)
    exact hl.bind hcount

theorem replays_poll {lread : State → α × State} (hl : Replays lread) (pred : α → Bool) :
    Replays (poll lread pred) :=
  replays_reading (get := fun s => s.budget.toNat) (fun _ _ => rfl)
    fun budget => (replays_pollLoop hl pred budget).after (registerWrite_setPollcnt 0)

theorem Replays.onOk {op f : State → Result × State} (h : Replays op) (hf : Replays f) :
    Replays (fun s => onOk (op s) f) :=
  h.bind fun r => replays_ite (c := r = .ok) hf (replays_pure r)

theorem replays_start : Replays start :=
  ((replays_poll replays_lreadSr1 startAcked).after (registerWrite_setPhase .startIssued)).afterRecord rfl

theorem replays_stop : Replays stop :=
  (((replays_poll replays_lreadSr2 busIdle).after (registerWrite_setPhase .stopIssued)).afterRecord rfl).andThen
    (registerWrite_setPhase .idle)

theorem replays_ackCheck : Replays ackCheck :=
  replays_lreadSr1.bind fun f => replays_ite (c := f.af = true)
    ((replays_pure Result.nack).afterRecord (e := .wAfClr) rfl) (replays_pure Result.ok)

theorem replays_sendAddress (addr : DevAddr) (dir : Direction) : Replays (sendAddress addr dir) := by
  have hmove : Replays (fun s => (Result.ok, s.setPhase .addressSent)) :=
    (replays_pure Result.ok).after (registerWrite_setPhase .addressSent)
  have hcheck : Replays (fun s => ackCheck (lreadSr2 s).2) := replays_lreadSr2.bind fun _ => replays_ackCheck
  have hpoll := (replays_poll replays_lreadSr1 addressDone).afterRecord (e := .wDr (addrByte addr dir)) rfl
  exact hpoll.onOk (hcheck.onOk hmove)

theorem replays_sendByte (v : Byte) : Replays (sendByte v) :=
  (((replays_poll replays_lreadSr1 byteDone).afterRecord (e := .wDr v) rfl).after
    (registerWrite_setPhase .dataPhase)).onOk replays_ackCheck

theorem replays_receiveByte (ack : Bool) : Replays (receiveByte ack) := by
  have hpoll := (((replays_poll replays_lreadSr1 byteReceived).after (registerWrite_setAcken ack)).afterRecord
    (e := .wAck ack) rfl).after (registerWrite_setPhase .dataPhase)
  have htake := replays_lreadDr.bind fun v => replays_pure (Except.ok v : Except Result Byte)
  exact hpoll.bind fun r => replays_ite (c := r = .ok) htake (replays_pure (.error r))

/-! The passes. -/

theorem replays_openPass (dev : DevAddr) (dir : Direction) : Replays (openPass dev dir) :=
  (replays_start.onOk (replays_sendAddress dev dir)).andThen (registerWrite_setByteidx 0)

/-- `BYTEIDX <- BYTEIDX + 1` (spec/40_primitives.md R98, R99). -/
theorem registerWrite_nextByte : RegisterWrite (fun s => s.setByteidx (s.byteidx + 1)) :=
  ⟨fun _ => rfl, fun _ _ => rfl⟩

theorem replays_sendBytes {b : Nat → State → Byte} (hb : ∀ i s as, b i (s.setAnswers as) = b i s) (left : Nat) :
    Replays (sendBytes b left) := by
  induction left with
  | zero => exact replays_pure Result.ok
  | succ left ih =>
    exact replays_reading (get := fun s => b s.byteidx.toNat s) (fun s as => hb _ s as)
      fun v => (replays_sendByte v).onOk (ih.after registerWrite_nextByte)

/-- How the loop of a read pass ended, apart from the state it ended in. -/
def splitLoop (q : Result × Byte × State) : (Result × Byte) × State := ((q.1, q.2.1), q.2.2)

/-- The loop of a read pass after one `receiveByte` (spec/40_primitives.md R99). -/
def receiveRest (dest : Delivery) (n left : Nat) (last : Byte) : Except Result Byte → State → (Result × Byte) × State
  | .ok v, s    => splitLoop
      (receiveBytes dest.put n left v ((dest.put s.byteidx.toNat v s).setByteidx (s.byteidx + 1)))
  | .error r, s => ((r, last), s)

theorem receiveBytes_succ (dest : Delivery) (n left : Nat) (last : Byte) (s : State) :
    splitLoop (receiveBytes dest.put n (left + 1) last s) = receiveRest dest n left last
      (receiveByte (ackFor n s.byteidx.toNat) s).1 (receiveByte (ackFor n s.byteidx.toNat) s).2 := by
  rw [receiveBytes]
  generalize receiveByte (ackFor n s.byteidx.toNat) s = p
  obtain ⟨_ | v, u⟩ := p <;> rfl

theorem registerWrite_storeByte (dest : Delivery) (v : Byte) :
    RegisterWrite (fun s => (dest.put s.byteidx.toNat v s).setByteidx (s.byteidx + 1)) := by
  cases dest
  · exact registerWrite_nextByte
  · exact ⟨fun _ => rfl, fun _ _ => rfl⟩

theorem replays_receiveBytes (dest : Delivery) (n left : Nat) (last : Byte) :
    Replays (fun s => splitLoop (receiveBytes dest.put n left last s)) := by
  induction left generalizing last with
  | zero => exact replays_pure (Result.ok, last)
  | succ left ih =>
    have hrest : ∀ x, Replays (receiveRest dest n left last x)
      | .ok v => (ih v).after (registerWrite_storeByte dest v)
      | .error r => replays_pure (r, last)
    simp only [receiveBytes_succ]
    exact replays_reading (get := fun s => ackFor n s.byteidx.toNat) (fun _ _ => rfl)
      fun ack => (replays_receiveByte ack).bind hrest

/-- How a pass ended, apart from the state it ended in. -/
def PassEnd.split (p : PassEnd) : (Result × Result × Byte) × State := ((p.r, p.stop, p.byte), p.s)

theorem replays_endPass (r : Result) (byte : Byte) : Replays (fun s => (endPass r byte s).split) :=
  (replays_stop.after (registerWrite_noteFailure r)).bind
    fun st => (replays_pure (r, st, byte)).after (registerWrite_noteFailure st)

theorem replays_writePass (dev : DevAddr) (k : Nat) {b : Nat → State → Byte}
    (hb : ∀ i s as, b i (s.setAnswers as) = b i s) : Replays (fun s => (writePass dev k b s).split) :=
  (((replays_openPass dev .write).onOk (replays_sendBytes hb k)).bind fun r => replays_endPass r 0 :)

theorem replays_readPass (dev : DevAddr) (n : Nat) (dest : Delivery) :
    Replays (fun s => (readPass dev n dest.put s).split) := by
  have hdata := (replays_receiveBytes dest n n 0).bind fun q => replays_endPass q.1 q.2
  simp only [readPass, apply_ite PassEnd.split]
  exact (replays_openPass dev .read).bind fun r => replays_ite (c := r = .ok) hdata (replays_endPass r 0)

/-! The bodies, which answer nothing but the state. -/

theorem replays_writeBody (dev : DevAddr) (k : Nat) {b : Nat → State → Byte}
    (hb : ∀ i s as, b i (s.setAnswers as) = b i s) (count : Len) :
    Replays (fun s => ((), writeBody dev k b count s)) :=
  ((replays_writePass dev k hb).bind fun p => (registerWrite_finish p.1 p.2.1 0 count).replays :)

theorem replays_readBody (dev : DevAddr) (n : Len) (dest : Delivery) :
    Replays (fun s => ((), readBody dev n dest s)) :=
  ((replays_readPass dev n.toNat dest).bind
    fun p => (registerWrite_finish p.1 p.2.1 (dest.dataOf p.2.2) n).replays :)

theorem replays_registerReadBody (dev : DevAddr) (reg : Byte) (n : Len) (dest : Delivery) :
    Replays (fun s => ((), registerReadBody dev reg n dest s)) := by
  have hbody := (replays_writePass dev 1 (b := oneByte reg) fun _ _ _ => rfl).bind fun p =>
    replays_ite (c := p.1 = .ok ∧ p.2.1 = .ok) (replays_readBody dev n dest) (registerWrite_finish p.1 p.2.1 0 0).replays
  simp only [registerReadBody, apply_ite (Prod.mk ())]
  exact hbody

theorem replays_bodyOf (i : Instr) : Replays (fun s => ((), bodyOf i s)) := by
  cases i with
  | wreg dev reg val => exact replays_writeBody dev 2 (b := wregByte reg val) (fun _ _ _ => rfl) 2
  | wraw dev val => exact replays_writeBody dev 1 (b := oneByte val) (fun _ _ _ => rfl) 1
  | wbuf dev n => exact replays_writeBody dev n.toNat (b := txBufByte) (fun _ _ _ => rfl) n
  | rreg dev reg => exact replays_registerReadBody dev reg 1 .data
  | rbuf dev reg n => exact replays_registerReadBody dev reg n .rxbuf
  | rraw dev => exact replays_readBody dev 1 .data
  | rrawb dev n => exact replays_readBody dev n .rxbuf

/-- Settles O40: admission takes no answer, and every body replays. -/
theorem historyIsTheScriptOfTheOracle : Obligations.HistoryIsTheScriptOfTheOracle := by
  intro i s t h
  obtain ⟨ha, rfl⟩ | ⟨ha, _, rfl⟩ := exec_cases h
  · exact ⟨[], (List.append_nil _).symm, fun rest => exec_of_not_admitted (s := s.setAnswers rest) ha⟩
  · obtain ⟨evs, hhist, hrun⟩ := replays_bodyOf i (s.setFail .ok)
    refine ⟨evs, hhist, fun rest => (exec_of_admitted (s := s.setAnswers (script evs ++ rest)) ha).trans ?_⟩
    exact congrArg (fun p => Host.Outcome.next p.2) (hrun rest)

end Sys2Proof.Machine

/-! The decoder is the inverse of the fields of a command, and the rows of the table are its must-be-zero patterns
(spec/30_encoding.md R70 to R80). -/

namespace Sys2Proof

open Sys2Proof.Machine

/-! Decoder and encoder. -/

theorem decode_eq_ok_iff_instr {w : Word} {i : Instr} : decode w = .ok i ↔
    ∃ op, Opcode.ofBits (CommandWord.ofWord w).op = some op ∧ (CommandWord.ofWord w).wellFormed op = true ∧
      (CommandWord.ofWord w).instr op = i := by
  cases hop : Opcode.ofBits (CommandWord.ofWord w).op with
  | none => simp [decode, hop]
  | some op => by_cases hwf : (CommandWord.ofWord w).wellFormed op = true <;> simp [decode, hop, hwf]

/-- The words that decode to a command are those with its fields. -/
theorem decode_eq_ok_iff {w : Word} {i : Instr} : decode w = .ok i ↔ CommandWord.ofWord w = i.fields := by
  rw [decode_eq_ok_iff_instr]
  constructor
  · rintro ⟨op, hop, hwf, rfl⟩
    exact (CommandWord.instr_fields _ op (Opcode.bits_of_ofBits hop).symm hwf).symm
  · intro hw
    obtain ⟨hop, hwf, hinstr⟩ := i.fields_ok
    rw [hw, hop]
    exact ⟨i.opcode, Opcode.ofBits_bits _, hwf, hinstr⟩

/-- Settles O2: the fields of the encoded word are the command's. -/
theorem decodeOfEncodeIsTheCommand : Obligations.DecodeOfEncodeIsTheCommand :=
  fun i => decode_eq_ok_iff.2 (CommandWord.ofWord_toWord i.fields)

/-- Settles O3: a word is what its fields make, and a word that decodes has the command's fields. -/
theorem encodeOfDecodeIsTheWord : Obligations.EncodeOfDecodeIsTheWord := by
  intro w i hdec
  rw [encode, ← decode_eq_ok_iff.1 hdec, CommandWord.toWord_ofWord]

/-- Settles O1: each accepted word has the fields of its command; the two refused ones are decoded. -/
theorem wordsOfTheTableDecode : Obligations.WordsOfTheTableDecode :=
  ⟨decode_eq_ok_iff.2 rfl, decode_eq_ok_iff.2 rfl, decode_eq_ok_iff.2 rfl, decode_eq_ok_iff.2 rfl,
    decode_eq_ok_iff.2 rfl, decode_eq_ok_iff.2 rfl, decode_eq_ok_iff.2 rfl, by decide, by decide⟩

/-- Settles O5: the append is that of `addrByte_eq`, the shift is the definition. -/
theorem addressByteIsAddressThenDirection : Obligations.AddressByteIsAddressThenDirection :=
  fun dev => ⟨addrByte_eq dev .write, addrByte_eq dev .read, rfl, rfl⟩

/-! Words of one opcode. -/

/-- `w` carries the number of `op`, and the fields that `op` does not use are zero (spec/30_encoding.md R73). -/
def WordOf (op : Opcode) (w : Word) : Prop :=
  (CommandWord.ofWord w).op = op.bits ∧ (CommandWord.ofWord w).wellFormed op = true

theorem wordOf_of_decode {w : Word} {i : Instr} (h : decode w = .ok i) : WordOf i.opcode w := by
  obtain ⟨hop, hwf, _⟩ := i.fields_ok
  rw [WordOf, decode_eq_ok_iff.1 h]
  exact ⟨hop, hwf⟩

theorem exists_decode_iff_wordOf (w : Word) (op : Opcode) : (∃ i, decode w = .ok i ∧ i.opcode = op) ↔ WordOf op w := by
  constructor
  · rintro ⟨i, hdec, rfl⟩
    exact wordOf_of_decode hdec
  · rintro ⟨hop, hwf⟩
    refine ⟨(CommandWord.ofWord w).instr op, decode_eq_ok_iff_instr.2 ⟨op, ?_, hwf, rfl⟩, by cases op <;> rfl⟩
    rw [hop, Opcode.ofBits_bits]

theorem Opcode.bits_injective {op op' : Opcode} (h : op.bits = op'.bits) : op = op' :=
  Option.some.inj (by rw [← Opcode.ofBits_bits op, h, Opcode.ofBits_bits])

theorem Opcode.bits_not_reserved (op : Opcode) : ¬(op.bits = 0#4 ∨ 0x8#4 ≤ op.bits) := by
  cases op <;> decide

theorem wordOf_iff_fields (w : Word) (op : Opcode) : WordOf op w ↔
    w.extractLsb' 28 4 = op.bits ∧
    (op = .wreg → w.extractLsb' 8 5 = 0) ∧
    (op = .wbuf → w.extractLsb' 13 8 = 0) ∧
    (op = .rreg → w.extractLsb' 0 13 = 0) ∧
    (op = .wraw → w.extractLsb' 13 8 = 0 ∧ w.extractLsb' 8 5 = 0) ∧
    (op = .rraw → w.extractLsb' 13 8 = 0 ∧ w.extractLsb' 0 13 = 0) ∧
    (op = .rrawb → w.extractLsb' 13 8 = 0) := by
  cases op <;> simp [WordOf, CommandWord.ofWord, CommandWord.wellFormed, CommandWord.immIsByte]

/-! The rows of the match and mask table. -/

/-- A match under a mask, field by field. -/
theorem mask_eq_iff_fields (w m p : Word) : w &&& m = p ↔
    (CommandWord.ofWord w).op &&& (CommandWord.ofWord m).op = (CommandWord.ofWord p).op ∧
    (CommandWord.ofWord w).dev &&& (CommandWord.ofWord m).dev = (CommandWord.ofWord p).dev ∧
    (CommandWord.ofWord w).reg &&& (CommandWord.ofWord m).reg = (CommandWord.ofWord p).reg ∧
    (CommandWord.ofWord w).imm &&& (CommandWord.ofWord m).imm = (CommandWord.ofWord p).imm := by
  have hinj : w &&& m = p ↔ CommandWord.ofWord (w &&& m) = CommandWord.ofWord p :=
    (Function.LeftInverse.injective CommandWord.toWord_ofWord).eq_iff.symm
  rw [hinj]
  simp [CommandWord.ofWord, BitVec.extractLsb'_and]

/-- The mask of `IMM[12:8]`. -/
theorem and_immHigh_eq_zero_iff (v : Len) : v &&& 0x1F00#13 = 0#13 ↔ v.extractLsb' 8 5 = 0#5 := by
  have hhigh : (v &&& 0x1F00#13).extractLsb' 8 5 = v.extractLsb' 8 5 :=
    BitVec.extractLsb'_and.trans BitVec.and_allOnes
  have hlow : (v &&& 0x1F00#13).extractLsb' 0 8 = 0#8 := BitVec.extractLsb'_and.trans BitVec.and_zero
  constructor
  · intro h
    rw [← hhigh, h]
    rfl
  · intro h
    rw [← append_val (v &&& 0x1F00#13) (hhigh.trans h), hlow]
    rfl

/-- Of each field a row masks all or nothing, except `IMM[12:8]` where the immediate is a byte. -/
theorem row_accepts_iff_wordOf {r : OpRow} (hr : r ∈ opcodeRows) (w : Word) :
    w &&& r.mask = r.pattern ↔ WordOf r.op w := by
  have hop : ∀ x : BitVec 4, x &&& 0xF#4 = x := fun _ => BitVec.and_allOnes
  have hreg : ∀ x : Byte, x &&& 0xFF#8 = x := fun _ => BitVec.and_allOnes
  have himm : ∀ x : Len, x &&& 0x1FFF#13 = x := fun _ => BitVec.and_allOnes
  simp only [opcodeRows, List.mem_cons, List.not_mem_nil, or_false] at hr
  rw [mask_eq_iff_fields]
  obtain rfl | rfl | rfl | rfl | rfl | rfl | rfl := hr <;>
    simp [WordOf, CommandWord.ofWord, CommandWord.wellFormed, CommandWord.immIsByte, Opcode.bits, hop, hreg, himm,
      and_immHigh_eq_zero_iff]

theorem exists_row (op : Opcode) : ∃ r ∈ opcodeRows, r.op = op := by
  cases op <;> decide

theorem row_eq_of_op_eq : ∀ r ∈ opcodeRows, ∀ r' ∈ opcodeRows, r.op = r'.op → r = r' := by
  decide

theorem exists_row_accepts_iff_wordOf (w : Word) (op : Opcode) :
    (∃ r ∈ opcodeRows, r.op = op ∧ w &&& r.mask = r.pattern) ↔ WordOf op w := by
  constructor
  · rintro ⟨r, hr, rfl, hmask⟩
    exact (row_accepts_iff_wordOf hr w).1 hmask
  · intro h
    obtain ⟨r, hr, rfl⟩ := exists_row op
    exact ⟨r, hr, rfl, (row_accepts_iff_wordOf hr w).2 h⟩

/-- Settles O4: the decoder, the row and the fields say `WordOf`; a word has one opcode, and an opcode one row. -/
theorem decoderAcceptsTheTablePatterns : Obligations.DecoderAcceptsTheTablePatterns := by
  refine ⟨fun w op => ?_, fun r hr r' hr' w h h' => ?_⟩
  · rw [exists_decode_iff_wordOf]
    exact ⟨(exists_row_accepts_iff_wordOf w op).symm, wordOf_iff_fields w op⟩
  · have hop : WordOf r.op w := (row_accepts_iff_wordOf hr w).1 (beq_iff_eq.1 h)
    have hop' : WordOf r'.op w := (row_accepts_iff_wordOf hr' w).1 (beq_iff_eq.1 h')
    exact row_eq_of_op_eq r hr r' hr' (Opcode.bits_injective (hop.1.symm.trans hop'.1))

/-! Invalid words. -/

theorem decode_ne_ok_of_invalid {w : Word}
    (h : (w.extractLsb' 28 4 = 0#4 ∨ 0x8#4 ≤ w.extractLsb' 28 4) ∨
      ∃ r ∈ opcodeRows, w.extractLsb' 28 4 = r.op.bits ∧ w &&& r.mask ≠ r.pattern) (i : Instr) : decode w ≠ .ok i := by
  intro hdec
  have hword : WordOf i.opcode w := wordOf_of_decode hdec
  have hop : w.extractLsb' 28 4 = i.opcode.bits := hword.1
  rw [hop] at h
  obtain hreserved | ⟨r, hr, hrop, hmask⟩ := h
  · exact i.opcode.bits_not_reserved hreserved
  · rw [Opcode.bits_injective hrop] at hword
    exact hmask ((row_accepts_iff_wordOf hr w).2 hword)

theorem issue_of_not_ok {w : Word} (h : ∀ i, decode w ≠ .ok i) (s : State) : issue w s = .next (reject (s.setCmd w)) := by
  unfold issue
  split
  · next i hdec => exact absurd hdec (h i)
  · rfl

/-- Settles O46: the write reaches `CMD`, and the word decodes to no command. -/
theorem invalidWordEndsErrorWithoutLineAccess : Obligations.InvalidWordEndsErrorWithoutLineAccess := by
  intro s w rest h hinvalid
  rw [step_memWrite h (hostTarget_base_add s.base 0 4), writeTarget, issue_of_not_ok (decode_ne_ok_of_invalid hinvalid)]
  rfl

end Sys2Proof

/-! The poll as its rule's loop, the primitives under given answers, and the result latch (spec/40_primitives.md R90 to
R95, R100, R101). -/

namespace Sys2Proof.Machine

open Sys2Proof Sys2Proof.Trace

/-! The result latch and admission. -/

/-- Settles O43, by which of the two results is a failure. -/
theorem finishLatchesTheFirstFailure : Obligations.FinishLatchesTheFirstFailure := by
  intro r st data count s
  rw [finish, latched_eq]
  by_cases hr : r = .ok
  · by_cases hst : st = .ok
    · simp [hr, hst, State.setResult]
    · simp [hr, hst, State.setResult]
  · simp [hr, State.setResult]

/-- Settles O25: a command that is not admitted is `reject`, which is the latch of `Error`. -/
theorem rejectedCommandsChangeOnlyResult : Obligations.RejectedCommandsChangeOnlyResult :=
  fun _ _ ha => exec_of_not_admitted ha

/-! The poll. -/

section Loop

variable {α : Type} {lread : State → α × State} {ev : α → LineEvent}

theorem poll_eq_pollLoop (pred : α → Bool) (s : State) : poll lread pred s =
    pollLoop lread pred (s.budget.toNat - (s.setPollcnt 0).pollcnt.toNat) (s.setPollcnt 0) := rfl

/-- One round of the loop, with the comparison of R90 in the place of the samples still allowed (log entry 23). -/
theorem pollLoop_round (hr : IsRead lread ev) (pred : α → Bool) (s : State) :
    pollLoop lread pred (s.budget.toNat - s.pollcnt.toNat) s =
      if s.pollcnt < s.budget then
        if pred (lread s).1 then (.ok, (lread s).2.setPollcnt (s.pollcnt + 1))
        else pollLoop lread pred (s.budget.toNat - (s.pollcnt + 1).toNat) ((lread s).2.setPollcnt (s.pollcnt + 1))
      else (.timeout, s) := by
  have hcount : (lread s).2.pollcnt = s.pollcnt := by rw [hr.state]; rfl
  by_cases hlt : s.pollcnt < s.budget
  · have hnext : (s.pollcnt + 1).toNat = s.pollcnt.toNat + 1 := by bv_omega
    have hleft : s.budget.toNat - s.pollcnt.toNat = (s.budget.toNat - (s.pollcnt + 1).toNat) + 1 := by bv_omega
    rw [if_pos hlt, hleft, pollLoop, hcount]
  · have hleft : s.budget.toNat - s.pollcnt.toNat = 0 := by bv_omega
    rw [if_neg hlt, hleft, pollLoop]

end Loop

/-- Settles O6: the reads are their definitions, the loop is `pollLoop_round` at either register. -/
theorem pollIsTheLoopOfItsRule : Obligations.PollIsTheLoopOfItsRule :=
  ⟨fun _ => rfl, fun _ => rfl,
    fun pred s => ⟨poll_eq_pollLoop pred s, pollLoop_round lreadSr1_isRead pred s⟩,
    fun pred s => ⟨poll_eq_pollLoop pred s, pollLoop_round lreadSr2_isRead pred s⟩⟩

/-! The primitives under given answers. -/

/-- `PHASE` may be set before the event is recorded. -/
theorem State.record_setPhase (s : State) (e : LineEvent) (p : Phase) :
    (s.record e).setPhase p = (s.setPhase p).record e := rfl

/-- Settles O7: each is a line write, then the poll of `poll_scripted_ok` or `poll_scripted_timeout`. -/
theorem startAndStopFollowTheirAnswers : Obligations.StartAndStopFollowTheirAnswers := by
  refine ⟨fun s bad rest good hbad => ?_, fun s bad rest good hbad => ?_⟩
  · have hpart := lreadSr1_isPart
    refine ⟨fun h hlt hgood => ?_, fun h hlen => ?_⟩
    · rw [start, lwriteStart, State.record_setPhase,
        poll_scripted_ok hpart startAcked bad good hbad hgood ((s.setPhase _).record _) rest h hlt]
      simp [State.record, State.setPhase, Function.comp_def]
    · rw [start, lwriteStart, State.record_setPhase,
        poll_scripted_timeout hpart startAcked bad hbad ((s.setPhase _).record _) rest h hlen]
      simp [State.record, State.setPhase, Function.comp_def]
  · have hpart := lreadSr2_isPart
    have hbusy : ∀ a ∈ bad, busIdle a.busy = false := fun a ha => by simp [busIdle, hbad a ha]
    refine ⟨fun h hlt hgood => ?_, fun h hlen => ?_⟩
    · have hidle : busIdle good.busy = true := by simp [busIdle, hgood]
      rw [stop, lwriteStop, State.record_setPhase,
        poll_scripted_ok hpart busIdle bad good hbusy hidle ((s.setPhase _).record _) rest h hlt]
      simp [State.record, State.setPhase, Function.comp_def]
    · rw [stop, lwriteStop, State.record_setPhase,
        poll_scripted_timeout hpart busIdle bad hbusy ((s.setPhase _).record _) rest h hlen]
      simp [State.record, State.setPhase, Function.comp_def]

theorem onOk_ok (s : State) (f : State → Result × State) : onOk (.ok, s) f = f s := if_pos rfl

theorem onOk_of_ne_ok {r : Result} (h : r ≠ .ok) (s : State) (f : State → Result × State) : onOk (r, s) f = (r, s) :=
  if_neg h

/-- The acknowledge-failure check of a pending answer. -/
theorem ackCheck_scripted {s : State} {chk : LineAnswer} {rest : List LineAnswer} (h : s.answers = chk :: rest) :
    ackCheck s = (if chk.sr1.af then .nack else .ok, { s with
      history := s.history ++ .rSr1 chk.sr1 :: if chk.sr1.af then [.wAfClr] else []
      answers := rest }) := by
  have hnext : s.nextAnswer = chk := State.nextAnswer_cons h
  by_cases haf : chk.sr1.af = true
  · simp [ackCheck, lreadSr1, lwriteAfClr, State.record, State.dropAnswer, hnext, haf, h]
  · simp [ackCheck, lreadSr1, State.record, State.dropAnswer, hnext, haf, h]

/-- Settles O8: after `Ok` of the poll the check alone decides; after `Timeout` nothing follows. -/
theorem sendAddressDecidesOnTheCheck : Obligations.SendAddressDecidesOnTheCheck := by
  intro dev dir s bad rest good clr chk hbad
  have hnot : ∀ a ∈ bad, addressDone a.sr1 = false := fun a ha => by simp [addressDone, hbad a ha]
  refine ⟨fun h hlt hgood => ?_, fun h hlen => ?_⟩
  · have hdone : addressDone good.sr1 = true := by simpa [addressDone] using hgood
    rw [sendAddress, poll_scripted_ok lreadSr1_isPart addressDone bad good hnot hdone (lwriteDr _ s) _ h hlt, onOk_ok,
      ackCheck_scripted (chk := chk) (rest := rest) rfl]
    refine ⟨fun haf => ?_, fun haf => ?_⟩
    · simp [onOk, haf, lreadSr2, State.nextAnswer, lwriteDr, State.record, State.dropAnswer, State.setPhase,
        addrByte_eq, Function.comp_def]
    · simp [onOk, haf, lreadSr2, State.nextAnswer, lwriteDr, State.record, State.dropAnswer, addrByte_eq,
        Function.comp_def]
  · rw [sendAddress, poll_scripted_timeout lreadSr1_isPart addressDone bad hnot (lwriteDr _ s) rest h hlen,
      onOk_of_ne_ok (r := .timeout) nofun]
    simp [lwriteDr, State.record, addrByte_eq, Function.comp_def]

/-- Settles O9: after `Ok` of the poll the check decides; after `Timeout` it is not made. -/
theorem sendByteChecksAfterThePoll : Obligations.SendByteChecksAfterThePoll := by
  intro v s bad rest good chk hbad
  refine ⟨fun h hlt hgood => ?_, fun h hlen => ?_⟩
  · rw [sendByte, poll_scripted_ok lreadSr1_isPart byteDone bad good hbad hgood (lwriteDr v (s.setPhase _)) _ h hlt,
      onOk_ok, ackCheck_scripted (chk := chk) (rest := rest) rfl]
    simp [lwriteDr, State.record, State.setPhase, Function.comp_def]
  · rw [sendByte, poll_scripted_timeout lreadSr1_isPart byteDone bad hbad (lwriteDr v (s.setPhase _)) rest h hlen,
      onOk_of_ne_ok (r := .timeout) nofun]
    simp [lwriteDr, State.record, State.setPhase, Function.comp_def]

/-- Settles O10: `CR.ACK` and `ACKEN` are written before the poll; `DR` is read only after its `Ok`. -/
theorem receiveByteTakesTheAnsweredByte : Obligations.ReceiveByteTakesTheAnsweredByte := by
  intro ack s bad rest good dat hbad
  have hpart := lreadSr1_isPart
  refine ⟨fun h hlt hgood => ?_, fun h hlen => ?_⟩
  · rw [receiveByte, poll_scripted_ok hpart byteReceived bad good hbad hgood
      ((lwriteAck ack (s.setPhase _)).setAcken ack) _ h hlt]
    simp [lreadDr, State.nextAnswer, lwriteAck, State.record, State.dropAnswer, State.setPhase, State.setAcken,
      Function.comp_def]
  · rw [receiveByte, poll_scripted_timeout hpart byteReceived bad hbad
      ((lwriteAck ack (s.setPhase _)).setAcken ack) rest h hlen]
    simp [lwriteAck, State.record, State.setPhase, State.setAcken, Function.comp_def]

end Sys2Proof.Machine

/-! The size of a command: the samples of its last poll, and all its events (spec/95_test_vectors.md section 2.8). -/

namespace Sys2Proof.Machine

open Sys2Proof Sys2Proof.Trace

/-! The last poll of every body is that of a stop. -/

/-- `POLLCNT` is at most `BUDGET`. -/
def State.PollcntInBudget (s : State) : Prop := s.pollcnt.toNat ≤ s.budget.toNat

theorem poll_pollcntInBudget {α : Type} {lread : State → α × State} {ev : α → LineEvent} (hr : IsRead lread ev)
    (pred : α → Bool) (s : State) : (poll lread pred s).2.PollcntInBudget := by
  obtain ⟨evs, hframe, _, hpolled, hcount⟩ := poll_spec hr pred s
  rw [State.PollcntInBudget, hcount, hframe.budget, BitVec.toNat_ofNat]
  exact (Nat.mod_le _ _).trans hpolled.length_le

theorem endPass_pollcntInBudget (r : Result) (byte : Byte) (s : State) : (endPass r byte s).s.PollcntInBudget :=
  poll_pollcntInBudget lreadSr2_isRead busIdle ((lwriteStop (s.noteFailure r)).setPhase .stopIssued)

theorem writePass_pollcntInBudget (dev : DevAddr) (k : Nat) (b : Nat → State → Byte) (s : State) :
    (writePass dev k b s).s.PollcntInBudget :=
  endPass_pollcntInBudget _ _ _

theorem readPass_pollcntInBudget (dev : DevAddr) (n : Nat) (put : Nat → Byte → State → State) (s : State) :
    (readPass dev n put s).s.PollcntInBudget := by
  simp only [readPass]
  split
  · exact endPass_pollcntInBudget _ _ _
  · exact endPass_pollcntInBudget _ _ _

theorem State.PollcntInBudget.finish {s : State} (h : s.PollcntInBudget) (r st : Result) (data : Byte) (count : Len) :
    (finish r st data count s).PollcntInBudget := h

theorem readBody_pollcntInBudget (dev : DevAddr) (n : Len) (dest : Delivery) (s : State) :
    (readBody dev n dest s).PollcntInBudget :=
  (readPass_pollcntInBudget dev n.toNat dest.put s).finish _ _ _ _

theorem BodyForm.pollcntInBudget {i : Instr} {s : State} {body : State → State} (h : BodyForm i s body) (u : State) :
    (body u).PollcntInBudget := by
  cases h with
  | write dev bytes b => exact (writePass_pollcntInBudget dev bytes.length b u).finish _ _ _ _
  | rawRead dev dest => exact readBody_pollcntInBudget dev _ dest u
  | registerRead dev reg dest =>
    obtain ⟨_, hbody⟩ | ⟨_, hbody⟩ := registerReadBody_cases dev reg (okCount i) dest u _ rfl
    · rw [hbody]
      exact readBody_pollcntInBudget dev _ dest _
    · rw [hbody]
      exact (writePass_pollcntInBudget dev 1 _ u).finish _ _ _ _

/-- Settles O42: every body ends with the poll of a stop, and `BUDGET` is as the host left it. -/
theorem pollCountStaysWithinTheBudget : Obligations.PollCountStaysWithinTheBudget := by
  intro i s t ha h
  obtain ⟨_, hbudget, _⟩ := commandsLeaveTheHostsRegisters i s t h
  obtain ⟨hna, _⟩ | ⟨_, hform, rfl⟩ := exec_cases h
  · exact absurd ha hna
  · exact hbudget ▸ hform.pollcntInBudget _

/-! How many events the grammar allows. -/

/-- The one event that `Nack` adds: the `W_AFCLR` of the check that found it (log entry 24). -/
def clearOf (r : Result) : Nat := if r = .nack then 1 else 0

theorem clearOf_le_one (r : Result) : clearOf r ≤ 1 := by
  cases r <;> decide

/-- A `Nack` of the pass is the code of the command. -/
theorem clearOf_le_firstFailure (r st : Result) : clearOf r ≤ clearOf (firstFailure r st) := by
  cases r <;> simp [clearOf, firstFailure]

/-- The operation makes at most `n` events, and one more when it ends `Nack`. -/
def AtMost (n : Nat) (P : Events → Result → Prop) : Prop := ∀ evs r, P evs r → evs.length ≤ n + clearOf r

theorem AtMost.of_ok {n : Nat} {P : Events → Result → Prop} {evs : Events} (h : AtMost n P) (hp : P evs .ok) :
    evs.length ≤ n :=
  h evs .ok hp

theorem AtMost.mono {m n : Nat} {P : Events → Result → Prop} (h : AtMost m P) (hmn : m ≤ n) : AtMost n P :=
  fun evs r hp => (h evs r hp).trans (Nat.add_le_add_right hmn _)

theorem AtMost.seq {m n : Nat} {P Q : Events → Result → Prop} (hP : AtMost m P) (hQ : AtMost n Q) :
    AtMost (m + n) (Seq P Q) := by
  rintro evs r (⟨_, h⟩ | ⟨e₁, e₂, h₁, h₂, rfl⟩)
  · have hlen := hP evs r h
    omega
  · have hlen₁ := hP.of_ok h₁
    have hlen₂ := hQ e₂ r h₂
    rw [List.length_append]
    omega

theorem polled_atMost {α : Type} (ev : α → LineEvent) (pred : α → Bool) (budget : Nat) :
    AtMost budget (Polled ev pred budget) :=
  fun _ _ h => h.length_le.trans (Nat.le_add_right _ _)

theorem wrote_atMost (v : Byte) : AtMost 1 (Wrote v) := by
  rintro _ _ ⟨rfl, rfl⟩
  exact Nat.le_refl 1

theorem cleared_atMost : AtMost 1 Cleared := by
  rintro _ _ ⟨⟨busy, rfl⟩, rfl⟩
  exact Nat.le_refl 1

theorem checked_atMost : AtMost 1 Checked := by
  rintro _ _ ⟨f, ⟨_, rfl, rfl⟩ | ⟨_, rfl, rfl⟩⟩
  · exact Nat.le_refl 1
  · exact Nat.le_refl 2

theorem started_atMost (budget : Nat) : AtMost (budget + 1) (Started budget) := by
  rintro _ r ⟨p, rfl, hp⟩
  have hlen := polled_atMost _ _ _ p r hp
  rw [List.length_cons]
  omega

theorem stopped_length_le {budget : Nat} {evs : Events} {r : Result} (h : Stopped budget evs r) :
    evs.length ≤ budget + 1 := by
  obtain ⟨p, rfl, hp⟩ := h
  exact Nat.succ_le_succ hp.length_le

theorem addressed_atMost (budget : Nat) (b : Byte) : AtMost (budget + 3) (Addressed budget b) := by
  have hseq : AtMost (1 + (budget + (1 + 1))) (Addressed budget b) :=
    (wrote_atMost b).seq ((polled_atMost _ _ budget).seq (cleared_atMost.seq checked_atMost))
  exact hseq.mono (by omega)

theorem opened_atMost (budget : Nat) (dev : DevAddr) (dir : BitVec 1) :
    AtMost (2 * budget + 4) (Opened budget dev dir) := by
  have hseq : AtMost (budget + 1 + (budget + 3)) (Opened budget dev dir) :=
    (started_atMost budget).seq (addressed_atMost budget _)
  exact hseq.mono (by omega)

theorem sent_atMost (budget : Nat) (v : Byte) : AtMost (budget + 2) (Sent budget v) := by
  have hseq : AtMost (1 + (budget + 1)) (Sent budget v) :=
    (wrote_atMost v).seq ((polled_atMost _ _ budget).seq checked_atMost)
  exact hseq.mono (by omega)

theorem sentAll_length_le {budget : Nat} {bytes : List Byte} {evs : Events} {r : Result} {sent : Nat}
    (h : SentAll budget bytes evs r sent) : evs.length ≤ bytes.length * (budget + 2) + clearOf r := by
  induction h with
  | done => exact Nat.zero_le _
  | @failed v vs evs r h _ =>
    have hlen := sent_atMost budget v evs r h
    rw [List.length_cons, Nat.succ_mul]
    omega
  | @more v vs e₁ e₂ r k h _ ih =>
    have hlen := (sent_atMost budget v).of_ok h
    rw [List.length_cons, List.length_append, Nat.succ_mul]
    omega

theorem received_length_le {budget : Nat} {ack : Bool} {evs : Events} {v : Byte} (h : Received budget ack evs v) :
    evs.length ≤ budget + 2 := by
  obtain ⟨p, hp, rfl⟩ := h
  have hlen := hp.length_le
  simp only [List.length_append, List.length_cons, List.length_nil]
  omega

theorem notReceived_length_le {budget : Nat} {ack : Bool} {evs : Events} {r : Result}
    (h : NotReceived budget ack evs r) : evs.length ≤ budget + 1 := by
  obtain ⟨_, p, hp, rfl⟩ := h
  exact Nat.succ_le_succ hp.length_le

theorem receivedAll_length_le {budget left : Nat} {evs : Events} {r : Result} {got : List Byte}
    (h : ReceivedAll budget left evs r got) : evs.length ≤ left * (budget + 2) := by
  induction h with
  | done => exact Nat.zero_le _
  | failed h =>
    have hlen := notReceived_length_le h
    rw [Nat.succ_mul]
    omega
  | more h _ ih =>
    have hlen := received_length_le h
    rw [List.length_append, Nat.succ_mul]
    omega

/-- A pass of `n` bytes: two polls and four accesses before the bytes, a poll and two accesses for each, a poll and
one access after them. -/
def passSize (budget n : Nat) : Nat := (n + 3) * budget + (2 * n + 5)

theorem passSize_eq (budget n : Nat) : passSize budget n = 2 * budget + 4 + n * (budget + 2) + (budget + 1) := by
  unfold passSize
  ring

theorem writePass_length_le {budget : Nat} {dev : DevAddr} {bytes : List Byte} {evs : Events} {r st : Result}
    {sent : Nat} {port : List (BitVec 3)} (h : WritePass budget dev bytes evs r st sent port) :
    evs.length ≤ passSize budget bytes.length + clearOf r := by
  obtain ⟨_, _, ⟨_, hopen, _⟩ | ⟨_, _, hopen, hsent, rfl, _⟩, hstop, rfl⟩ := h
  · have hlen := opened_atMost budget dev 0 _ r hopen
    have hlenStop := stopped_length_le hstop
    rw [passSize_eq, List.length_append]
    omega
  · have hlen := (opened_atMost budget dev 0).of_ok hopen
    have hlenSent := sentAll_length_le hsent
    have hlenStop := stopped_length_le hstop
    rw [passSize_eq, List.length_append, List.length_append]
    omega

theorem readPass_length_le {budget : Nat} {dev : DevAddr} {n : Nat} {evs : Events} {r st : Result} {got : List Byte}
    {port : List (BitVec 3)} (hn : n ≠ 0) (h : ReadPass budget dev n evs r st got port) :
    evs.length ≤ passSize budget n := by
  obtain ⟨_, _, ⟨_, hopen, _⟩ | ⟨_, _, hopen, hrecv, rfl, _⟩, hstop, rfl⟩ := h
  · have hlen := opened_atMost budget dev 1 _ r hopen
    have hclear := clearOf_le_one r
    have hbyte : 1 * (budget + 2) ≤ n * (budget + 2) := Nat.mul_le_mul_right _ (Nat.one_le_iff_ne_zero.2 hn)
    have hlenStop := stopped_length_le hstop
    rw [passSize_eq, List.length_append]
    omega
  · have hlen := (opened_atMost budget dev 1).of_ok hopen
    have hlenRecv := receivedAll_length_le hrecv
    have hlenStop := stopped_length_le hstop
    rw [passSize_eq, List.length_append, List.length_append]
    omega

/-! The bodies. -/

/-- From `s` to `t` at most `n` events were made. -/
def Grows (n : Nat) (s t : State) : Prop := ∃ evs, t.history = s.history ++ evs ∧ evs.length ≤ n

theorem Grows.trans {m n : Nat} {s t u : State} (h₁ : Grows m s t) (h₂ : Grows n t u) : Grows (m + n) s u := by
  obtain ⟨e₁, hh₁, hl₁⟩ := h₁
  obtain ⟨e₂, hh₂, hl₂⟩ := h₂
  exact ⟨e₁ ++ e₂, by rw [hh₂, hh₁, List.append_assoc], by rw [List.length_append]; omega⟩

theorem Grows.mono {m n : Nat} {s t : State} (h : Grows m s t) (hmn : m ≤ n) : Grows n s t := by
  obtain ⟨evs, hhist, hlen⟩ := h
  exact ⟨evs, hhist, hlen.trans hmn⟩

theorem Grows.finish {n : Nat} {s u : State} (h : Grows n s u) (r st : Result) (data : Byte) (count : Len) :
    Grows n s (finish r st data count u) := h

theorem writePass_grows (dev : DevAddr) {b : Nat → State → Byte} {bytes : List Byte} {s : State} (hne : bytes ≠ [])
    (hlen : bytes.length < 8192) (hfail : s.fail = .ok) (hsends : Sends b bytes s) :
    Grows (passSize s.budget.toNat bytes.length + clearOf (writePass dev bytes.length b s).r) s
      (writePass dev bytes.length b s).s := by
  obtain ⟨evs, _, _, hframe, hpass, _⟩ := writePass_spec dev b bytes s hne hlen hfail hsends
  exact ⟨evs, hframe.history, writePass_length_le hpass⟩

theorem writeBody_grows (dev : DevAddr) {b : Nat → State → Byte} {bytes : List Byte} (count : Len) {s : State}
    (hne : bytes ≠ []) (hlen : bytes.length < 8192) (hfail : s.fail = .ok) (hsends : Sends b bytes s) :
    Grows (passSize s.budget.toNat bytes.length + clearOf (writeBody dev bytes.length b count s).result.code) s
      (writeBody dev bytes.length b count s) := by
  have hcode : (writeBody dev bytes.length b count s).result.code =
      firstFailure (writePass dev bytes.length b s).r (writePass dev bytes.length b s).stop := latched_code _ _ _ _
  rw [hcode]
  have hpass := writePass_grows dev hne hlen hfail hsends
  exact (hpass.mono (Nat.add_le_add_left (clearOf_le_firstFailure _ _) _)).finish _ _ _ _

theorem readBody_grows (dev : DevAddr) {n : Len} (dest : Delivery) {s : State} (hne : n ≠ 0) (hfail : s.fail = .ok) :
    Grows (passSize s.budget.toNat n.toNat) s (readBody dev n dest s) := by
  have hn : n.toNat ≠ 0 := by simpa [BitVec.toNat_eq] using hne
  obtain ⟨evs, _, _, hframe, hpass, _⟩ := readPass_spec dev dest n.toNat s hn n.isLt hfail
  have hgrows : Grows (passSize s.budget.toNat n.toNat) s (readPass dev n.toNat dest.put s).s :=
    ⟨evs, hframe.history, readPass_length_le hn hpass⟩
  exact hgrows.finish _ _ _ _

theorem registerReadBody_grows (dev : DevAddr) (reg : Byte) {n : Len} (dest : Delivery) {s : State} (hne : n ≠ 0)
    (hfail : s.fail = .ok) :
    Grows (passSize s.budget.toNat 1 + passSize s.budget.toNat n.toNat) s (registerReadBody dev reg n dest s) := by
  obtain ⟨_, _, _, hframe, _, _, _, _, hfl, _⟩ :=
    writePass_spec dev (oneByte reg) [reg] s (by simp) (by simp) hfail (oneByte_sends reg s)
  have hwrite := writePass_grows dev (bytes := [reg]) (by simp) (by simp) hfail (oneByte_sends reg s)
  rw [List.length_singleton] at hframe hfl hwrite
  obtain ⟨hok, hbody⟩ | ⟨_, hbody⟩ := registerReadBody_cases dev reg n dest s _ rfl
  · have hread := readBody_grows dev dest hne (hfl.trans hok)
    rw [hframe.budget] at hread
    rw [(firstFailure_eq_ok.1 hok).1] at hwrite
    rw [hbody]
    exact hwrite.trans hread
  · have hclear := clearOf_le_one (writePass dev 1 (oneByte reg) s).r
    rw [hbody]
    refine (hwrite.mono ?_).finish _ _ _ _
    simp only [passSize]
    omega

/-! The sizes of the commands' passes are the counts of section 2.8. -/

theorem passSize_one_add (budget n : Nat) :
    passSize budget 1 + passSize budget n = (n + 7) * budget + (2 * n + 12) := by
  unfold passSize
  ring

theorem clearOf_of_write {i : Instr} (h : isRead i = false) (r : Result) :
    (if isRead i = false ∧ r = .nack then 1 else 0) = clearOf r := by
  simp [clearOf, h]

theorem bodyOf_grows {i : Instr} (h : zeroLength i = false) {s : State} (hfail : s.fail = .ok) :
    Grows (pollsOf i * s.budget.toNat + nonSamplesOf i +
      if isRead i = false ∧ (bodyOf i s).result.code = .nack then 1 else 0) s (bodyOf i s) := by
  cases i with
  | wreg dev reg val =>
    have hgrows := writeBody_grows dev 2 (by simp) (by simp) hfail (wregByte_sends reg val s)
    rw [show [reg, val].length = 2 from rfl] at hgrows
    rw [clearOf_of_write rfl]
    exact hgrows
  | wraw dev val =>
    have hgrows := writeBody_grows dev 1 (by simp) (by simp) hfail (oneByte_sends val s)
    rw [List.length_singleton] at hgrows
    rw [clearOf_of_write rfl]
    exact hgrows
  | wbuf dev n =>
    have hn : n.toNat ≠ 0 := by simpa [zeroLength, BitVec.toNat_eq] using h
    have hgrows := writeBody_grows dev n (by simpa using hn) (by simpa using n.isLt) hfail (txBufByte_sends n.toNat s)
    rw [List.length_map, List.length_range] at hgrows
    rw [clearOf_of_write rfl]
    exact hgrows
  | rreg dev reg =>
    have hgrows := registerReadBody_grows dev reg (n := 1) .data (by decide) hfail
    exact hgrows.mono ((passSize_one_add _ 1).trans_le (Nat.le_add_right _ _))
  | rraw dev => exact readBody_grows dev (n := 1) .data (by decide) hfail
  | rbuf dev reg n =>
    have hgrows := registerReadBody_grows dev reg .rxbuf (by simpa [zeroLength] using h) hfail
    exact hgrows.mono ((passSize_one_add _ n.toNat).trans_le (Nat.le_add_right _ _))
  | rrawb dev n => exact readBody_grows dev .rxbuf (by simpa [zeroLength] using h) hfail

/-- Settles O29: a rejected command makes no event, a body grows the history by the sizes of its passes. -/
theorem everyCommandIsBounded : Obligations.EveryCommandIsBounded := by
  intro i s t h
  obtain ⟨_, rfl⟩ | ⟨ha, _, rfl⟩ := exec_cases h
  · exact ⟨[], (List.append_nil _).symm, Nat.zero_le _⟩
  · exact bodyOf_grows ha.2 (s := s.setFail .ok) rfl

end Sys2Proof.Machine

/-! A failed address phase, and the peer that does not acknowledge its address (spec/60_exceptions.md R136). -/

namespace Sys2Proof.Machine

open Sys2Proof Sys2Proof.Trace

/-! What a failed address phase leaves of a command. -/

/-- A failure is latched without byte and count, whatever the stop did. -/
theorem finish_of_failed {r : Result} (hr : r ≠ .ok) (st : Result) (data : Byte) (count : Len) (s : State) :
    finish r st data count s = s.setResult ⟨true, 0, 0, r⟩ := by
  rw [finish, latched_eq, if_neg (fun h => hr h.1), if_neg hr]

/-- The direction of a command's first pass. -/
def firstPass : Instr → Direction
  | .rraw _ | .rrawb _ _ => .read
  | .wreg _ _ _ | .wbuf _ _ | .rreg _ _ | .rbuf _ _ _ | .wraw _ _ => .write

theorem firstPass_bit (i : Instr) : (firstPass i).bit = firstDirection i := by
  cases i <;> rfl

section FailedOpen

variable {dev : DevAddr} {s u : State} {r : Result}

theorem writePass_of_failed_open (h : openPass dev .write s = (r, u)) (hr : r ≠ .ok) (k : Nat)
    (b : Nat → State → Byte) : writePass dev k b s = endPass r 0 u := by
  simp only [writePass, h, onOk_of_ne_ok hr]

theorem readPass_of_failed_open (h : openPass dev .read s = (r, u)) (hr : r ≠ .ok) (n : Nat)
    (put : Nat → Byte → State → State) : readPass dev n put s = endPass r 0 u := by
  simp only [readPass, h, if_neg hr]

theorem writeBody_of_failed_open (h : openPass dev .write s = (r, u)) (hr : r ≠ .ok) (k : Nat)
    (b : Nat → State → Byte) (count : Len) :
    writeBody dev k b count s = (endPass r 0 u).s.setResult ⟨true, 0, 0, r⟩ := by
  rw [writeBody, writePass_of_failed_open h hr]
  exact finish_of_failed hr _ _ _ _

theorem readBody_of_failed_open (h : openPass dev .read s = (r, u)) (hr : r ≠ .ok) (n : Len) (dest : Delivery) :
    readBody dev n dest s = (endPass r 0 u).s.setResult ⟨true, 0, 0, r⟩ := by
  rw [readBody, readPass_of_failed_open h hr]
  exact finish_of_failed hr _ _ _ _

theorem registerReadBody_of_failed_open (h : openPass dev .write s = (r, u)) (hr : r ≠ .ok) (reg : Byte) (n : Len)
    (dest : Delivery) :
    registerReadBody dev reg n dest s = (endPass r 0 u).s.setResult ⟨true, 0, 0, r⟩ := by
  rw [registerReadBody, writePass_of_failed_open h hr]
  exact (if_neg fun hok => hr hok.1).trans (finish_of_failed hr _ _ _ _)

end FailedOpen

/-- When the first address phase fails, every command makes the stop and latches that failure. -/
theorem bodyOf_of_failed_open {i : Instr} {s u : State} {r : Result} {p : PassEnd}
    (h : openPass (device i) (firstPass i) s = (r, u)) (hr : r ≠ .ok) (hend : endPass r 0 u = p) :
    bodyOf i s = p.s.setResult ⟨true, 0, 0, r⟩ := by
  subst hend
  cases i with
  | wreg | wbuf | wraw => exact writeBody_of_failed_open h hr _ _ _
  | rraw | rrawb => exact readBody_of_failed_open h hr _ _
  | rreg | rbuf => exact registerReadBody_of_failed_open h hr _ _ _

/-! The peer that does not acknowledge its address. -/

/-- The address phase of vectors V6 and V21. -/
def nackedOpen (dev : DevAddr) (dir : BitVec 1) : Events :=
  [.wStart, .rSr1 ⟨true, false, false, false, false⟩, .wDr (dev ++ dir), .rSr1 ⟨false, false, false, false, true⟩,
   .rSr2 true, .rSr1 ⟨false, false, false, false, true⟩, .wAfClr]

theorem toNat_pos_of_ne_zero {v : Word} (h : v ≠ 0) : 0 < v.toNat := by
  bv_omega

theorem openPass_of_start_ok {dev : DevAddr} {dir : Direction} {s u w : State} {r : Result}
    (hstart : start s = (.ok, u)) (haddr : sendAddress dev dir u = (r, w)) : openPass dev dir s = (r, w.setByteidx 0) := by
  rw [openPass, hstart, onOk_ok, haddr]

/-- `start` whose first sample finds `SB`. -/
theorem start_firstSample {s : State} {good : LineAnswer} {rest : List LineAnswer} (hbudget : s.budget ≠ 0)
    (h : s.answers = good :: rest) (hgood : good.sr1.sb = true) :
    start s = (.ok, { s.setPhase .startIssued with
      history := s.history ++ [.wStart, .rSr1 good.sr1], answers := rest, pollcnt := 1 }) :=
  (startAndStopFollowTheirAnswers.1 s [] rest good nofun).1 h (toNat_pos_of_ne_zero hbudget) hgood

/-- `sendAddress` whose first sample finds `AF`, as does the check. -/
theorem sendAddress_firstSample_nack {dev : DevAddr} {dir : Direction} {s : State} {good clr chk : LineAnswer}
    {rest : List LineAnswer} (hbudget : s.budget ≠ 0) (h : s.answers = good :: clr :: chk :: rest)
    (hgood : good.sr1.af = true) (hchk : chk.sr1.af = true) :
    sendAddress dev dir s = (.nack, { s with
      history := s.history ++
        [.wDr (dev ++ dir.bit), .rSr1 good.sr1, .rSr2 clr.busy, .rSr1 chk.sr1, .wAfClr]
      answers := rest, pollcnt := 1 }) :=
  ((sendAddressDecidesOnTheCheck dev dir s [] rest good clr chk nofun).1 h (toNat_pos_of_ne_zero hbudget)
    (.inr hgood)).2 hchk

theorem openPass_nacked (dev : DevAddr) (dir : Direction) {s : State} {rest : List LineAnswer} (hbudget : s.budget ≠ 0)
    (h : s.answers = script (nackedOpen dev dir.bit) ++ rest) :
    openPass dev dir s = (.nack, { s.setPhase .startIssued with
      history := s.history ++ nackedOpen dev dir.bit, answers := rest, pollcnt := 1, byteidx := 0 }) := by
  rw [openPass_of_start_ok (start_firstSample hbudget h rfl) (sendAddress_firstSample_nack hbudget rfl rfl rfl)]
  simp [nackedOpen, script, State.setByteidx]

theorem firstFailure_ok_right (r : Result) : firstFailure r .ok = r := by
  cases r <;> rfl

theorem State.noteFailure_ok (s : State) : s.noteFailure .ok = s := by
  rw [State.noteFailure, firstFailure_ok_right]
  rfl

/-- The end of a pass whose stop finds the bus idle at the first sample. -/
theorem endPass_firstSample {r : Result} {byte : Byte} {s : State} {good : LineAnswer} {rest : List LineAnswer}
    (hbudget : s.budget ≠ 0) (h : s.answers = good :: rest) (hgood : good.busy = false) :
    endPass r byte s = ⟨r, .ok, byte, { ((s.noteFailure r).setPhase .stopIssued).setPhase .idle with
      history := s.history ++ [.wStop, .rSr2 good.busy], answers := rest, pollcnt := 1 }⟩ := by
  have hstop := (startAndStopFollowTheirAnswers.2 (s.noteFailure r) [] rest good nofun).1 h
    (toNat_pos_of_ne_zero hbudget) hgood
  rw [endPass, hstop, State.noteFailure_ok]
  rfl

/-- Settles O31: the first address phase ends `Nack`, and the stop that follows finds the bus idle. -/
theorem addressNackEndsEveryCommand : Obligations.AddressNackEndsEveryCommand := by
  intro i s rest ha hbudget hidle h
  have hopen := openPass_nacked (s := s.setFail .ok) (rest := script promptStop ++ rest) (device i) (firstPass i)
    hbudget h
  have hbody := bodyOf_of_failed_open hopen nofun (endPass_firstSample hbudget rfl rfl)
  refine ⟨_, exec_of_admitted ha, ?_⟩
  rw [hbody]
  refine ⟨?_, rfl, rfl, rfl, rfl, rfl⟩
  simp [CommandFrame, h, hidle, nackedOpen, firstPass_bit, script, ackAfter, State.setResult, State.noteFailure,
    State.setPhase, State.setFail, Phase.dbg]

end Sys2Proof.Machine

/-! The write commands, whatever the environment answers: one write pass each (spec/41_write_commands.md). -/

namespace Sys2Proof.Machine

open Sys2Proof Sys2Proof.Trace

/-- An immediate byte is the low eight bits of `IMM`, below five zero bits (spec/30_encoding.md R71, R77). -/
theorem append_immByte {k : Nat} (hi : BitVec k) (val : Byte) :
    (hi ++ (0#5 ++ val) : BitVec (k + 13)) = hi ++ 0#5 ++ val :=
  BitVec.append_assoc.symm

theorem not_admitted_of_disabled {s : State} (hen : s.ctrl.en = false) (i : Instr) : ¬admitted i s :=
  fun ha => Bool.false_ne_true (hen.symm.trans ha.1)

theorem not_admitted_of_zeroLength {i : Instr} (hzero : zeroLength i = true) (s : State) : ¬admitted i s :=
  fun ha => Bool.false_ne_true (ha.2.symm.trans hzero)

/-- The command `i` runs as one write pass of `bytes` to `dev`: its events, `RESULT`, and what stays as it was. -/
def RunsAsOneWritePass (i : Instr) (dev : DevAddr) (bytes : List Byte) (s : State) : Prop :=
  ∃ t evs r st sent port, exec i s = .next t ∧ WritePass s.budget.toNat dev bytes evs r st sent port ∧
    CommandFrame s t evs port ∧
    t.result = (if r = .ok ∧ st = .ok then ⟨true, okCount i, 0, .ok⟩ else ⟨true, 0, 0, if r = .ok then st else r⟩) ∧
    t.acken = s.acken ∧ t.rxbuf = s.rxbuf ∧ t.byteidx.toNat = sent

theorem runsAsOneWritePass {i : Instr} {dev : DevAddr} {bytes : List Byte} {b : Nat → State → Byte} {s : State}
    (hbody : bodyOf i = writeBody dev bytes.length b (okCount i)) (ha : admitted i s) (hidle : s.phase = .idle)
    (hne : bytes ≠ []) (hlen : bytes.length < 8192) (hsends : Sends b bytes s) : RunsAsOneWritePass i dev bytes s := by
  obtain ⟨t, evs, r, st, sent, port, ht, hpass, hframe, hres, hack, hrx, hidx, _⟩ :=
    writeBody_spec dev bytes b (okCount i) s hne hlen hidle hsends
  refine ⟨t, evs, r, st, sent, port, ?_, hpass, hframe, hres, hack, hrx, hidx⟩
  rw [exec_of_admitted ha, hbody, ht]

/-- The bytes of `TXBUF` that `WBUF` of length `n` sends, as many as its loop runs (spec/41_write_commands.md R111). -/
theorem bodyOf_wbuf (dev : DevAddr) (n : Len) (s : State) : bodyOf (.wbuf dev n) =
    writeBody dev ((List.range n.toNat).map s.txByte).length txBufByte n := by
  rw [List.length_map, List.length_range]
  rfl

theorem range_map_ne_nil {n : Len} (hn : n ≠ 0) (f : Nat → Byte) : (List.range n.toNat).map f ≠ [] := by
  simpa [BitVec.toNat_eq] using hn

theorem range_map_length_lt (n : Len) (f : Nat → Byte) : ((List.range n.toNat).map f).length < 8192 := by
  simpa using n.isLt

/-- Settles O11: the body of `WREG` is the write pass of `reg` and `val`. -/
theorem wregIsOneWritePass : Obligations.WregIsOneWritePass := by
  intro dev reg val s
  refine ⟨append_immByte _ val, fun hen => rejectedCommandsChangeOnlyResult _ s (not_admitted_of_disabled hen _),
    fun hen hidle => ?_⟩
  exact runsAsOneWritePass (bytes := [reg, val]) rfl ⟨hen, rfl⟩ hidle (by simp) (by simp) (wregByte_sends reg val s)

/-- Settles O12: the body of `WRAW` is the write pass of `val`. -/
theorem wrawIsOneWritePass : Obligations.WrawIsOneWritePass := by
  intro dev val s
  refine ⟨append_immByte _ val, fun hen => rejectedCommandsChangeOnlyResult _ s (not_admitted_of_disabled hen _),
    fun hen hidle => ?_⟩
  exact runsAsOneWritePass (bytes := [val]) rfl ⟨hen, rfl⟩ hidle (by simp) (by simp) (oneByte_sends val s)

/-- Settles O13: the body of `WBUF` is the write pass of what `TXBUF` holds below `n`. -/
theorem wbufSendsTheBufferInOrder : Obligations.WbufSendsTheBufferInOrder := by
  intro dev n s
  refine ⟨rfl, fun hrej => rejectedCommandsChangeOnlyResult _ s ?_, fun hen hn hidle => ?_⟩
  · obtain hdis | rfl := hrej
    · exact not_admitted_of_disabled hdis _
    · exact not_admitted_of_zeroLength rfl s
  · have ha : admitted (.wbuf dev n) s := ⟨hen, by simpa [zeroLength] using hn⟩
    exact runsAsOneWritePass (bodyOf_wbuf dev n s) ha hidle (range_map_ne_nil hn _) (range_map_length_lt n _)
      (txBufByte_sends n.toNat s)

end Sys2Proof.Machine

/-! The write commands under the prompt oracle: every poll is answered at its first sample (spec/41_write_commands.md,
worked examples). -/

namespace Sys2Proof.Machine

open Sys2Proof Sys2Proof.Trace

/-- After the accesses `evs`, of which the last poll ended at its first sample, with `rest` still pending. -/
def State.prompted (s : State) (evs : Events) (rest : List LineAnswer) : State :=
  { s with history := s.history ++ evs, answers := rest, pollcnt := 1 }

@[simp] theorem State.prompted_setPhase (s : State) (evs : Events) (rest : List LineAnswer) (p : Phase) :
    (s.prompted evs rest).setPhase p = (s.setPhase p).prompted evs rest := rfl

@[simp] theorem State.prompted_setByteidx (s : State) (evs : Events) (rest : List LineAnswer) (v : Len) :
    (s.prompted evs rest).setByteidx v = (s.setByteidx v).prompted evs rest := rfl

@[simp] theorem State.prompted_byteidx (s : State) (evs : Events) (rest : List LineAnswer) :
    (s.prompted evs rest).byteidx = s.byteidx := rfl

@[simp] theorem State.setByteidx_setByteidx (s : State) (v w : Len) :
    (s.setByteidx v).setByteidx w = s.setByteidx w := rfl

@[simp] theorem State.prompted_prompted (s : State) (e₁ e₂ : Events) (rest₁ rest₂ : List LineAnswer) :
    (s.prompted e₁ rest₁).prompted e₂ rest₂ = s.prompted (e₁ ++ e₂) rest₂ := by
  simp [State.prompted]

/-- After no access, and with the answers and `POLLCNT` as they are, the state is the same. -/
theorem State.prompted_nil {s : State} {rest : List LineAnswer} (h : s.answers = rest) (hcnt : s.pollcnt = 1) :
    s.prompted [] rest = s := by
  subst h
  simp [State.prompted, ← hcnt]

/-- After an address phase that succeeded (spec/40_primitives.md R98, R99). -/
def State.addressed (s : State) : State := ((s.setPhase .startIssued).setPhase .addressSent).setByteidx 0

/-! The primitives. -/

/-- `sendAddress` whose first sample finds `ADDR`, and whose check does not find `AF`. -/
theorem sendAddress_firstSample_ok {dev : DevAddr} {dir : Direction} {s : State} {good clr chk : LineAnswer}
    {rest : List LineAnswer} (hbudget : s.budget ≠ 0) (h : s.answers = good :: clr :: chk :: rest)
    (hgood : good.sr1.addr = true) (hchk : chk.sr1.af = false) :
    sendAddress dev dir s = (.ok, (s.setPhase .addressSent).prompted
      [.wDr (dev ++ dir.bit), .rSr1 good.sr1, .rSr2 clr.busy, .rSr1 chk.sr1] rest) :=
  ((sendAddressDecidesOnTheCheck dev dir s [] rest good clr chk nofun).1 h (toNat_pos_of_ne_zero hbudget)
    (.inl hgood)).1 hchk

theorem openPass_prompt (dev : DevAddr) (dir : Direction) {s : State} {rest : List LineAnswer} (hbudget : s.budget ≠ 0)
    (h : s.answers = script (promptOpen dev dir.bit) ++ rest) :
    openPass dev dir s = (.ok, s.addressed.prompted (promptOpen dev dir.bit) rest) := by
  rw [openPass_of_start_ok (start_firstSample hbudget h rfl) (sendAddress_firstSample_ok hbudget rfl rfl rfl)]
  simp [promptOpen, script, State.addressed, State.prompted, State.setByteidx, State.setPhase]

theorem sendByte_prompt (v : Byte) {s : State} {rest : List LineAnswer} (hbudget : s.budget ≠ 0)
    (h : s.answers = script (promptSend v) ++ rest) :
    sendByte v s = (.ok, (s.setPhase .dataPhase).prompted (promptSend v) rest) :=
  (sendByteChecksAfterThePoll v s [] rest _ _ nofun).1 h (toNat_pos_of_ne_zero hbudget) rfl

theorem endPass_prompt (byte : Byte) {s : State} {rest : List LineAnswer} (hbudget : s.budget ≠ 0)
    (h : s.answers = script promptStop ++ rest) :
    endPass .ok byte s = ⟨.ok, .ok, byte, ((s.setPhase .stopIssued).setPhase .idle).prompted promptStop rest⟩ := by
  rw [endPass_firstSample hbudget h rfl, State.noteFailure_ok]
  rfl

/-! The write pass. -/

theorem State.setPhase_self {s : State} {p : Phase} (h : s.phase = p) : s.setPhase p = s := by
  subst h
  simp [State.setPhase]

theorem afterData_of_dataPhase {s : State} (h : s.phase = .dataPhase) (n : Nat) : afterData s n = s := by
  unfold afterData
  split
  · rfl
  · exact State.setPhase_self h

theorem Sends.tail {b : Nat → State → Byte} {v : Byte} {vs : List Byte} {i : Nat} {s u : State}
    (h : Sends (fun j => b (i + j)) (v :: vs) s) (htx : u.txbuf = s.txbuf) (hepoch : u.epoch = s.epoch) :
    Sends (fun j => b (i + 1 + j)) vs u := by
  intro j hj w ht he
  have hnext : b (i + (j + 1)) w = vs[j] := h (j + 1) (by simpa using hj) w (ht.trans htx) (he.trans hepoch)
  rwa [Nat.add_comm j 1, ← Nat.add_assoc] at hnext

/-- The data bytes of a write pass, from the byte `BYTEIDX` on; a poll came before, so that `POLLCNT` is 1 already. -/
theorem sendBytes_prompt (b : Nat → State → Byte) (bytes : List Byte) {s : State} {rest : List LineAnswer}
    (hbudget : s.budget ≠ 0) (hcnt : s.pollcnt = 1) (hlen : s.byteidx.toNat + bytes.length < 8192)
    (hsends : Sends (fun j => b (s.byteidx.toNat + j)) bytes s)
    (h : s.answers = script (bytes.flatMap promptSend) ++ rest) :
    sendBytes b bytes.length s = (.ok, ((afterData s bytes.length).setByteidx
      (s.byteidx + BitVec.ofNat 13 bytes.length)).prompted (bytes.flatMap promptSend) rest) := by
  induction bytes generalizing s with
  | nil =>
    have hidx : s.setByteidx (s.byteidx + 0) = s := by simp [State.setByteidx]
    have hstill : s.prompted [] rest = s := State.prompted_nil h hcnt
    exact congrArg (Prod.mk Result.ok) ((congrArg (·.prompted [] rest) hidx).trans hstill).symm
  | cons v vs ih =>
    have hv : b s.byteidx.toNat s = v := hsends 0 (by simp) s rfl rfl
    rw [List.flatMap_cons, script_append, List.append_assoc] at h
    rw [List.length_cons] at hlen ⊢
    have hidx : (s.byteidx + 1).toNat = s.byteidx.toNat + 1 := byteidx_succ (by omega)
    have hadd : s.byteidx + 1 + BitVec.ofNat 13 vs.length = s.byteidx + BitVec.ofNat 13 (vs.length + 1) := by
      rw [Nat.add_comm, BitVec.ofNat_add, BitVec.add_assoc]
      rfl
    rw [sendBytes, hv, sendByte_prompt v hbudget h, onOk_ok, ih]
    · rw [afterData_of_dataPhase rfl]
      simp [afterData, ← hadd]
    · exact hbudget
    · rfl
    · rw [State.setByteidx_byteidx, State.prompted_byteidx, State.setPhase_byteidx]
      omega
    · rw [State.setByteidx_byteidx, State.prompted_byteidx, State.setPhase_byteidx, hidx]
      exact hsends.tail rfl rfl
    · rfl

/-- The address phase and the data bytes of a write pass. -/
theorem sendAfterOpen_prompt (dev : DevAddr) (b : Nat → State → Byte) (bytes : List Byte) {s : State}
    {rest : List LineAnswer} (hbudget : s.budget ≠ 0) (hne : bytes ≠ []) (hlen : bytes.length < 8192)
    (hsends : Sends b bytes s)
    (h : s.answers = script (promptOpen dev 0) ++ (script (bytes.flatMap promptSend) ++ rest)) :
    onOk (openPass dev .write s) (sendBytes b bytes.length) =
      (.ok, ((s.addressed.setPhase .dataPhase).setByteidx (BitVec.ofNat 13 bytes.length)).prompted
        (promptOpen dev 0 ++ bytes.flatMap promptSend) rest) := by
  have hsends' : Sends (fun j => b (0 + j)) bytes s := by simpa using hsends
  rw [openPass_prompt dev .write hbudget h, onOk_ok]
  refine (sendBytes_prompt (s := s.addressed.prompted (promptOpen dev 0) _) b bytes hbudget rfl ?_ hsends' rfl).trans ?_
  · simpa [State.addressed] using hlen
  · simp [afterData, hne, State.addressed]

/-- A write pass from `Idle`: `PHASE` goes round the source's chain (spec/10_state.md R14). -/
theorem writePass_prompt (dev : DevAddr) (b : Nat → State → Byte) (bytes : List Byte) {s : State}
    {rest : List LineAnswer} (hbudget : s.budget ≠ 0) (hidle : s.phase = .idle) (hne : bytes ≠ [])
    (hlen : bytes.length < 8192) (hsends : Sends b bytes s) (h : s.answers = script (promptWrite dev bytes) ++ rest) :
    writePass dev bytes.length b s = ⟨.ok, .ok, 0, { s.setByteidx (BitVec.ofNat 13 bytes.length) with
      dbgLog := s.dbgLog ++ [1, 2, 3, 4, 0] }.prompted (promptWrite dev bytes) rest⟩ := by
  rw [promptWrite, script_append, script_append, List.append_assoc, List.append_assoc] at h
  simp only [writePass, sendAfterOpen_prompt dev b bytes hbudget hne hlen hsends h]
  rw [endPass_prompt 0 (rest := rest)]
  · simp [hidle, promptWrite, State.addressed, State.setPhase, State.setByteidx, State.prompted, Phase.dbg]
  · exact hbudget
  · rfl

/-! The commands. -/

/-- No event of a write pass is a `W_ACK`. -/
theorem ackAfter_promptWrite (a : Bool) (dev : DevAddr) (bytes : List Byte) :
    ackAfter a (promptWrite dev bytes) = a := by
  have hsend : ackAfter a (bytes.flatMap promptSend) = a := by
    induction bytes with
    | nil => rfl
    | cons v vs ih => exact ih
  rw [promptWrite, ackAfter_append, ackAfter_append]
  exact hsend

/-- The command `i` completes with the history of a write pass of `bytes` to `dev`, and leaves `rest` pending. -/
def CompletesAsWrite (i : Instr) (dev : DevAddr) (bytes : List Byte) (s : State) (rest : List LineAnswer) : Prop :=
  ∃ t, exec i s = .next t ∧ CommandFrame s t (promptWrite dev bytes) [1, 2, 3, 4, 0] ∧ t.answers = rest ∧
    t.result = ⟨true, okCount i, 0, .ok⟩ ∧ t.acken = s.acken ∧ t.rxbuf = s.rxbuf ∧
    t.byteidx = BitVec.ofNat 13 bytes.length ∧ t.pollcnt = 1 ∧ t.fail = .ok

theorem completesAsWrite {i : Instr} {dev : DevAddr} {bytes : List Byte} {b : Nat → State → Byte} {s : State}
    {rest : List LineAnswer} (hbody : bodyOf i = writeBody dev bytes.length b (okCount i)) (ha : admitted i s)
    (hbudget : s.budget ≠ 0) (hidle : s.phase = .idle) (hne : bytes ≠ []) (hlen : bytes.length < 8192)
    (hsends : Sends b bytes s) (h : s.answers = script (promptWrite dev bytes) ++ rest) :
    CompletesAsWrite i dev bytes s rest := by
  have hpass := writePass_prompt dev b bytes (s := s.setFail .ok) hbudget hidle hne hlen hsends h
  refine ⟨_, exec_of_admitted ha, ?_⟩
  rw [hbody, writeBody, hpass]
  refine ⟨?_, rfl, rfl, rfl, rfl, rfl, rfl, rfl⟩
  simp [CommandFrame, h, hidle, ackAfter_promptWrite, finish, State.setResult, State.prompted, State.setByteidx,
    State.setFail]

/-- `RESULT` of a write of two bytes and of one, as the host reads it (spec/41_write_commands.md, worked examples). -/
theorem okWord_of_write :
    ResultReg.word ⟨true, 2, 0, .ok⟩ = 0x80020000 ∧ ResultReg.word ⟨true, 1, 0, .ok⟩ = 0x80010000 := by
  decide

/-- Settles O18: both are write passes of bytes that the command carries; the word is that of the latched result. -/
theorem immediateWritesCompleteUnderThePromptOracle : Obligations.ImmediateWritesCompleteUnderThePromptOracle := by
  intro dev reg val s rest hen hbudget hidle
  refine ⟨fun h => ?_, fun h => ?_⟩
  · obtain ⟨t, hexec, hframe, hrest, hres, hregs⟩ := completesAsWrite (i := .wreg dev reg val) (bytes := [reg, val])
      rfl ⟨hen, rfl⟩ hbudget hidle (by simp) (by simp) (wregByte_sends reg val s) h
    exact ⟨t, hexec, hframe, hrest, (congrArg ResultReg.word hres).trans okWord_of_write.1, hregs⟩
  · obtain ⟨t, hexec, hframe, hrest, hres, hregs⟩ := completesAsWrite (i := .wraw dev val) (bytes := [val])
      rfl ⟨hen, rfl⟩ hbudget hidle (by simp) (by simp) (oneByte_sends val s) h
    exact ⟨t, hexec, hframe, hrest, (congrArg ResultReg.word hres).trans okWord_of_write.2, hregs⟩

/-- Settles O19: a write pass of what `TXBUF` holds below `n`; `BYTEIDX` ends at the number of bytes. -/
theorem wbufCompletesUnderThePromptOracle : Obligations.WbufCompletesUnderThePromptOracle := by
  intro dev n s rest hen hbudget hidle hn h
  have ha : admitted (.wbuf dev n) s := ⟨hen, by simpa [zeroLength] using hn⟩
  have hcount : BitVec.ofNat 13 ((List.range n.toNat).map s.txByte).length = n := by simp
  have hdone := completesAsWrite (bodyOf_wbuf dev n s) ha hbudget hidle (range_map_ne_nil hn _)
    (range_map_length_lt n _) (txBufByte_sends n.toNat s) h
  rwa [CompletesAsWrite, hcount] at hdone

end Sys2Proof.Machine

/-! The one-byte forms of the buffer commands and the commands for one byte make the same accesses
(spec/41_write_commands.md R112, spec/42_read_commands.md R121, R123). -/

namespace Sys2Proof.Machine

open Sys2Proof Sys2Proof.Trace

/-! One received byte, delivered in `DATA` or in `RXBUF[0]`. -/

/-- `t` and `u` are equal but for the delivery: on `Ok` the byte in `DATA` of `t` is in `RXBUF[0]` of `u`. -/
def DeliveredAlike (t u : State) : Prop :=
  u = { t with rxbuf := u.rxbuf, result := { t.result with data := 0 } } ∧
    (t.result.code = .ok → u.rxByte 0 = t.result.data)

theorem latched_without_data (r st : Result) (data : Byte) (count : Len) :
    { latched r st data count with data := 0 } = latched r st 0 count := by
  unfold latched
  split <;> rfl

theorem latched_data_of_ok {r st : Result} (h : firstFailure r st = .ok) (data : Byte) (count : Len) :
    (latched r st data count).data = data := by
  simp [latched, h]

/-- The latch delivers alike when `RXBUF[0]` holds the byte, should the command end `Ok`. -/
theorem deliveredAlike_finish {r st : Result} {data : Byte} {s u : State} (hu : u = { s with rxbuf := u.rxbuf })
    (hbyte : firstFailure r st = .ok → u.rxByte 0 = data) (count : Len) :
    DeliveredAlike (finish r st data count s) (finish r st 0 count u) := by
  refine ⟨?_, fun hok => ?_⟩
  · rw [hu]
    simp only [finish, State.setResult, latched_without_data]
  · have hff : firstFailure r st = .ok := (latched_code r st data count).symm.trans hok
    exact (hbyte hff).trans (latched_data_of_ok hff data count).symm

/-- A failure delivers nothing. -/
theorem deliveredAlike_finish_of_failed {r st : Result} (h : firstFailure r st ≠ .ok) (data : Byte) (count : Len)
    (s : State) : DeliveredAlike (finish r st data count s) (finish r st 0 count s) :=
  deliveredAlike_finish rfl (fun hok => absurd hok h) count

/-- No line operation reads or writes `RXBUF`. -/
theorem unseenByLine_putRxbuf (i : Nat) (v : Byte) : UnseenByLine (putRxbuf i v) where
  budget _ := rfl
  pollcnt _ := rfl
  nextAnswer _ := rfl
  dropAnswer _ := rfl
  record _ _ := rfl
  setPollcnt _ _ := rfl
  setPhase _ _ := rfl
  setAcken _ _ := rfl

theorem endPass_putRxbuf (r : Result) (byte : Byte) (i : Nat) (v : Byte) (s : State) :
    endPass r byte (putRxbuf i v s) = { endPass r byte s with s := putRxbuf i v (endPass r byte s).s } := by
  have hnote (r : Result) (s : State) : (putRxbuf i v s).noteFailure r = putRxbuf i v (s.noteFailure r) := rfl
  simp only [endPass, hnote, ignores_stop (unseenByLine_putRxbuf i v) _]

theorem receiveByte_error_ne_ok {ack : Bool} {s u : State} {r : Result} (h : receiveByte ack s = (.error r, u)) :
    r ≠ .ok := by
  obtain ⟨_, _, hnot, _⟩ := receiveByte_spec ack s
  rw [h] at hnot
  exact hnot.1

/-- The loop of a read pass of one byte: into `RXBUF` it is the loop into `DATA`, and the byte stored if one came. -/
theorem receiveBytes_one_rxbuf {s : State} (hidx : s.byteidx = 0) (q : Result × Byte × State)
    (hq : receiveBytes putLocal 1 1 0 s = q) :
    (q.1 ≠ .ok ∧ receiveBytes putRxbuf 1 1 0 s = q) ∨
    (q.1 = .ok ∧ receiveBytes putRxbuf 1 1 0 s = (q.1, q.2.1, putRxbuf 0 q.2.1 q.2.2)) := by
  obtain ⟨_, _, _, hstill⟩ := receiveByte_spec (ackFor 1 0) s
  simp only [receiveBytes, show s.byteidx.toNat = 0 by rw [hidx]; rfl] at hq ⊢
  cases hrecv : receiveByte (ackFor 1 0) s with
  | mk x u =>
    rw [hrecv] at hq hstill
    cases x with
    | error r =>
      subst hq
      exact .inl ⟨receiveByte_error_ne_ok hrecv, rfl⟩
    | ok v =>
      have hu : u.byteidx = 0 := hstill.byteidx.trans hidx
      have hput : putRxbuf u.byteidx.toNat v u = putRxbuf 0 v u := by rw [hu]; rfl
      subst hq
      exact .inr ⟨rfl, congrArg (fun w => (Result.ok, v, w.setByteidx (u.byteidx + 1))) hput⟩

/-- A read pass of one byte into `RXBUF` is the pass into `DATA`, and the byte stored if one came. -/
theorem readPass_one_rxbuf (dev : DevAddr) (s : State) (p : PassEnd) (hp : readPass dev 1 putLocal s = p) :
    (p.r ≠ .ok ∧ readPass dev 1 putRxbuf s = p) ∨
    (p.r = .ok ∧ readPass dev 1 putRxbuf s = { p with s := putRxbuf 0 p.byte p.s }) := by
  have hidx : (openPass dev .read s).2.byteidx = 0 := rfl
  subst hp
  unfold readPass
  generalize openPass dev .read s = o at *
  by_cases hopen : o.1 = .ok
  · simp only [if_pos hopen]
    have hloop := receiveBytes_one_rxbuf hidx _ rfl
    generalize receiveBytes putLocal 1 1 0 o.2 = q at *
    obtain ⟨hr, hq⟩ | ⟨hr, hq⟩ := hloop
    · exact .inl ⟨hr, by rw [hq]⟩
    · exact .inr ⟨hr, by rw [hq]; exact endPass_putRxbuf _ _ 0 _ _⟩
  · simp only [if_neg hopen]
    exact .inl ⟨hopen, trivial⟩

theorem readBody_one_deliveredAlike (dev : DevAddr) (s : State) :
    DeliveredAlike (readBody dev 1 .data s) (readBody dev 1 .rxbuf s) := by
  have hone : (1 : Len).toNat = 1 := rfl
  simp only [readBody, hone, Delivery.put, Delivery.dataOf]
  obtain ⟨hr, hq⟩ | ⟨_, hq⟩ := readPass_one_rxbuf dev s _ rfl
  · rw [hq]
    exact deliveredAlike_finish_of_failed (fun h => hr (firstFailure_eq_ok.1 h).1) _ 1 _
  · rw [hq]
    exact deliveredAlike_finish rfl (fun _ => (putRxbuf_rxByte 0 0 _ _).trans (if_pos rfl)) 1

/-- The write pass of `reg` is the same, and what follows it is a read of one byte or nothing (R120, R121). -/
theorem registerReadBody_one_deliveredAlike (dev : DevAddr) (reg : Byte) (s : State) :
    DeliveredAlike (registerReadBody dev reg 1 .data s) (registerReadBody dev reg 1 .rxbuf s) := by
  simp only [registerReadBody]
  split
  · exact readBody_one_deliveredAlike dev _
  · next hbad => exact deliveredAlike_finish_of_failed (fun h => hbad (firstFailure_eq_ok.1 h)) 0 0 _

/-- Commands of which the bodies deliver alike do so themselves: both are rejected, or neither. -/
theorem deliveredAlike_exec {i j : Instr} {s t u : State} (hi : zeroLength i = false) (hj : zeroLength j = false)
    (hbody : ∀ s, DeliveredAlike (bodyOf i s) (bodyOf j s)) (ht : exec i s = .next t) (hu : exec j s = .next u) :
    DeliveredAlike t u := by
  by_cases hen : s.ctrl.en = true
  · rw [exec_of_admitted ⟨hen, hi⟩] at ht
    rw [exec_of_admitted ⟨hen, hj⟩] at hu
    cases ht
    cases hu
    exact hbody _
  · have hdis : s.ctrl.en = false := by simpa using hen
    rw [exec_of_not_admitted (not_admitted_of_disabled hdis i)] at ht
    rw [exec_of_not_admitted (not_admitted_of_disabled hdis j)] at hu
    cases ht
    cases hu
    exact deliveredAlike_finish_of_failed (by decide) 0 0 s

/-! One sent byte, from the command or from `TXBUF[0]`. -/

/-- A write pass of one byte depends only on the byte that is sent. -/
theorem writePass_one {b : Nat → State → Byte} {v : Byte} {s : State} (hsends : Sends b [v] s) (dev : DevAddr) :
    writePass dev 1 b s = writePass dev 1 (oneByte v) s := by
  obtain ⟨_, hframe, _, _⟩ := openPass_spec dev .write s
  have hbyte : b (openPass dev .write s).2.byteidx.toNat (openPass dev .write s).2 = v :=
    hsends 0 Nat.one_pos _ hframe.txbuf hframe.epoch
  have hdata : sendBytes b 1 (openPass dev .write s).2 = sendBytes (oneByte v) 1 (openPass dev .write s).2 := by
    rw [sendBytes, hbyte]
    rfl
  unfold writePass onOk
  rw [hdata]

/-- Settles O41: the reads deliver alike; the writes send one byte, which is what `TXBUF[0]` holds. -/
theorem oneByteFormsMakeTheSameAccesses : Obligations.OneByteFormsMakeTheSameAccesses := by
  intro dev reg s t u
  refine ⟨deliveredAlike_exec rfl rfl (registerReadBody_one_deliveredAlike dev reg),
    deliveredAlike_exec rfl rfl (readBody_one_deliveredAlike dev), ?_⟩
  have hsends : Sends txBufByte [s.txByte 0] (s.setFail .ok) := txBufByte_sends 1 s
  have hbody : bodyOf (.wbuf dev 1) (s.setFail .ok) = bodyOf (.wraw dev (s.txByte 0)) (s.setFail .ok) :=
    congrArg (fun p : PassEnd => finish p.r p.stop 0 1 p.s) (writePass_one hsends dev)
  simp only [exec_eq_command, command, hbody]
  rfl

end Sys2Proof.Machine

/-! The read commands, whatever the environment answers: one read pass, or a write pass and then it
(spec/42_read_commands.md). -/

namespace Sys2Proof.Machine

open Sys2Proof Sys2Proof.Trace

/-- The command `i`, of which `dest` is the delivery, makes the accesses `evs`, of which `got` are the bytes received,
`r` the first failure before the last stop and `st` that stop's result, and ends in `t`. -/
structure RunsAsRead (i : Instr) (dest : Delivery) (s t : State) (evs : Events) (r st : Result) (got : List Byte)
    (port : List (BitVec 3)) : Prop where
  runs   : exec i s = .next t
  frame  : CommandFrame s t evs port
  ok     : r = .ok ∧ st = .ok → got.length = (okCount i).toNat ∧
    t.result = ⟨true, okCount i, dest.dataOf (got.getLastD 0), .ok⟩ ∧ t.acken = false
  failed : ¬(r = .ok ∧ st = .ok) → t.result = ⟨true, 0, 0, if r = .ok then st else r⟩
  rxbuf  : t.rxbuf = dest.stored s.rxbuf 0 got

theorem CommandFrame.epoch {s t : State} {evs : Events} {port : List (BitVec 3)} (h : CommandFrame s t evs port) :
    t.epoch = s.epoch := by
  rw [show t = _ from h]

/-- A command whose body is one read pass (spec/40_primitives.md R99). -/
theorem runsAsRead_of_readBody {i : Instr} {dev : DevAddr} {dest : Delivery} {s : State}
    (hbody : bodyOf i = readBody dev (okCount i) dest) (ha : admitted i s) (hne : okCount i ≠ 0)
    (hidle : s.phase = .idle) :
    ∃ t evs r st got port, ReadPass s.budget.toNat dev (okCount i).toNat evs r st got port ∧
      RunsAsRead i dest s t evs r st got port ∧ t.byteidx.toNat = got.length := by
  obtain ⟨t, evs, r, st, got, port, u, ht, hlatch, hframe, hpass, hres, hphase, hport, hack, hrx, hidx, _⟩ :=
    readBody_spec dev (okCount i) dest (s.setFail .ok) hne rfl
  refine ⟨t, evs, r, st, got, port, hpass, ?_, hidx⟩
  exact {
    runs := by rw [exec_of_admitted ha, hbody, ht]
    frame := hlatch ▸ commandFrame_of t.result hframe hphase (hport hidle)
    ok := fun hok => by
      obtain ⟨hlen, hopened⟩ := (readPass_got hpass).2 hok.1
      exact ⟨hlen, hres.trans (if_pos hok), hack.trans (acken_after_last hopened hlen)⟩
    failed := fun hbad => hres.trans (if_neg hbad)
    rxbuf := hrx }

/-- A command whose body is a register read (spec/42_read_commands.md R120, R121). -/
theorem runsAsRead_of_registerReadBody {i : Instr} {dev : DevAddr} {reg : Byte} {dest : Delivery} {s : State}
    (hbody : bodyOf i = registerReadBody dev reg (okCount i) dest) (ha : admitted i s) (hne : okCount i ≠ 0)
    (hidle : s.phase = .idle) :
    ∃ t evs r st got idx port, RegisterRead s.budget.toNat dev reg (okCount i).toNat evs r st got idx port ∧
      RunsAsRead i dest s t evs r st got port ∧ t.byteidx.toNat = idx := by
  obtain ⟨t, evs, r, st, got, idx, port, u, ht, hlatch, hframe, hread, hres, hphase, hport, hack, hrx, hidx, _⟩ :=
    registerReadBody_spec dev reg (okCount i) dest (s.setFail .ok) hne hidle rfl
  refine ⟨t, evs, r, st, got, idx, port, hread, ?_, hidx⟩
  exact {
    runs := by rw [exec_of_admitted ha, hbody, ht]
    frame := hlatch ▸ commandFrame_of t.result hframe hphase hport
    ok := fun hok => ⟨(registerRead_got hread).2 hok, hres.trans (if_pos hok), hack hok⟩
    failed := fun hbad => hres.trans (if_neg hbad)
    rxbuf := hrx }

section Delivered

variable {i : Instr} {s t : State} {evs : Events} {r st : Result} {got : List Byte} {port : List (BitVec 3)}

/-- On `Ok` a single-byte read received one byte, and it is in `DATA`. -/
theorem RunsAsRead.ok_single (h : RunsAsRead i .data s t evs r st got port) (hone : okCount i = 1)
    (hok : r = .ok ∧ st = .ok) : ∃ v, got = [v] ∧ t.result = ⟨true, 1, v, .ok⟩ ∧ t.acken = false := by
  obtain ⟨hlen, hres, hack⟩ := h.ok hok
  rw [hone] at hlen hres
  obtain ⟨v, rfl⟩ := List.length_eq_one_iff.1 hlen
  exact ⟨v, rfl, hres, hack⟩

/-- A buffer read stored the bytes it received from index 0 on, whatever its result. -/
theorem RunsAsRead.rxByte (h : RunsAsRead i .rxbuf s t evs r st got port) (j : Nat) :
    t.rxByte j = if h : j < got.length then got[j] else s.rxByte j :=
  rxByte_of_stored s t got h.frame.epoch h.rxbuf j

end Delivered

/-- Settles O14: the body of `RREG` is a register read of one byte into `DATA`. -/
theorem rregIsTwoPasses : Obligations.RregIsTwoPasses := by
  intro dev reg s
  refine ⟨rfl, fun hen => rejectedCommandsChangeOnlyResult _ s (not_admitted_of_disabled hen _), fun hen hidle => ?_⟩
  obtain ⟨t, evs, r, st, got, idx, port, hread, h, hidx⟩ :=
    runsAsRead_of_registerReadBody (i := .rreg dev reg) rfl ⟨hen, rfl⟩ (show (1 : Len) ≠ 0 by decide) hidle
  exact ⟨t, evs, r, st, got, idx, port, h.runs, hread, h.frame, h.ok_single rfl, h.failed, h.rxbuf, hidx⟩

/-- Settles O15: the body of `RRAW` is a read pass of one byte into `DATA`. -/
theorem rrawIsOneReadPass : Obligations.RrawIsOneReadPass := by
  intro dev s
  refine ⟨rfl, fun hen => rejectedCommandsChangeOnlyResult _ s (not_admitted_of_disabled hen _), fun hen hidle => ?_⟩
  obtain ⟨t, evs, r, st, got, port, hpass, h, hidx⟩ :=
    runsAsRead_of_readBody (i := .rraw dev) rfl ⟨hen, rfl⟩ (show (1 : Len) ≠ 0 by decide) hidle
  exact ⟨t, evs, r, st, got, port, h.runs, hpass, h.frame, h.ok_single rfl, h.failed, h.rxbuf, hidx⟩

/-- Neither a disabled block nor the length zero is admitted (spec/40_primitives.md R100). -/
theorem not_admitted_of_disabled_or_zeroLength {i : Instr} {s : State}
    (h : s.ctrl.en = false ∨ zeroLength i = true) : ¬admitted i s :=
  h.elim (fun hdis => not_admitted_of_disabled hdis i) (fun hzero => not_admitted_of_zeroLength hzero s)

/-- Settles O16: the body of `RBUF` is a register read of `n` bytes into `RXBUF`. -/
theorem rbufFillsTheBufferInOrder : Obligations.RbufFillsTheBufferInOrder := by
  intro dev reg n s
  refine ⟨rfl, fun hrej => rejectedCommandsChangeOnlyResult _ s ?_, fun hen hn hidle => ?_⟩
  · exact not_admitted_of_disabled_or_zeroLength (hrej.imp_right fun hzero => beq_iff_eq.2 hzero)
  · obtain ⟨t, evs, r, st, got, idx, port, hread, h, hidx⟩ :=
      runsAsRead_of_registerReadBody (i := .rbuf dev reg n) rfl ⟨hen, beq_false_of_ne hn⟩ hn hidle
    exact ⟨t, evs, r, st, got, idx, port, h.runs, hread, h.frame, h.ok, h.failed, h.rxByte, hidx⟩

/-- Settles O17: the body of `RRAWB` is a read pass of `n` bytes into `RXBUF`. -/
theorem rrawbFillsTheBufferInOrder : Obligations.RrawbFillsTheBufferInOrder := by
  intro dev n s
  refine ⟨rfl, fun hrej => rejectedCommandsChangeOnlyResult _ s ?_, fun hen hn hidle => ?_⟩
  · exact not_admitted_of_disabled_or_zeroLength (hrej.imp_right fun hzero => beq_iff_eq.2 hzero)
  · obtain ⟨t, evs, r, st, got, port, hpass, h, hidx⟩ :=
      runsAsRead_of_readBody (i := .rrawb dev n) rfl ⟨hen, beq_false_of_ne hn⟩ hn hidle
    exact ⟨t, evs, r, st, got, port, h.runs, hpass, h.frame, h.ok, h.failed, h.rxByte, hidx⟩

end Sys2Proof.Machine

/-! The read commands under the prompt oracle: every poll is answered at its first sample (spec/42_read_commands.md,
worked examples). -/

namespace Sys2Proof.Machine

open Sys2Proof Sys2Proof.Trace

/-! The bytes of a read pass. -/

theorem receiveByte_prompt (ack : Bool) (v : Byte) {s : State} {rest : List LineAnswer} (hbudget : s.budget ≠ 0)
    (h : s.answers = script [.rSr1 ⟨false, false, false, true, false⟩, .rDr v] ++ rest) :
    receiveByte ack s = (.ok v, ((s.setPhase .dataPhase).setAcken ack).prompted
      [.wAck ack, .rSr1 ⟨false, false, false, true, false⟩, .rDr v] rest) :=
  (receiveByteTakesTheAnsweredByte ack s [] rest _ _ nofun).1 h (toNat_pos_of_ne_zero hbudget) rfl

/-- After the bytes `got` were received, the last of them not acknowledged (spec/40_primitives.md R99). -/
def State.received (s : State) (dest : Delivery) (got : List Byte) : State :=
  { (afterData s got.length).setByteidx (s.byteidx + BitVec.ofNat 13 got.length) with
    acken := if got = [] then s.acken else false
    rxbuf := dest.stored s.rxbuf s.byteidx.toNat got }

theorem State.received_nil (s : State) (dest : Delivery) : s.received dest [] = s := by
  cases dest <;> simp [State.received, afterData, Delivery.stored, Memory.storeFrom, State.setByteidx]

/-- One byte, then the others. -/
theorem State.received_cons {s : State} (dest : Delivery) (v : Byte) (vs : List Byte)
    (hidx : (s.byteidx + 1).toNat = s.byteidx.toNat + 1) :
    ((dest.put s.byteidx.toNat v ((s.setPhase .dataPhase).setAcken (decide (vs ≠ [])))).setByteidx
      (s.byteidx + 1)).received dest vs = s.received dest (v :: vs) := by
  have hadd : s.byteidx + 1 + BitVec.ofNat 13 vs.length = s.byteidx + BitVec.ofNat 13 (vs.length + 1) := by
    rw [Nat.add_comm, BitVec.ofNat_add, BitVec.add_assoc]
    rfl
  have hack : (if v :: vs = [] then s.acken else false) = if vs = [] then decide (vs ≠ []) else false := by
    cases vs <;> rfl
  cases dest
  all_goals
    rw [State.received, afterData_of_dataPhase rfl]
    simp only [State.received, State.setByteidx_byteidx, List.length_cons, hadd, hidx, hack]
    rfl

@[simp] theorem State.prompted_put (s : State) (evs : Events) (rest : List LineAnswer) (dest : Delivery) (i : Nat)
    (v : Byte) : dest.put i v (s.prompted evs rest) = (dest.put i v s).prompted evs rest := by
  cases dest <;> rfl

@[simp] theorem State.prompted_received (s : State) (evs : Events) (rest : List LineAnswer) (dest : Delivery)
    (got : List Byte) : (s.prompted evs rest).received dest got = (s.received dest got).prompted evs rest := by
  cases got <;> rfl

@[simp] theorem State.prompted_budget (s : State) (evs : Events) (rest : List LineAnswer) :
    (s.prompted evs rest).budget = s.budget := rfl

@[simp] theorem State.received_budget (s : State) (dest : Delivery) (got : List Byte) :
    (s.received dest got).budget = s.budget := by
  simp only [State.received, afterData]
  split <;> rfl

/-- The bytes of a read pass, from the byte `BYTEIDX` on; a poll came before, so that `POLLCNT` is 1 already. -/
theorem receiveBytes_prompt (dest : Delivery) {n : Nat} (got : List Byte) (last : Byte) {s : State}
    {rest : List LineAnswer} (hbudget : s.budget ≠ 0) (hcnt : s.pollcnt = 1)
    (hn : s.byteidx.toNat + got.length = n) (hlen : n < 8192) (h : s.answers = script (promptReceive got) ++ rest) :
    receiveBytes dest.put n got.length last s =
      (.ok, got.getLastD last, (s.received dest got).prompted (promptReceive got) rest) := by
  induction got generalizing s last with
  | nil =>
    have hstill : (s.received dest []).prompted [] rest = s := by
      rw [State.received_nil, State.prompted_nil (rest := rest) h hcnt]
    exact congrArg (fun u => (Result.ok, last, u)) hstill.symm
  | cons v vs ih =>
    rw [List.length_cons] at hn ⊢
    have hidx : (s.byteidx + 1).toNat = s.byteidx.toNat + 1 := byteidx_succ (by omega)
    have hack : ackFor n s.byteidx.toNat = decide (vs ≠ []) := by
      rw [ackFor, decide_eq_decide, ← List.length_pos_iff]
      omega
    rw [promptReceive, script_append, List.append_assoc] at h
    rw [receiveBytes, hack, receiveByte_prompt _ v hbudget h]
    simp only [State.prompted_byteidx, State.setAcken_byteidx, State.setPhase_byteidx, State.prompted_put,
      State.prompted_setByteidx]
    rw [ih, State.prompted_received, State.received_cons dest v vs hidx, State.prompted_prompted]
    · rw [promptReceive, List.getLastD_cons]
    · cases dest <;> exact hbudget
    · rfl
    · exact (congrArg (· + vs.length) hidx).trans (by omega)
    · rfl

/-! The read pass. -/

/-- After a read pass that received the bytes `got` (spec/40_primitives.md R99); `port` is what `dbg_phase` showed. -/
def State.afterRead (s : State) (dest : Delivery) (got : List Byte) (port : List (BitVec 3)) : State :=
  { s with
    byteidx := BitVec.ofNat 13 got.length
    acken := false
    rxbuf := dest.stored s.rxbuf 0 got
    dbgLog := s.dbgLog ++ port }

/-- A read pass from `Idle`: `PHASE` goes round the source's chain (spec/10_state.md R14). -/
theorem readPass_prompt (dev : DevAddr) (dest : Delivery) (got : List Byte) {s : State} {rest : List LineAnswer}
    (hbudget : s.budget ≠ 0) (hidle : s.phase = .idle) (hne : got ≠ []) (hlen : got.length < 8192)
    (h : s.answers = script (promptRead dev got) ++ rest) :
    readPass dev got.length dest.put s =
      ⟨.ok, .ok, got.getLastD 0, (s.afterRead dest got [1, 2, 3, 4, 0]).prompted (promptRead dev got) rest⟩ := by
  rw [promptRead, script_append, script_append, List.append_assoc, List.append_assoc] at h
  have hrecv := receiveBytes_prompt dest got 0
    (s := s.addressed.prompted (promptOpen dev 1) (script (promptReceive got) ++ (script promptStop ++ rest)))
    (n := got.length) hbudget rfl (Nat.zero_add _) hlen rfl
  rw [State.prompted_received, State.prompted_prompted] at hrecv
  simp only [readPass, openPass_prompt dev .read hbudget h, if_true]
  rw [show Direction.read.bit = 1 from rfl, hrecv, endPass_prompt (got.getLastD 0) (rest := rest)]
  · simp [hidle, hne, promptRead, State.addressed, State.received, afterData, State.afterRead, State.setPhase,
      State.setByteidx, State.prompted, Phase.dbg]
  · rwa [State.prompted_budget, State.received_budget]
  · rfl

/-! The commands. -/

theorem ne_nil_of_length_eq {n : Len} {got : List Byte} (hne : n ≠ 0) (hgot : got.length = n.toNat) : got ≠ [] := by
  rintro rfl
  exact hne (BitVec.eq_of_toNat_eq hgot.symm)

theorem readBody_prompt (dev : DevAddr) {n : Len} (dest : Delivery) {got : List Byte} {s : State}
    {rest : List LineAnswer} (hbudget : s.budget ≠ 0) (hidle : s.phase = .idle) (hne : n ≠ 0)
    (hgot : got.length = n.toNat) (h : s.answers = script (promptRead dev got) ++ rest) :
    readBody dev n dest s = ((s.afterRead dest got [1, 2, 3, 4, 0]).prompted (promptRead dev got) rest).setResult
      ⟨true, n, dest.dataOf (got.getLastD 0), .ok⟩ := by
  have hlen : got.length < 8192 := hgot ▸ n.isLt
  rw [readBody, ← hgot, readPass_prompt dev dest got hbudget hidle (ne_nil_of_length_eq hne hgot) hlen h]
  rfl

/-- The write pass of `reg` leaves the answers of the read pass pending (R120, R121). -/
theorem registerReadBody_prompt (dev : DevAddr) (reg : Byte) {n : Len} (dest : Delivery) {got : List Byte} {s : State}
    {rest : List LineAnswer} (hbudget : s.budget ≠ 0) (hidle : s.phase = .idle) (hne : n ≠ 0)
    (hgot : got.length = n.toNat)
    (h : s.answers = script (promptWrite dev [reg] ++ promptRead dev got) ++ rest) :
    registerReadBody dev reg n dest s =
      ((s.afterRead dest got [1, 2, 3, 4, 0, 1, 2, 3, 4, 0]).prompted (promptWrite dev [reg] ++ promptRead dev got)
        rest).setResult ⟨true, n, dest.dataOf (got.getLastD 0), .ok⟩ := by
  rw [script_append, List.append_assoc] at h
  have hwrite := writePass_prompt dev (oneByte reg) [reg] hbudget hidle (by simp) (by simp) (oneByte_sends reg s) h
  obtain ⟨_, hbody⟩ | ⟨hbad, _⟩ := registerReadBody_cases dev reg n dest s _ hwrite
  · rw [hbody]
    refine Eq.trans (readBody_prompt dev dest (rest := rest) hbudget hidle hne hgot rfl) ?_
    simp [State.afterRead, State.prompted, State.setByteidx, State.setResult]
  · exact absurd rfl hbad

/-- The latest `W_ACK` of a read pass does not acknowledge. -/
theorem ackAfter_promptReceive {got : List Byte} (hne : got ≠ []) (a : Bool) :
    ackAfter a (promptReceive got) = false := by
  induction got generalizing a with
  | nil => exact absurd rfl hne
  | cons v vs ih =>
    cases vs with
    | nil => rfl
    | cons w ws => exact ih (List.cons_ne_nil w ws) true

theorem ackAfter_promptRead {got : List Byte} (hne : got ≠ []) (a : Bool) (dev : DevAddr) :
    ackAfter a (promptRead dev got) = false := by
  rw [promptRead, ackAfter_append, ackAfter_append, ackAfter_promptReceive hne]
  rfl

/-- The command `i` completes with the history `evs`, the bytes `got` received, and leaves `rest` pending. -/
def CompletesAsRead (i : Instr) (dest : Delivery) (got : List Byte) (evs : Events) (port : List (BitVec 3)) (s : State)
    (rest : List LineAnswer) : Prop :=
  ∃ t, exec i s = .next t ∧ CommandFrame s t evs port ∧ t.answers = rest ∧
    t.result = ⟨true, okCount i, dest.dataOf (got.getLastD 0), .ok⟩ ∧ t.acken = false ∧
    t.rxbuf = dest.stored s.rxbuf 0 got ∧ t.byteidx = BitVec.ofNat 13 got.length ∧ t.pollcnt = 1 ∧ t.fail = .ok

theorem completesAsRead {i : Instr} {dest : Delivery} {got : List Byte} {evs : Events} {port : List (BitVec 3)}
    {s : State} {rest : List LineAnswer} (ha : admitted i s) (hidle : s.phase = .idle)
    (hbody : bodyOf i (s.setFail .ok) = (((s.setFail .ok).afterRead dest got port).prompted evs rest).setResult
      ⟨true, okCount i, dest.dataOf (got.getLastD 0), .ok⟩)
    (hack : ackAfter s.acken evs = false) (h : s.answers = script evs ++ rest) :
    CompletesAsRead i dest got evs port s rest := by
  refine ⟨_, exec_of_admitted ha, ?_⟩
  rw [hbody]
  refine ⟨?_, rfl, rfl, rfl, rfl, rfl, rfl, rfl⟩
  simp [CommandFrame, h, hidle, hack, State.afterRead, State.setResult, State.prompted, State.setFail]

/-- A command whose body is one read pass. -/
theorem completesAsRead_of_readBody {i : Instr} {dev : DevAddr} {dest : Delivery} {got : List Byte} {s : State}
    {rest : List LineAnswer} (hbody : bodyOf i = readBody dev (okCount i) dest) (ha : admitted i s)
    (hbudget : s.budget ≠ 0) (hidle : s.phase = .idle) (hne : okCount i ≠ 0) (hgot : got.length = (okCount i).toNat)
    (h : s.answers = script (promptRead dev got) ++ rest) :
    CompletesAsRead i dest got (promptRead dev got) [1, 2, 3, 4, 0] s rest := by
  refine completesAsRead ha hidle ?_ (ackAfter_promptRead (ne_nil_of_length_eq hne hgot) _ dev) h
  rw [hbody]
  exact readBody_prompt dev dest (s := s.setFail .ok) hbudget hidle hne hgot h

/-- A command whose body is a register read. -/
theorem completesAsRead_of_registerReadBody {i : Instr} {dev : DevAddr} {reg : Byte} {dest : Delivery}
    {got : List Byte} {s : State} {rest : List LineAnswer}
    (hbody : bodyOf i = registerReadBody dev reg (okCount i) dest) (ha : admitted i s) (hbudget : s.budget ≠ 0)
    (hidle : s.phase = .idle) (hne : okCount i ≠ 0) (hgot : got.length = (okCount i).toNat)
    (h : s.answers = script (promptWrite dev [reg] ++ promptRead dev got) ++ rest) :
    CompletesAsRead i dest got (promptWrite dev [reg] ++ promptRead dev got) [1, 2, 3, 4, 0, 1, 2, 3, 4, 0] s rest := by
  have hack : ackAfter s.acken (promptWrite dev [reg] ++ promptRead dev got) = false := by
    rw [ackAfter_append, ackAfter_promptRead (ne_nil_of_length_eq hne hgot)]
  refine completesAsRead ha hidle ?_ hack h
  rw [hbody]
  exact registerReadBody_prompt dev reg dest (s := s.setFail .ok) hbudget hidle hne hgot h

/-- A buffer read that completes left the bytes in `RXBUF`, and `BYTEIDX` at their number. -/
theorem CompletesAsRead.of_rxbuf {i : Instr} {got : List Byte} {evs : Events} {port : List (BitVec 3)} {s : State}
    {rest : List LineAnswer} (h : CompletesAsRead i .rxbuf got evs port s rest)
    (hgot : got.length = (okCount i).toNat) :
    ∃ t, exec i s = .next t ∧ CommandFrame s t evs port ∧ t.answers = rest ∧ t.result = ⟨true, okCount i, 0, .ok⟩ ∧
      t.acken = false ∧ (∀ j, t.rxByte j = if h : j < got.length then got[j] else s.rxByte j) ∧
      t.byteidx = okCount i ∧ t.pollcnt = 1 ∧ t.fail = .ok := by
  obtain ⟨t, hexec, hframe, hrest, hres, hack, hrx, hidx, hcnt, hfail⟩ := h
  have hcount : BitVec.ofNat 13 got.length = okCount i := by rw [hgot, BitVec.ofNat_toNat, BitVec.setWidth_eq]
  exact ⟨t, hexec, hframe, hrest, hres, hack, rxByte_of_stored s t got hframe.epoch hrx, hidx.trans hcount, hcnt, hfail⟩

/-- Settles O20: both are reads of the one byte that is pending, delivered in `DATA`. -/
theorem singleReadsCompleteUnderThePromptOracle : Obligations.SingleReadsCompleteUnderThePromptOracle := by
  intro dev reg v s rest hen hbudget hidle
  have hone : (1 : Len) ≠ 0 := by decide
  exact ⟨completesAsRead_of_registerReadBody (i := .rreg dev reg) (dest := .data) (got := [v]) rfl ⟨hen, rfl⟩ hbudget
      hidle hone rfl,
    completesAsRead_of_readBody (i := .rraw dev) (dest := .data) (got := [v]) rfl ⟨hen, rfl⟩ hbudget hidle hone rfl⟩

/-- Settles O21: both are reads of the `n` bytes that are pending, delivered in `RXBUF`. -/
theorem bufferReadsCompleteUnderThePromptOracle : Obligations.BufferReadsCompleteUnderThePromptOracle := by
  intro dev reg n got s rest hen hbudget hidle hn hgot
  refine ⟨fun h => ?_, fun h => ?_⟩
  · exact (completesAsRead_of_registerReadBody (i := .rbuf dev reg n) rfl ⟨hen, beq_false_of_ne hn⟩ hbudget hidle hn
      hgot h).of_rxbuf hgot
  · exact (completesAsRead_of_readBody (i := .rrawb dev n) rfl ⟨hen, beq_false_of_ne hn⟩ hbudget hidle hn
      hgot h).of_rxbuf hgot

end Sys2Proof.Machine

/-! How often a command starts and stops: once in each pass (spec/60_exceptions.md R137, R138). -/

namespace Sys2Proof.Machine

open Sys2Proof Sys2Proof.Trace

/-! What the grammar says of `W_START` and `W_STOP`. -/

/-- The events hold so many `W_START` and so many `W_STOP`. -/
def StartsStops (starts stops : Nat) (evs : Events) : Prop :=
  evs.count .wStart = starts ∧ evs.count .wStop = stops

theorem StartsStops.append {a b c d : Nat} {e₁ e₂ : Events} (h₁ : StartsStops a b e₁) (h₂ : StartsStops c d e₂) :
    StartsStops (a + c) (b + d) (e₁ ++ e₂) := by
  obtain ⟨hstart₁, hstop₁⟩ := h₁
  obtain ⟨hstart₂, hstop₂⟩ := h₂
  exact ⟨by rw [List.count_append, hstart₁, hstart₂], by rw [List.count_append, hstop₁, hstop₂]⟩

theorem StartsStops.of_not_mem {evs : Events} (hstart : .wStart ∉ evs) (hstop : .wStop ∉ evs) : StartsStops 0 0 evs :=
  ⟨List.count_eq_zero_of_not_mem hstart, List.count_eq_zero_of_not_mem hstop⟩

/-- A second operation without `W_START` and `W_STOP` does not count. -/
theorem seq_startsStops {a b : Nat} {P Q : Events → Result → Prop} {evs : Events} {r : Result}
    (hP : ∀ {evs r}, P evs r → StartsStops a b evs) (hQ : ∀ {evs r}, Q evs r → StartsStops 0 0 evs)
    (h : Seq P Q evs r) : StartsStops a b evs := by
  obtain ⟨_, h⟩ | ⟨e₁, e₂, h₁, h₂, rfl⟩ := h
  · exact hP h
  · exact (hP h₁).append (hQ h₂)

theorem polled_startsStops {α : Type} {ev : α → LineEvent} {pred : α → Bool} {budget : Nat} {evs : Events} {r : Result}
    (h : Polled ev pred budget evs r) (hev : ∀ v, ev v ≠ .wStart ∧ ev v ≠ .wStop) : StartsStops 0 0 evs := by
  obtain ⟨vs, rfl, _⟩ := h
  exact .of_not_mem (by simp [hev]) (by simp [hev])

theorem polledSr1_startsStops {pred : Sr1 → Bool} {budget : Nat} {evs : Events} {r : Result}
    (h : Polled .rSr1 pred budget evs r) : StartsStops 0 0 evs :=
  polled_startsStops h fun _ => ⟨nofun, nofun⟩

theorem wrote_startsStops {v : Byte} {evs : Events} {r : Result} (h : Wrote v evs r) : StartsStops 0 0 evs := by
  obtain ⟨rfl, _⟩ := h
  exact .of_not_mem (by simp) (by simp)

theorem cleared_startsStops {evs : Events} {r : Result} (h : Cleared evs r) : StartsStops 0 0 evs := by
  obtain ⟨⟨_, rfl⟩, _⟩ := h
  exact .of_not_mem (by simp) (by simp)

theorem checked_startsStops {evs : Events} {r : Result} (h : Checked evs r) : StartsStops 0 0 evs := by
  obtain ⟨f, ⟨_, rfl, _⟩ | ⟨_, rfl, _⟩⟩ := h
  · exact .of_not_mem (by simp) (by simp)
  · exact .of_not_mem (by simp) (by simp)

theorem started_startsStops {budget : Nat} {evs : Events} {r : Result} (h : Started budget evs r) :
    StartsStops 1 0 evs := by
  obtain ⟨p, rfl, hp⟩ := h
  exact (show StartsStops 1 0 [.wStart] from ⟨rfl, rfl⟩).append (polledSr1_startsStops hp)

theorem stopped_startsStops {budget : Nat} {evs : Events} {r : Result} (h : Stopped budget evs r) :
    StartsStops 0 1 evs := by
  obtain ⟨p, rfl, hp⟩ := h
  exact (show StartsStops 0 1 [.wStop] from ⟨rfl, rfl⟩).append (polled_startsStops hp fun _ => ⟨nofun, nofun⟩)

theorem opened_startsStops {budget : Nat} {dev : DevAddr} {dir : BitVec 1} {evs : Events} {r : Result}
    (h : Opened budget dev dir evs r) : StartsStops 1 0 evs :=
  seq_startsStops started_startsStops (seq_startsStops wrote_startsStops
    (seq_startsStops polledSr1_startsStops (seq_startsStops cleared_startsStops checked_startsStops))) h

theorem sent_startsStops {budget : Nat} {v : Byte} {evs : Events} {r : Result} (h : Sent budget v evs r) :
    StartsStops 0 0 evs :=
  seq_startsStops wrote_startsStops (seq_startsStops polledSr1_startsStops checked_startsStops) h

theorem sentAll_startsStops {budget : Nat} {bytes : List Byte} {evs : Events} {r : Result} {sent : Nat}
    (h : SentAll budget bytes evs r sent) : StartsStops 0 0 evs := by
  induction h with
  | done => exact .of_not_mem (by simp) (by simp)
  | failed h _ => exact sent_startsStops h
  | more h _ ih => exact (sent_startsStops h).append ih

theorem wAck_startsStops {ack : Bool} {evs : Events} (h : StartsStops 0 0 evs) :
    StartsStops 0 0 (.wAck ack :: evs) :=
  (StartsStops.of_not_mem (evs := [.wAck ack]) (by simp) (by simp)).append h

theorem receivedAll_startsStops {budget left : Nat} {evs : Events} {r : Result} {got : List Byte}
    (h : ReceivedAll budget left evs r got) : StartsStops 0 0 evs := by
  induction h with
  | done => exact .of_not_mem (by simp) (by simp)
  | failed h =>
    obtain ⟨_, p, hp, rfl⟩ := h
    exact wAck_startsStops (polledSr1_startsStops hp)
  | @more _ _ _ v _ _ h _ ih =>
    obtain ⟨p, hp, rfl⟩ := h
    have hread : StartsStops 0 0 [.rDr v] := .of_not_mem (by simp) (by simp)
    exact ((wAck_startsStops (polledSr1_startsStops hp)).append hread).append ih

/-- A pass starts once and stops once, whatever failed. -/
theorem writePass_startsStops {budget : Nat} {dev : DevAddr} {bytes : List Byte} {evs : Events} {r st : Result}
    {sent : Nat} {port : List (BitVec 3)} (h : WritePass budget dev bytes evs r st sent port) :
    StartsStops 1 1 evs := by
  obtain ⟨_, _, ⟨_, hopen, _⟩ | ⟨_, _, hopen, hsent, rfl, _⟩, hstop, rfl⟩ := h
  · exact (opened_startsStops hopen).append (stopped_startsStops hstop)
  · exact ((opened_startsStops hopen).append (sentAll_startsStops hsent)).append (stopped_startsStops hstop)

theorem readPass_startsStops {budget : Nat} {dev : DevAddr} {n : Nat} {evs : Events} {r st : Result} {got : List Byte}
    {port : List (BitVec 3)} (h : ReadPass budget dev n evs r st got port) : StartsStops 1 1 evs := by
  obtain ⟨_, _, ⟨_, hopen, _⟩ | ⟨_, _, hopen, hrecv, rfl, _⟩, hstop, rfl⟩ := h
  · exact (opened_startsStops hopen).append (stopped_startsStops hstop)
  · exact ((opened_startsStops hopen).append (receivedAll_startsStops hrecv)).append (stopped_startsStops hstop)

/-! The bodies. -/

/-- From `s` to `t` as many starts as stops were made, at least one and at most `n`. -/
def Paired (n : Nat) (s t : State) : Prop :=
  ∃ k evs, t.history = s.history ++ evs ∧ StartsStops k k evs ∧ 1 ≤ k ∧ k ≤ n

theorem Paired.trans {m n : Nat} {s t u : State} (h₁ : Paired m s t) (h₂ : Paired n t u) : Paired (m + n) s u := by
  obtain ⟨k₁, e₁, hh₁, hc₁, hlo₁, hhi₁⟩ := h₁
  obtain ⟨k₂, e₂, hh₂, hc₂, _, hhi₂⟩ := h₂
  exact ⟨k₁ + k₂, e₁ ++ e₂, by rw [hh₂, hh₁, List.append_assoc], hc₁.append hc₂, by omega, by omega⟩

theorem Paired.mono {m n : Nat} {s t : State} (h : Paired m s t) (hmn : m ≤ n) : Paired n s t := by
  obtain ⟨k, evs, hhist, hcount, hlo, hhi⟩ := h
  exact ⟨k, evs, hhist, hcount, hlo, hhi.trans hmn⟩

theorem Paired.finish {n : Nat} {s u : State} (h : Paired n s u) (r st : Result) (data : Byte) (count : Len) :
    Paired n s (finish r st data count u) := h

theorem writePass_paired (dev : DevAddr) {b : Nat → State → Byte} {bytes : List Byte} {s : State} (hne : bytes ≠ [])
    (hlen : bytes.length < 8192) (hfail : s.fail = .ok) (hsends : Sends b bytes s) :
    Paired 1 s (writePass dev bytes.length b s).s := by
  obtain ⟨evs, _, _, hframe, hpass, _⟩ := writePass_spec dev b bytes s hne hlen hfail hsends
  exact ⟨1, evs, hframe.history, writePass_startsStops hpass, le_rfl, le_rfl⟩

theorem readBody_paired (dev : DevAddr) {n : Len} (dest : Delivery) {s : State} (hne : n ≠ 0) (hfail : s.fail = .ok) :
    Paired 1 s (readBody dev n dest s) := by
  have hn : n.toNat ≠ 0 := by simpa [BitVec.toNat_eq] using hne
  obtain ⟨evs, _, _, hframe, hpass, _⟩ := readPass_spec dev dest n.toNat s hn n.isLt hfail
  have hpaired : Paired 1 s (readPass dev n.toNat dest.put s).s :=
    ⟨1, evs, hframe.history, readPass_startsStops hpass, le_rfl, le_rfl⟩
  exact hpaired.finish _ _ _ _

/-- A register read starts once more for its read pass, and not at all after a failure (R120, R138). -/
theorem registerReadBody_paired (dev : DevAddr) (reg : Byte) {n : Len} (dest : Delivery) {s : State} (hne : n ≠ 0)
    (hfail : s.fail = .ok) : Paired 2 s (registerReadBody dev reg n dest s) := by
  obtain ⟨_, _, _, _, _, _, _, _, hfl, _⟩ :=
    writePass_spec dev (oneByte reg) [reg] s (by simp) (by simp) hfail (oneByte_sends reg s)
  have hwrite := writePass_paired dev (bytes := [reg]) (by simp) (by simp) hfail (oneByte_sends reg s)
  obtain ⟨hok, hbody⟩ | ⟨_, hbody⟩ := registerReadBody_cases dev reg n dest s _ rfl
  · rw [hbody]
    exact hwrite.trans (readBody_paired dev dest hne (hfl.trans hok))
  · rw [hbody]
    exact (hwrite.mono one_le_two).finish _ _ _ _

theorem bodyOf_paired {i : Instr} (h : zeroLength i = false) {s : State} (hfail : s.fail = .ok) :
    Paired (if twoPasses i then 2 else 1) s (bodyOf i s) := by
  cases i with
  | wreg dev reg val =>
    exact (writePass_paired dev (by simp) (by simp) hfail (wregByte_sends reg val s)).finish _ _ _ _
  | wraw dev val =>
    exact (writePass_paired dev (by simp) (by simp) hfail (oneByte_sends val s)).finish _ _ _ _
  | wbuf dev n =>
    rw [bodyOf_wbuf dev n s]
    have hn : n ≠ 0 := by simpa [zeroLength] using h
    exact (writePass_paired dev (range_map_ne_nil hn _) (range_map_length_lt n _) hfail
      (txBufByte_sends n.toNat s)).finish _ _ _ _
  | rreg dev reg => exact registerReadBody_paired dev reg (n := 1) .data (by decide) hfail
  | rraw dev => exact readBody_paired dev (n := 1) .data (by decide) hfail
  | rbuf dev reg n => exact registerReadBody_paired dev reg .rxbuf (by simpa [zeroLength] using h) hfail
  | rrawb dev n => exact readBody_paired dev .rxbuf (by simpa [zeroLength] using h) hfail

/-- Settles O28: a body is one pass, or for a register read at most two, and each starts and stops once. -/
theorem startsAndStopsArePaired : Obligations.StartsAndStopsArePaired := by
  intro i s t ha h
  rw [exec_of_admitted ha] at h
  cases h
  obtain ⟨k, evs, hhist, ⟨hstart, hstop⟩, hlo, hhi⟩ := bodyOf_paired ha.2 (s := s.setFail .ok) rfl
  exact ⟨evs, hhist, hstart.trans hstop.symm, hstart ▸ hlo, hstart ▸ hhi⟩

end Sys2Proof.Machine

/-! `Error` is the result of admission only (spec/60_exceptions.md R133, R135): no operation inside a command returns
it. -/

namespace Sys2Proof.Machine

open Sys2Proof Sys2Proof.Trace

/-! The primitives. -/

/-- The operation does not return `Error`, whatever state it starts in. -/
def NeverError (op : State → Result × State) : Prop := ∀ s, (op s).1 ≠ .error

theorem onOk_ne_error {p : Result × State} {f : State → Result × State} (hp : p.1 ≠ .error) (hf : NeverError f) :
    (onOk p f).1 ≠ .error := by
  by_cases hok : p.1 = .ok
  · rw [onOk, if_pos hok]
    exact hf p.2
  · rw [onOk_of_ne_ok hok]
    exact hp

theorem poll_neverError {α : Type} {lread : State → α × State} {ev : α → LineEvent} (hr : IsRead lread ev)
    (pred : α → Bool) : NeverError (poll lread pred) := by
  intro s
  obtain ⟨evs, _, _, hpolled, _⟩ := poll_spec hr pred s
  obtain hok | htimeout := hpolled.ok_or_timeout
  · simp [hok]
  · simp [htimeout]

theorem start_neverError : NeverError start := fun _ => poll_neverError lreadSr1_isRead _ _

theorem stop_neverError : NeverError stop := fun _ => poll_neverError lreadSr2_isRead _ _

theorem ackCheck_neverError : NeverError ackCheck := by
  intro s
  obtain ⟨_, _, ⟨_, ⟨_, _, hok⟩ | ⟨_, _, hnack⟩⟩, _⟩ := ackCheck_spec s
  · simp [hok]
  · simp [hnack]

theorem sendAddress_neverError (addr : DevAddr) (dir : Direction) : NeverError (sendAddress addr dir) := fun _ =>
  onOk_ne_error (poll_neverError lreadSr1_isRead _ _) fun _ => onOk_ne_error (ackCheck_neverError _) fun _ => nofun

theorem sendByte_neverError (v : Byte) : NeverError (sendByte v) := fun _ =>
  onOk_ne_error (poll_neverError lreadSr1_isRead _ _) ackCheck_neverError

theorem receiveByte_ne_error {ack : Bool} {s u : State} {r : Result} (h : receiveByte ack s = (.error r, u)) :
    r ≠ .error := by
  obtain ⟨_, _, hrecv, _⟩ := receiveByte_spec ack s
  rw [h] at hrecv
  obtain ⟨_, _, hpolled, _⟩ := hrecv
  obtain rfl | rfl := hpolled.ok_or_timeout
  · nofun
  · nofun

/-! The loops and the passes. -/

theorem sendBytes_neverError (b : Nat → State → Byte) (left : Nat) : NeverError (sendBytes b left) := by
  induction left with
  | zero => exact fun _ => nofun
  | succ left ih => exact fun _ => onOk_ne_error (sendByte_neverError _ _) fun _ => ih _

theorem receiveBytes_ne_error (put : Nat → Byte → State → State) (n left : Nat) (last : Byte) (s : State) :
    (receiveBytes put n left last s).1 ≠ .error := by
  induction left generalizing last s with
  | zero => nofun
  | succ left ih =>
    rw [receiveBytes]
    split
    · exact ih _ _
    · next h => exact receiveByte_ne_error h

theorem openPass_neverError (dev : DevAddr) (dir : Direction) : NeverError (openPass dev dir) := fun _ =>
  onOk_ne_error (start_neverError _) (sendAddress_neverError dev dir)

/-- The code that `Finish` latches after the pass (spec/40_primitives.md R101). -/
def PassEnd.code (p : PassEnd) : Result := firstFailure p.r p.stop

theorem endPass_code_ne_error {r : Result} (hr : r ≠ .error) (byte : Byte) (s : State) :
    (endPass r byte s).code ≠ .error := by
  by_cases hok : r = .ok
  · exact (if_pos hok).trans_ne (stop_neverError _)
  · exact (if_neg hok).trans_ne hr

theorem writePass_code_ne_error (dev : DevAddr) (k : Nat) (b : Nat → State → Byte) (s : State) :
    (writePass dev k b s).code ≠ .error :=
  endPass_code_ne_error (onOk_ne_error (openPass_neverError dev .write s) (sendBytes_neverError b k)) _ _

theorem readPass_code_ne_error (dev : DevAddr) (n : Nat) (put : Nat → Byte → State → State) (s : State) :
    (readPass dev n put s).code ≠ .error := by
  rw [readPass]
  split
  · exact endPass_code_ne_error (receiveBytes_ne_error put n n 0 _) _ _
  · exact endPass_code_ne_error (openPass_neverError dev .read s) _ _

/-! The bodies. -/

/-- After a pass the latch holds its code. -/
theorem finish_code_ne_error {p : PassEnd} (h : p.code ≠ .error) (data : Byte) (count : Len) :
    (finish p.r p.stop data count p.s).result.code ≠ .error :=
  (latched_code p.r p.stop data count).trans_ne h

theorem readBody_code_ne_error (dev : DevAddr) (n : Len) (dest : Delivery) (s : State) :
    (readBody dev n dest s).result.code ≠ .error :=
  finish_code_ne_error (readPass_code_ne_error dev n.toNat dest.put s) _ _

theorem BodyForm.code_ne_error {i : Instr} {s : State} {body : State → State} (h : BodyForm i s body) (u : State) :
    (body u).result.code ≠ .error := by
  cases h with
  | write dev bytes b => exact finish_code_ne_error (writePass_code_ne_error dev bytes.length b u) _ _
  | rawRead dev dest => exact readBody_code_ne_error dev _ dest u
  | registerRead dev reg dest =>
    obtain ⟨_, hbody⟩ | ⟨_, hbody⟩ := registerReadBody_cases dev reg (okCount i) dest u _ rfl
    · rw [hbody]
      exact readBody_code_ne_error dev _ dest _
    · rw [hbody]
      exact finish_code_ne_error (writePass_code_ne_error dev 1 (oneByte reg) u) _ _

/-- Settles O26: admission latches `Error`, and no pass ends with it. -/
theorem errorIsDecidedAtAdmissionOnly : Obligations.ErrorIsDecidedAtAdmissionOnly := by
  intro i s t h
  obtain ⟨hna, rfl⟩ | ⟨ha, hform, rfl⟩ := exec_cases h
  · exact iff_of_true rfl hna
  · exact iff_of_false (hform.code_ne_error _) (not_not_intro ha)

end Sys2Proof.Machine

/-! The last line-side action of a command is the poll of a stop (spec/60_exceptions.md R137, R141), and a block with
nothing to do waits (R146). -/

namespace Sys2Proof.Machine

open Sys2Proof Sys2Proof.Trace

/-! The loops of the passes as framed operations, for every length. -/

theorem sendBytes_frame (b : Nat → State → Byte) (left : Nat) (s : State) :
    ∃ evs, OpFrame s (sendBytes b left s).2 evs := by
  induction left generalizing s with
  | zero => exact ⟨[], .of_eq rfl⟩
  | succ left ih =>
    obtain ⟨e₁, hsend, _⟩ := sendByte_spec (b s.byteidx.toNat s) s
    rw [sendBytes, onOk]
    split
    · obtain ⟨e₂, hrest⟩ := ih _
      exact ⟨_, (hsend.trans (.setByteidx _ _)).trans hrest⟩
    · exact ⟨e₁, hsend⟩

theorem receiveBytes_frame (dest : Delivery) (n left : Nat) (last : Byte) (s : State) :
    ∃ evs, OpFrame s (receiveBytes dest.put n left last s).2.2 evs := by
  induction left generalizing last s with
  | zero => exact ⟨[], .of_eq rfl⟩
  | succ left ih =>
    obtain ⟨e₁, hrecv, _⟩ := receiveByte_spec (ackFor n s.byteidx.toNat) s
    rw [receiveBytes]
    split
    · next v u h =>
      rw [h] at hrecv
      obtain ⟨e₂, hrest⟩ := ih v ((dest.put u.byteidx.toNat v u).setByteidx (u.byteidx + 1))
      exact ⟨_, ((hrecv.trans (dest.put_frame _ v u)).trans (.setByteidx _ _)).trans hrest⟩
    · next r u h =>
      rw [h] at hrecv
      exact ⟨e₁, hrecv⟩

/-! From a `W_START` to the poll of a stop. -/

/-- From `s` to `t` framed operations were made of which the first line access is `W_START`. -/
def Opens (s t : State) : Prop := ∃ before, OpFrame s t (.wStart :: before)

theorem Opens.trans {s t u : State} {evs : List LineEvent} (h : Opens s t) (hframe : OpFrame t u evs) : Opens s u := by
  obtain ⟨before, hopen⟩ := h
  exact ⟨before ++ evs, hopen.trans hframe⟩

theorem openPass_opens (dev : DevAddr) (dir : Direction) (s : State) : Opens s (openPass dev dir s).2 := by
  obtain ⟨evs, hframe, hseq, _⟩ := openPass_spec dev dir s
  obtain ⟨_, _, rfl, _⟩ | ⟨_, e₂, ⟨p, rfl, _⟩, _, rfl⟩ := hseq
  · exact ⟨_, hframe⟩
  · exact ⟨p ++ e₂, hframe⟩

/-- From `s` to `t` whole passes were made: the new events begin with `W_START` and end with `W_STOP` and its
samples, at most `BUDGET` and as many as `POLLCNT` says. -/
structure EndsWithStop (s t : State) : Prop where
  budget : t.budget = s.budget
  phase  : t.phase = .idle
  events : ∃ (before : List LineEvent) (polls : List Bool),
    t.history = s.history ++ .wStart :: before ++ .wStop :: polls.map .rSr2 ∧
    polls.length ≤ s.budget.toNat ∧ t.pollcnt = BitVec.ofNat 32 polls.length

theorem EndsWithStop.trans {s t u : State} (h₁ : EndsWithStop s t) (h₂ : EndsWithStop t u) : EndsWithStop s u := by
  obtain ⟨before₁, polls₁, hhist₁, _⟩ := h₁.events
  obtain ⟨before₂, polls₂, hhist₂, hlen, hcount⟩ := h₂.events
  refine ⟨h₂.budget.trans h₁.budget, h₂.phase,
    before₁ ++ .wStop :: polls₁.map .rSr2 ++ .wStart :: before₂, polls₂, ?_, h₁.budget ▸ hlen, hcount⟩
  rw [hhist₂, hhist₁]
  simp

theorem EndsWithStop.finish {s t : State} (h : EndsWithStop s t) (r st : Result) (data : Byte) (count : Len) :
    EndsWithStop s (finish r st data count t) :=
  ⟨h.budget, h.phase, h.events⟩

/-- `stop` after a `W_START` (spec/40_primitives.md R92). -/
theorem endPass_endsWithStop {s u : State} (h : Opens s u) (r : Result) (byte : Byte) :
    EndsWithStop s (endPass r byte u).s := by
  obtain ⟨before, hopen⟩ := h
  obtain ⟨evs, hpoll, _, hpolled, hcount⟩ :=
    poll_spec lreadSr2_isRead busIdle ((lwriteStop (u.noteFailure r)).setPhase .stopIssued)
  have hlen : evs.length ≤ u.budget.toNat := hpolled.length_le
  obtain ⟨polls, rfl, _⟩ := hpolled
  rw [List.length_map] at hlen hcount
  refine ⟨hpoll.budget.trans hopen.budget, rfl, before, polls, ?_, hopen.budget ▸ hlen, hcount⟩
  have hstop : (endPass r byte u).s.history = u.history ++ [.wStop] ++ polls.map .rSr2 := hpoll.history
  rw [hstop, hopen.history]
  simp

theorem writePass_endsWithStop (dev : DevAddr) (k : Nat) (b : Nat → State → Byte) (s : State) :
    EndsWithStop s (writePass dev k b s).s := by
  have hopen := openPass_opens dev .write s
  refine endPass_endsWithStop ?_ _ _
  rw [onOk]
  split
  · obtain ⟨_, hsend⟩ := sendBytes_frame b k (openPass dev .write s).2
    exact hopen.trans hsend
  · exact hopen

theorem readPass_endsWithStop (dev : DevAddr) (n : Nat) (dest : Delivery) (s : State) :
    EndsWithStop s (readPass dev n dest.put s).s := by
  have hopen := openPass_opens dev .read s
  rw [readPass]
  split
  · obtain ⟨_, hrecv⟩ := receiveBytes_frame dest n n 0 (openPass dev .read s).2
    exact endPass_endsWithStop (hopen.trans hrecv) _ _
  · exact endPass_endsWithStop hopen _ _

theorem readBody_endsWithStop (dev : DevAddr) (n : Len) (dest : Delivery) (s : State) :
    EndsWithStop s (readBody dev n dest s) :=
  (readPass_endsWithStop dev n.toNat dest s).finish _ _ _ _

theorem BodyForm.endsWithStop {i : Instr} {s : State} {body : State → State} (h : BodyForm i s body) (u : State) :
    EndsWithStop u (body u) := by
  cases h with
  | write dev bytes b => exact (writePass_endsWithStop dev bytes.length b u).finish _ _ _ _
  | rawRead dev dest => exact readBody_endsWithStop dev _ dest u
  | registerRead dev reg dest =>
    have hwrite := writePass_endsWithStop dev 1 (oneByte reg) u
    obtain ⟨_, hbody⟩ | ⟨_, hbody⟩ := registerReadBody_cases dev reg (okCount i) dest u _ rfl
    · rw [hbody]
      exact hwrite.trans (readBody_endsWithStop dev _ dest _)
    · rw [hbody]
      exact hwrite.finish _ _ _ _

/-- Settles O27: every body is one pass or two, and each pass starts and ends with its stop whatever failed. -/
theorem everyAdmittedCommandEndsWithAStop : Obligations.EveryAdmittedCommandEndsWithAStop := by
  intro i s t h
  obtain ⟨hna, rfl⟩ | ⟨ha, hform, rfl⟩ := exec_cases h
  · exact ⟨fun ha => absurd ha hna, fun _ => rfl⟩
  · have hend := hform.endsWithStop (s.setFail .ok)
    obtain ⟨before, polls, hhist, hlen, hcount⟩ := hend.events
    exact ⟨fun _ => ⟨before, polls, hhist, hlen, hcount, hend.phase⟩, fun hna => absurd ha hna⟩

/-- Settles O53: a step takes the next input, and there is none. -/
theorem waitingBlockDoesNothing : Obligations.WaitingBlockDoesNothing := fun _ => step_nil

end Sys2Proof.Machine

/-! A budget of zero: every poll times out at once, and no sample is made (spec/70_reset_and_hazards.md R168). -/

namespace Sys2Proof.Machine

open Sys2Proof Sys2Proof.Trace

theorem start_of_zero_budget {s : State} (hbudget : s.budget = 0) :
    start s = (.timeout, { s.setPhase .startIssued with history := s.history ++ [.wStart], pollcnt := 0 }) := by
  have hlen : ([] : List LineAnswer).length = s.budget.toNat := by rw [hbudget]; rfl
  rw [(startAndStopFollowTheirAnswers.1 s [] s.answers default nofun).2 rfl hlen, hbudget]
  rfl

theorem stop_of_zero_budget {s : State} (hbudget : s.budget = 0) :
    stop s = (.timeout, { (s.setPhase .stopIssued).setPhase .idle with
      history := s.history ++ [.wStop], pollcnt := 0 }) := by
  have hlen : ([] : List LineAnswer).length = s.budget.toNat := by rw [hbudget]; rfl
  rw [(startAndStopFollowTheirAnswers.2 s [] s.answers default nofun).2 rfl hlen, hbudget]
  rfl

/-- The address phase ends at its `start`, before the address byte. -/
theorem openPass_of_zero_budget (dev : DevAddr) (dir : Direction) {s : State} (hbudget : s.budget = 0) :
    openPass dev dir s = (.timeout, { s.setPhase .startIssued with
      history := s.history ++ [.wStart], pollcnt := 0, byteidx := 0 }) := by
  rw [openPass, start_of_zero_budget hbudget]
  rfl

theorem endPass_of_zero_budget (r : Result) (byte : Byte) {s : State} (hbudget : s.budget = 0) :
    endPass r byte s = ⟨r, .timeout, byte, { ((s.noteFailure r).setPhase .stopIssued).setPhase .idle with
      history := s.history ++ [.wStop], pollcnt := 0, fail := firstFailure (firstFailure s.fail r) .timeout }⟩ := by
  rw [endPass, stop_of_zero_budget (s := s.noteFailure r) hbudget]
  rfl

/-- Settles O30: the first address phase ends `Timeout` at its `start`, and so does the stop that follows. -/
theorem zeroBudgetTimesOutWithoutASample : Obligations.ZeroBudgetTimesOutWithoutASample := by
  intro i s ha hbudget hidle
  have hopen := openPass_of_zero_budget (s := s.setFail .ok) (device i) (firstPass i) hbudget
  have hbody := bodyOf_of_failed_open hopen nofun (endPass_of_zero_budget .timeout 0 hbudget)
  refine ⟨_, exec_of_admitted ha, ?_⟩
  rw [hbody]
  refine ⟨?_, rfl, rfl, rfl, rfl, rfl, rfl, rfl⟩
  simp [CommandFrame, hidle, script, ackAfter, State.setResult, State.noteFailure, State.setPhase, State.setFail,
    Phase.dbg]

end Sys2Proof.Machine

/-! A stale `AF` under clause LC3: no address phase ends `Ok` while it is not cleared, so no command does
(spec/70_reset_and_hazards.md R164). -/

namespace Sys2Proof.Machine

open Sys2Proof Sys2Proof.Trace

/-! Clause LC3 and a history without `W_AFCLR`. -/

theorem Track.next_afSeen {k : Track} {e : LineEvent} (he : e ≠ .wAfClr) (hk : k.afSeen = true) :
    (k.next e).afSeen = true := by
  cases e with
  | wAfClr => exact absurd rfl he
  | wDr v =>
    rw [Track.next]
    split
    · exact hk
    · exact hk
  | rSr1 f => simp [Track.next, hk]
  | wStart | wStop | wAck | rSr2 | rDr => exact hk

/-- An `AF` that was seen stays seen as long as it is not cleared. -/
theorem foldl_next_afSeen {k : Track} {evs : Events} (hclr : .wAfClr ∉ evs) (hk : k.afSeen = true) :
    (evs.foldl Track.next k).afSeen = true := by
  induction evs generalizing k with
  | nil => exact hk
  | cons e evs ih =>
    obtain ⟨he, hevs⟩ := List.ne_and_not_mem_of_not_mem_cons hclr
    exact ih hevs (Track.next_afSeen he.symm hk)

/-- While a stale `AF` is not cleared, LC3 makes every sample answer it. -/
theorem LC3_sample_af {h evs : Events} {f : Sr1} (hlc3 : LC3 (h ++ (evs ++ [.rSr1 f])) = true)
    (hstale : (trackOf h).afSeen = true) (hclr : .wAfClr ∉ evs) : f.af = true := by
  have hseen : (evs.foldl Track.next (h.foldl Track.next .init)).afSeen = true := foldl_next_afSeen hclr hstale
  rw [LC3, holdsAlong_append, holdsAlong_append] at hlc3
  simp only [holdsAlong, hseen, Bool.and_eq_true, Bool.not_true, Bool.false_or] at hlc3
  obtain ⟨_, _, ⟨haf, _⟩, _⟩ := hlc3
  exact haf

theorem LC3_of_isPrefix {h h' : List LineEvent} (hle : h <+: h') (hlc3 : LC3 h' = true) : LC3 h = true := by
  obtain ⟨rest, rfl⟩ := hle
  rw [LC3, holdsAlong_append, Bool.and_eq_true] at hlc3
  exact hlc3.1

/-! The address phase. -/

/-- Two operations return `Ok` when both do. -/
theorem seq_ok {P Q : Events → Result → Prop} {evs : Events} (h : Seq P Q evs .ok) :
    ∃ e₁ e₂, P e₁ .ok ∧ Q e₂ .ok ∧ evs = e₁ ++ e₂ :=
  h.resolve_left fun hbad => hbad.1 rfl

/-- An address phase that returns `Ok` ends with the check, which found `AF = 0`; nothing cleared `AF` before it. -/
theorem opened_ok_ends_with_clear_check {budget : Nat} {b : Byte} {evs : Events}
    (h : Seq (Started budget) (Addressed budget b) evs .ok) :
    ∃ before f, evs = before ++ [.rSr1 f] ∧ .wAfClr ∉ before ∧ f.af = false := by
  obtain ⟨_, _, ⟨_, rfl, starting, rfl, _⟩, haddr, rfl⟩ := seq_ok h
  obtain ⟨_, _, ⟨rfl, _⟩, hpoll, rfl⟩ := seq_ok haddr
  obtain ⟨_, _, ⟨addressing, rfl, _⟩, hcheck, rfl⟩ := seq_ok hpoll
  obtain ⟨_, _, ⟨⟨busy, rfl⟩, _⟩, ⟨f, ⟨haf, rfl, _⟩ | ⟨_, _, hnack⟩⟩, rfl⟩ := seq_ok hcheck
  · exact ⟨.wStart :: starting.map .rSr1 ++ .wDr b :: addressing.map .rSr1 ++ [.rSr2 busy], f, by simp, by simp, haf⟩
  · cases hnack

theorem openPass_ne_ok_of_stale_af (dev : DevAddr) (dir : Direction) {s : State}
    (hstale : (trackOf s.history).afSeen = true) (hlc3 : LC3 (openPass dev dir s).2.history = true) :
    (openPass dev dir s).1 ≠ .ok := by
  intro hok
  obtain ⟨evs, hframe, hseq, _⟩ := openPass_spec dev dir s
  rw [hok] at hseq
  obtain ⟨before, f, rfl, hclr, haf⟩ := opened_ok_ends_with_clear_check hseq
  rw [hframe.history] at hlc3
  exact absurd (LC3_sample_af hlc3 hstale hclr) (by simp [haf])

/-! A command goes on from its first address phase: what that recorded stays in the history. -/

theorem OpFrame.history_isPrefix {s t : State} {evs : List LineEvent} (h : OpFrame s t evs) : s.history <+: t.history :=
  ⟨evs, h.history.symm⟩

theorem endPass_history_isPrefix (r : Result) (byte : Byte) (s : State) : s.history <+: (endPass r byte s).s.history := by
  obtain ⟨_, hframe, _⟩ := endPass_spec r byte s
  exact hframe.history_isPrefix

theorem writePass_history_isPrefix (dev : DevAddr) (k : Nat) (b : Nat → State → Byte) (s : State) :
    (openPass dev .write s).2.history <+: (writePass dev k b s).s.history := by
  refine List.IsPrefix.trans ?_ (endPass_history_isPrefix _ _ _)
  rw [onOk]
  split
  · obtain ⟨_, hsend⟩ := sendBytes_frame b k (openPass dev .write s).2
    exact hsend.history_isPrefix
  · exact ⟨[], List.append_nil _⟩

theorem readPass_history_isPrefix (dev : DevAddr) (n : Nat) (dest : Delivery) (s : State) :
    (openPass dev .read s).2.history <+: (readPass dev n dest.put s).s.history := by
  rw [readPass]
  split
  · obtain ⟨_, hrecv⟩ := receiveBytes_frame dest n n 0 (openPass dev .read s).2
    exact hrecv.history_isPrefix.trans (endPass_history_isPrefix _ _ _)
  · exact endPass_history_isPrefix _ _ _

theorem writeBody_history_isPrefix (dev : DevAddr) (k : Nat) (b : Nat → State → Byte) (count : Len) (s : State) :
    (openPass dev .write s).2.history <+: (writeBody dev k b count s).history :=
  writePass_history_isPrefix dev k b s

theorem readBody_history_isPrefix (dev : DevAddr) (n : Len) (dest : Delivery) (s : State) :
    (openPass dev .read s).2.history <+: (readBody dev n dest s).history :=
  readPass_history_isPrefix dev n.toNat dest s

theorem registerReadBody_history_isPrefix (dev : DevAddr) (reg : Byte) (n : Len) (dest : Delivery) (s : State) :
    (openPass dev .write s).2.history <+: (registerReadBody dev reg n dest s).history := by
  have hwrite := writePass_history_isPrefix dev 1 (oneByte reg) s
  obtain ⟨_, hbody⟩ | ⟨_, hbody⟩ := registerReadBody_cases dev reg n dest s _ rfl
  · obtain ⟨_, hopen, _⟩ := openPass_spec dev .read (writePass dev 1 (oneByte reg) s).s
    rw [hbody]
    exact hwrite.trans (hopen.history_isPrefix.trans (readBody_history_isPrefix dev n dest _))
  · rw [hbody]
    exact hwrite

theorem bodyOf_history_isPrefix (i : Instr) (s : State) :
    (openPass (device i) (firstPass i) s).2.history <+: (bodyOf i s).history := by
  cases i with
  | wreg | wbuf | wraw => exact writeBody_history_isPrefix _ _ _ _ s
  | rraw | rrawb => exact readBody_history_isPrefix _ _ _ s
  | rreg | rbuf => exact registerReadBody_history_isPrefix _ _ _ _ s

theorem Result.timeout_or_nack {r : Result} (hok : r ≠ .ok) (herror : r ≠ .error) : r = .timeout ∨ r = .nack := by
  cases r with
  | ok => exact absurd rfl hok
  | timeout => exact .inl rfl
  | nack => exact .inr rfl
  | error => exact absurd rfl herror

/-- Settles O32: the first address phase fails, because LC3 makes its check find `AF`, and its failure is the
command's. -/
theorem staleAcknowledgeFailureBlocksOk : Obligations.StaleAcknowledgeFailureBlocksOk := by
  intro i s t ha h hstale hlc3
  rw [exec_of_admitted ha] at h
  cases h
  have hopen : LC3 (openPass (device i) (firstPass i) (s.setFail .ok)).2.history = true :=
    LC3_of_isPrefix (bodyOf_history_isPrefix i _) hlc3
  have hbad := openPass_ne_ok_of_stale_af _ _ (s := s.setFail .ok) hstale hopen
  have herror := openPass_neverError (device i) (firstPass i) (s.setFail .ok)
  rw [bodyOf_of_failed_open rfl hbad rfl]
  exact Result.timeout_or_nack hbad herror

end Sys2Proof.Machine
